-- ==== Sys2Proof/Word.lean ====
section
/-! DEFINITION. Words of the block: bytes, the 32-bit host word, the 13-bit PID and the 4-bit instance index. -/

namespace Sys2Proof

/-- A byte of a packet, a buffer cell or a sink write (00_scope.md R7). -/
abbrev Byte := BitVec 8

/-- A 32-bit host register or command word (20_memory.md R71, 30_encoding.md R80). -/
abbrev Word := BitVec 32

/-- A 13-bit packet identifier (10_state.md R32). -/
abbrev Pid := BitVec 13

/-- An assembler instance index as the 4-bit `INST` field of a command word can name it
(30_encoding.md R80). Whether the instance exists is `N_ASM`'s business (R82 case 3). -/
abbrev InstId := Fin 16

end Sys2Proof
end

