-- ==== Sys2Proof/Syntax.lean ====
section
/-! DEFINITION. The seven commands of 30_encoding.md R81, one constructor for each row of opcode_table.json. -/

namespace Sys2Proof

/-- A command with its operands, as R81 and R83 read them from the command word. -/
inductive Instr where
  /-- `TSH_DECODE` (40_ts_header.md R121). -/
  | tshDecode
  /-- `AF_DECODE` (41_adaptation_field.md R149). -/
  | afDecode
  /-- `PESH_DECODE` with the packet byte offset `OFS` (42_pes_header.md R178). -/
  | peshDecode (ofs : Byte)
  /-- `ASM_INIT` of instance `INST` for PID `PIDF` (43_pes_assembler.md R201). -/
  | asmInit (inst : InstId) (pid : Pid)
  /-- `ASM_ABSORB` on instance `INST` (43_pes_assembler.md R203). -/
  | asmAbsorb (inst : InstId)
  /-- `ASM_RELEASE` of instance `INST` (43_pes_assembler.md R202). -/
  | asmRelease (inst : InstId)
  /-- `PKT_PROCESS` (44_packet_process.md R250). -/
  | pktProcess
deriving DecidableEq, Repr

/-- The operation of a command, without operands: the mnemonics of R81. -/
inductive Op where
  | tshDecode
  | afDecode
  | peshDecode
  | asmInit
  | asmAbsorb
  | asmRelease
  | pktProcess
deriving DecidableEq, Repr

end Sys2Proof
end

