-- ==== Sys2Proof/Decode.lean ====
section
/-! DEFINITION. The command word (30_encoding.md R80-R83): its fields, the table of R81, the decoder, total over
all 2^32 words, and the encoder. -/

namespace Sys2Proof

/-- `OPC`, bits 31:28 (R80). -/
def opcField (w : Word) : BitVec 4 := w.extractLsb' 28 4

/-- `INST`, bits 27:24 (R80). -/
def instField (w : Word) : InstId := Fin.ofNat 16 (w.extractLsb' 24 4).toNat

/-- `OFS`, bits 23:16 (R80). -/
def ofsField (w : Word) : Byte := w.extractLsb' 16 8

/-- `PIDF`, bits 12:0 (R80). -/
def pidField (w : Word) : Pid := w.extractLsb' 0 13

/-- One row of R81's table. -/
structure Row where
  op : Op
  opc : BitVec 4
  matchBits : Word
  mask : Word
deriving DecidableEq, Repr

/-- R81's table, as opcode_table.json lists it. -/
def opcodeTable : List Row :=
  [ ⟨.tshDecode,  0x1, 0x10000000, 0xFFFFFFFF⟩,
    ⟨.afDecode,   0x2, 0x20000000, 0xFFFFFFFF⟩,
    ⟨.peshDecode, 0x3, 0x30000000, 0xFF00FFFF⟩,
    ⟨.asmInit,    0x4, 0x40000000, 0xF0FFE000⟩,
    ⟨.asmAbsorb,  0x5, 0x50000000, 0xF0FFFFFF⟩,
    ⟨.asmRelease, 0x6, 0x60000000, 0xF0FFFFFF⟩,
    ⟨.pktProcess, 0x7, 0x70000000, 0xFFFFFFFF⟩ ]

/-- Why a word is no command (R82 cases 1 and 2). -/
inductive Reject where
  /-- `OPC` is reserved: 0x0 or 0x8..0xF. -/
  | reservedOpcode (opc : BitVec 4)
  /-- A field the operation does not use, `RSV` among them, is not 0. -/
  | unusedFieldNonzero (op : Op)
deriving DecidableEq, Repr

/-- The command of an operation with its operands taken from the word (R83). -/
def operandsOf (op : Op) (w : Word) : Instr :=
  match op with
  | .tshDecode => .tshDecode
  | .afDecode => .afDecode
  | .peshDecode => .peshDecode (ofsField w)
  | .asmInit => .asmInit (instField w) (pidField w)
  | .asmAbsorb => .asmAbsorb (instField w)
  | .asmRelease => .asmRelease (instField w)
  | .pktProcess => .pktProcess

/-- The row of an opcode, if the opcode is not reserved. -/
def rowOf (opc : BitVec 4) : Option Row :=
  opcodeTable.find? fun r => r.opc == opc

/-- R83: the row is found by `OPC`, and every bit under the row's mask must be as the row says. -/
def decode (w : Word) : Except Reject Instr :=
  match rowOf (opcField w) with
  | none => .error (.reservedOpcode (opcField w))
  | some r =>
    if w &&& r.mask = r.matchBits then .ok (operandsOf r.op w)
    else .error (.unusedFieldNonzero r.op)

/-- The decoder on a row's bits as the host numbers them. A command is one 32-bit word (R80), so bit 0 of the row is
bit 0 of the word; bits at or above `nbits` are 0. -/
def decodeTableWord (nbits w : Nat) : Option Instr :=
  match decode (BitVec.ofNat 32 (w % 2 ^ nbits)) with
  | .ok c => some c
  | .error _ => none

/-- R80's layout, `OPC || INST || OFS || RSV || PIDF` with `RSV = 0`; it is R100's
`OPC<<28 | inst<<24 | ofs<<16 | pid`. -/
def assemble (opc : BitVec 4) (inst : InstId) (ofs : Byte) (pid : Pid) : Word :=
  opc ++ BitVec.ofNat 4 inst.val ++ ofs ++ (0 : BitVec 3) ++ pid

/-- The command word of a command (R81); an operand a command does not have is 0 (R82, R100). -/
def encode (c : Instr) : Word :=
  match c with
  | .tshDecode => assemble 0x1 0 0 0
  | .afDecode => assemble 0x2 0 0 0
  | .peshDecode ofs => assemble 0x3 0 ofs 0
  | .asmInit i pid => assemble 0x4 i 0 pid
  | .asmAbsorb i => assemble 0x5 i 0 0
  | .asmRelease i => assemble 0x6 i 0 0
  | .pktProcess => assemble 0x7 0 0 0

end Sys2Proof
end

