-- ==== Sys2Proof/Config.lean ====
section
/-! DEFINITION. What is fixed for a model instance: the constants and parameters of 00_scope.md R6, and the one
source of free values. -/

namespace Sys2Proof

namespace Config

/-- `TS_PACKET_LEN`, bytes per TS packet (R6). -/
abbrev tsPacketLen : Nat := 188

/-- `TS_HEADER_LEN`, bytes of the fixed header (R6). -/
abbrev tsHeaderLen : Nat := 4

/-- `SYNC_VALUE`, the valid sync byte (R6). -/
abbrev syncValue : Byte := 0x47

/-- `PES_PREFIX_LEN`, mandatory PES prefix bytes (R6). -/
abbrev pesPrefixLen : Nat := 6

/-- `WOFF_LIMIT` (R6): a write offset at or above it is refused (43_pes_assembler.md R223). -/
abbrev woffLimit : Nat := 2 ^ 31

/-- DESIGN CHOICE (log entry 3): the `n`-th unspecified byte ("draw") of a run (20_memory.md R64, R65). It has no
body, so nothing can be proved about its value. -/
opaque freeByte : Nat → Byte

end Config

/-- `CC_FIRST` (R6): the continuity check while `LAST_CC = -1` (43_pes_assembler.md R208). -/
inductive CcFirst where
  | literal
  | any
deriving DecidableEq, Repr

/-- The model parameters of 00_scope.md R6. The host reads them in the constant registers `CFG` and `CFG_CAPU`
(10_state.md R45). Log entry 1 says why they stand in the state. -/
structure Params where
  /-- `N_ASM`, the number of assembler instances. -/
  nAsm : Nat
  /-- `CAP_UNBOUNDED`, the capacity for a PES packet of undeclared length. -/
  capUnbounded : Word
  /-- `CC_FIRST`. -/
  ccFirst : CcFirst
  /-- `CC_ADVANCE_ON_LOSS`. -/
  ccAdvanceOnLoss : Bool
deriving DecidableEq, Repr

/-- The ranges R6 gives the parameters. -/
abbrev Params.legal (p : Params) : Prop :=
  1 ≤ p.nAsm ∧ p.nAsm ≤ 16 ∧ 1 ≤ p.capUnbounded.toNat ∧ p.capUnbounded.toNat < 2 ^ 31

/-- `MAX_CAP = max(65541, CAP_UNBOUNDED)`, the buffer cells of an instance (R6). -/
def Params.maxCap (p : Params) : Nat :=
  max 65541 p.capUnbounded.toNat

/-- DESIGN CHOICE (log entry 1): the parameters `State.reset` is given. `CC_FIRST` and `CC_ADVANCE_ON_LOSS` have
R6's defaults; `N_ASM` and `CAP_UNBOUNDED`, which R6 leaves open, have the values of 95_test_vectors.md. -/
def Params.ofVectors : Params where
  nAsm := 2
  capUnbounded := 65536
  ccFirst := .literal
  ccAdvanceOnLoss := false

end Sys2Proof
end

