-- ==== Sys2Proof/Machine/State.lean ====
section
/-! DEFINITION. The block's state as plain data (10_state.md), the reasons a step can stop, and the state after
reset (10_state.md R47). -/

namespace Sys2Proof.Machine

/-- Byte storage keyed by offset, each written cell listed once with offsets strictly rising. An offset that is not
listed has never been written; it holds no byte of its own, and reading it gives a free value (20_memory.md R64,
R65). `Memory.wf` in Ops.lean is this form. -/
abbrev Memory := List Host.Cell

/-- The result codes of 30_encoding.md R96. Codes 0xD..0xF are never produced, so they are not here. -/
inductive ResultCode where
  | ok
  | truncatedInput
  | malformedField
  | unexpectedPid
  | streamPacketLost
  | assemblingStarted
  | assemblingContinue
  | assemblingFinished
  | assemblingFinishedAndStarted
  | illegalCommand
  | invalidSync
  | notPresent
  | notRun
deriving DecidableEq, Repr

/-- The packet buffer `PKT[0..187]` (10_state.md R23): the bytes the host has written since reset, and the number of
the first of the 188 draws that stand for the others (log entry 4). -/
structure Packet where
  cells : Memory
  epoch : Nat
deriving DecidableEq, Repr

/-- `RESULT` (10_state.md R26). `inst = none` is the field value `0x1F`; reserved bits are in the register's word
view only. -/
structure Result where
  code : ResultCode
  ntc : Bool
  flushed : Bool
  inst : Option InstId
deriving DecidableEq, Repr

/-- The HDR group (10_state.md R27). The `H_*` registers are views of `HDR_WORD` (Operands.lean). -/
structure HdrGroup where
  status : ResultCode
  syncOk : Bool
  word : Word
deriving DecidableEq, Repr

/-- The AF group (10_state.md R28). -/
structure AfGroup where
  status : ResultCode
  length : Byte
  flags : Byte
  pcrBase : BitVec 33
  pcrExt : BitVec 9
  pcrTime : BitVec 42
  opcrBase : BitVec 33
  opcrExt : BitVec 9
  opcrTime : BitVec 42
  spliceCd : Byte
  privLen : Byte
  extLen : Byte
  stuffing : Byte
  consumed : BitVec 9
deriving DecidableEq, Repr

/-- The PESH group (10_state.md R29). -/
structure PeshGroup where
  status : ResultCode
  startCode : BitVec 24
  startOk : Bool
  streamId : Byte
  pktLen : BitVec 16
  flags1 : Byte
  flags2 : Byte
  hdrDataLen : Byte
  ptsF : Bool
  dtsF : Bool
  pts : BitVec 33
  dts : BitVec 33
  headerLength : BitVec 9
deriving DecidableEq, Repr

/-- The HDR group with a status and every field 0 (R27). -/
def HdrGroup.zero (st : ResultCode) : HdrGroup where
  status := st
  syncOk := false
  word := 0

/-- The AF group with a status and every field 0 (R28). -/
def AfGroup.zero (st : ResultCode) : AfGroup where
  status := st
  length := 0
  flags := 0
  pcrBase := 0
  pcrExt := 0
  pcrTime := 0
  opcrBase := 0
  opcrExt := 0
  opcrTime := 0
  spliceCd := 0
  privLen := 0
  extLen := 0
  stuffing := 0
  consumed := 0

/-- The PESH group with a status and every field 0 (R29). -/
def PeshGroup.zero (st : ResultCode) : PeshGroup where
  status := st
  startCode := 0
  startOk := false
  streamId := 0
  pktLen := 0
  flags1 := 0
  flags2 := 0
  hdrDataLen := 0
  ptsF := false
  dtsF := false
  pts := 0
  dts := 0
  headerLength := 0

/-- `LAST_RESULT` (10_state.md R41): a code and its `NTC`. -/
structure LastResult where
  code : ResultCode
  ntc : Bool
deriving DecidableEq, Repr

/-- The registers of one assembler instance `INST[i]` (10_state.md R31-R42). -/
structure Assembler where
  /-- `ACTIVE` (R42). -/
  active : Bool
  /-- `PID` (R32). -/
  pid : Pid
  /-- `BUF` (R33): the cells written since the last Start, ASM_INIT, ASM_RELEASE or reset. -/
  buf : Memory
  /-- `CAP` (R34). -/
  cap : Word
  /-- `WOFF` (R35). -/
  woff : Word
  /-- `LAST_CC` (R36): `none` is -1, "none yet". -/
  lastCc : Option (BitVec 4)
  /-- `STARTED` (R37). -/
  started : Bool
  /-- `CUR_HL` (R38). -/
  curHl : BitVec 9
  /-- `PREV_HL` (R38). -/
  prevHl : BitVec 9
  /-- `PREV_DL`, two's complement (R38). -/
  prevDl : Word
  /-- `CUR_PL` (R39). -/
  curPl : BitVec 16
  /-- `OVERRUN` (R40). -/
  overrun : Bool
  /-- `LAST_RESULT` (R41). -/
  lastResult : LastResult
deriving DecidableEq, Repr

/-- The reset values of an instance (10_state.md R47). -/
def Assembler.reset : Assembler where
  active := false
  pid := 0
  buf := []
  cap := 0
  woff := 0
  lastCc := none
  started := false
  curHl := 0
  prevHl := 0
  prevDl := 0
  curPl := 0
  overrun := false
  lastResult := ⟨.notRun, false⟩

/-- The width of a host access (20_memory.md R63). -/
inductive Width where
  | byte
  | half
  | word
deriving DecidableEq, Repr

/-- One access of the host to the block (20_memory.md R72, R75): a read or write on the register port, or the reset
input (70_reset_and_hazards.md R300). A write narrower than a word uses the low bits of its data. -/
inductive HostAccess where
  | read (width : Width) (addr : Nat)
  | write (width : Width) (addr : Nat) (data : Word)
  | reset
deriving DecidableEq, Repr

/-- The block has no fault: no command traps (60_exceptions.md R270) and no host access can fault (20_memory.md
R72). So nothing raises one. -/
inductive Fault where
deriving DecidableEq, Repr

/-- Why the model gives a step no meaning. -/
inductive Refusal where
  /-- An instruction without a meaning yet, by its mnemonic. Raised by an arm of `exec` only; safe. -/
  | notModelled (mnemonic : String)
  /-- `refuse(WOFF_OVERFLOW)`: an append that would make `WOFF` reach `WOFF_LIMIT` (43_pes_assembler.md R217, R223;
  44_packet_process.md R256). Raised by ASM_ABSORB and PKT_PROCESS; safe. -/
  | woffOverflow
  /-- A step of a state whose `REFUSED` mark is set (10_state.md R44, 60_exceptions.md R282): the run has no meaning
  any more. Raised by `step`; safe. -/
  | markedRefused
deriving DecidableEq, Repr

/-- The state of the block (10_state.md R20), its output streams (R43) and, last, the model's own fields. -/
structure State where
  /-- `CFG` and `CFG_CAPU` (R45): constant. -/
  params : Params
  /-- `PKT` (R23). -/
  pkt : Packet
  /-- `PKT_LEN` (R24). -/
  pktLen : Byte
  /-- `RESULT` (R26). -/
  result : Result
  /-- HDR group (R27). -/
  hdr : HdrGroup
  /-- AF group (R28). -/
  af : AfGroup
  /-- PESH group (R29). -/
  pesh : PeshGroup
  /-- `INST[i]` (R31), for every index the `INST` field can name; the ones at or above `N_ASM` do not exist and are
  never touched (log entry 6). -/
  insts : Vector Assembler 16
  /-- `SINK[i]` (R43): the bulk writes, oldest first. -/
  sinks : Vector (List (List Byte)) 16
  /-- `REFUSED` (R44). -/
  refused : Bool
  /-- Model's own: how many draws have been made (log entry 3). -/
  draws : Nat
  /-- Model's own: the host accesses still to come, oldest first (log entry 2). -/
  pending : List HostAccess
  /-- Model's own: what the last host read returned (log entry 5). -/
  readData : Word
deriving DecidableEq, Repr

/-- `RESULT` after reset, `0x00001F0C` (R26). -/
def Result.reset : Result := ⟨.notRun, false, false, none⟩

/-- The state after reset of a block with parameters `p` (R47). The sinks and `REFUSED`, which reset leaves as they
are, are empty and clear (log entry 8). -/
def State.resetWith (p : Params) : State where
  params := p
  pkt := ⟨[], 0⟩
  pktLen := 0
  result := .reset
  hdr := .zero .notRun
  af := .zero .notRun
  pesh := .zero .notRun
  insts := .replicate 16 .reset
  sinks := .replicate 16 []
  refused := false
  draws := 188
  pending := []
  readData := 0

/-- The state after reset, with the parameters of log entry 1. -/
def State.reset : State := State.resetWith Params.ofVectors

end Sys2Proof.Machine
end

