-- ==== Sys2Proof/Machine/Ops.lean ====
section
/-! DEFINITION. The shared operations over storage, results, instances and sinks: 00_scope.md R8's primitives. -/

namespace Sys2Proof.Machine

/-! ### Byte storage -/

/-- The byte at an offset, `none` where nothing has been written. -/
def Memory.read? : Memory → Nat → Option Byte
  | [], _ => none
  | (a, b) :: m, k => if a = k then some b else Memory.read? m k

/-- The cells of a run of bytes from an offset on. -/
def cellsFrom : Nat → List Byte → Memory
  | _, [] => []
  | off, b :: bs => (off, b) :: cellsFrom (off + 1) bs

/-- `BufWrite`'s storage effect: byte `k` of the run goes to `off + k`, everything else stays (20_memory.md R65). -/
def Memory.writeRun (m : Memory) (off : Nat) (bs : List Byte) : Memory :=
  m.filter (fun c => decide (c.1 < off)) ++ cellsFrom off bs ++
    m.filter (fun c => decide (off + bs.length ≤ c.1))

/-- A write of one byte. -/
def Memory.write (m : Memory) (off : Nat) (b : Byte) : Memory :=
  m.writeRun off [b]

/-- The canonical form of byte storage: offsets strictly rising, so no offset twice. -/
abbrev Memory.wf (m : Memory) : Prop :=
  m.Pairwise fun c d => c.1 < d.1

/-- Every listed offset is below a bound. -/
abbrev Memory.below (m : Memory) (bound : Nat) : Prop :=
  ∀ c ∈ m, c.1 < bound

/-! ### Result codes as the host reads them -/

/-- The 4-bit code of 30_encoding.md R96. -/
def ResultCode.bits : ResultCode → BitVec 4
  | .ok => 0x0
  | .truncatedInput => 0x1
  | .malformedField => 0x2
  | .unexpectedPid => 0x3
  | .streamPacketLost => 0x4
  | .assemblingStarted => 0x5
  | .assemblingContinue => 0x6
  | .assemblingFinished => 0x7
  | .assemblingFinishedAndStarted => 0x8
  | .illegalCommand => 0x9
  | .invalidSync => 0xA
  | .notPresent => 0xB
  | .notRun => 0xC

/-- `RESULT.INST`: the index, or `0x1F` when there is none (10_state.md R26). -/
def instBits : Option InstId → BitVec 5
  | none => 0x1F
  | some i => BitVec.ofNat 5 i.val

/-- `RESULT` as a word: `CODE [3:0]`, `NTC [4]`, `FLUSHED [5]`, `INST [12:8]`, the rest 0 (R26). -/
def Result.word (r : Result) : Word :=
  (0 : BitVec 19) ++ instBits r.inst ++ (0 : BitVec 2) ++ BitVec.ofBool r.flushed ++ BitVec.ofBool r.ntc ++
    r.code.bits

/-- `LAST_RESULT` as 5 bits: `NTC` above the code (10_state.md R41). -/
def LastResult.bits (r : LastResult) : BitVec 5 :=
  BitVec.ofBool r.ntc ++ r.code.bits

/-- `LAST_CC` as 5-bit two's complement: `0x1F` for -1 (10_state.md R36). -/
def lastCcBits : Option (BitVec 4) → BitVec 5
  | none => 0x1F
  | some c => (0 : BitVec 1) ++ c

/-! ### Instances, sinks and `RESULT` -/

/-- `INST[i]`. -/
def State.inst (s : State) (i : InstId) : Assembler :=
  s.insts.get i

/-- Writes all registers of `INST[i]`. -/
def State.setInst (s : State) (i : InstId) (a : Assembler) : State :=
  { s with insts := s.insts.set i.val a i.isLt }

/-- `SINK[i]`. -/
def State.sink (s : State) (i : InstId) : List (List Byte) :=
  s.sinks.get i

/-- `SinkWrite(i, bytes)` (20_memory.md R66): one bulk write at the end of `SINK[i]`. A flush of no bytes makes no
write (43_pes_assembler.md R218). -/
def State.sinkWrite (s : State) (i : InstId) (bytes : List Byte) : State :=
  match bytes with
  | [] => s
  | _ :: _ => { s with sinks := s.sinks.set i.val (s.sink i ++ [bytes]) i.isLt }

/-- Writes `RESULT`. -/
def State.setResult (s : State) (code : ResultCode) (ntc flushed : Bool) (inst : Option InstId) : State :=
  { s with result := ⟨code, ntc, flushed, inst⟩ }

/-- `raise ILLEGAL_COMMAND(info)` (00_scope.md R8, 60_exceptions.md R274): `RESULT` and nothing else. This is the
block's only way to turn a command away, and there is no return from it (60_exceptions.md R270, R277). -/
def State.raiseIllegal (s : State) (info : Option InstId) : State :=
  s.setResult .illegalCommand false false info

/-- `PKT_LEN > 188` (60_exceptions.md R274): a command that reads the packet is then illegal. -/
def State.packetTooLong (s : State) : Bool :=
  decide (Config.tsPacketLen < s.pktLen.toNat)

/-- `INST < N_ASM` (60_exceptions.md R274). -/
def State.hasInst (s : State) (i : InstId) : Bool :=
  decide (i.val < s.params.nAsm)

end Sys2Proof.Machine
end

