-- ==== Sys2Proof/Machine/Operands.lean ====
section
/-! DEFINITION. Operands: bytes and big-endian fields of the packet, and the bit fields of the decoded data formats
(30_encoding.md R84-R95). -/

namespace Sys2Proof.Machine

/-! ### Packet bytes -/

/-- `PKT[k]`: the byte the host wrote, or the draw that stands for it since reset (20_memory.md R64). -/
def Packet.byte (p : Packet) (k : Nat) : Byte :=
  (p.cells.read? k).getD (Config.freeByte (p.epoch + k))

/-- `BE(PKT, off, n)` (00_scope.md R7): the byte at the lower offset is the more significant one. -/
def Packet.be (p : Packet) (off : Nat) : Nat → Nat
  | 0 => 0
  | n + 1 => p.be off n * 256 + (p.byte (off + n)).toNat

/-- `MemRead(off, n)` as a field of `w` bits (20_memory.md R64); `w` is `8 * n` at every use. -/
def Packet.field (p : Packet) (off n w : Nat) : BitVec w :=
  BitVec.ofNat w (p.be off n)

/-- The bytes `PKT[off .. off+n-1]` in order. -/
def Packet.bytes (p : Packet) (off n : Nat) : List Byte :=
  (List.range n).map fun k => p.byte (off + k)

/-! ### TS header fields, views of `HDR_WORD` (30_encoding.md R84, 10_state.md R27) -/

/-- `H_SYNC`, bits 31:24. -/
def hdrSync (w : Word) : Byte := w.extractLsb' 24 8

/-- `H_TEI`, bit 23. -/
def hdrTei (w : Word) : Bool := w.getLsbD 23

/-- `H_PUSI`, bit 22. -/
def hdrPusi (w : Word) : Bool := w.getLsbD 22

/-- `H_TP`, bit 21. -/
def hdrTp (w : Word) : Bool := w.getLsbD 21

/-- `H_PID`, bits 20:8. -/
def hdrPid (w : Word) : Pid := w.extractLsb' 8 13

/-- `H_TSC`, bits 7:6. -/
def hdrTsc (w : Word) : BitVec 2 := w.extractLsb' 6 2

/-- `H_AFC`, bits 5:4. -/
def hdrAfc (w : Word) : BitVec 2 := w.extractLsb' 4 2

/-- `H_CC`, bits 3:0. -/
def hdrCc (w : Word) : BitVec 4 := w.extractLsb' 0 4

/-- The eight fields packed back in R84's positions (40_ts_header.md R124). -/
def packHdr (sync : Byte) (tei pusi tp : Bool) (pid : Pid) (tsc afc : BitVec 2) (cc : BitVec 4) : Word :=
  sync ++ BitVec.ofBool tei ++ BitVec.ofBool pusi ++ BitVec.ofBool tp ++ pid ++ tsc ++ afc ++ cc

/-- `adaptation_field_control` as AF_DECODE reads it, `PKT[3][5:4]` (41_adaptation_field.md R141). -/
def Packet.afc (p : Packet) : BitVec 2 := (p.byte 3).extractLsb' 4 2

/-! ### Clock references and timestamps -/

/-- A clock reference's base, bits 47:15 (30_encoding.md R89). -/
def clockBase (v : BitVec 48) : BitVec 33 := v.extractLsb' 15 33

/-- A clock reference's extension, bits 8:0 (R89). -/
def clockExt (v : BitVec 48) : BitVec 9 := v.extractLsb' 0 9

/-- `time = base * 300 + extension`, exact in 42 bits (30_encoding.md R90). -/
def clockTime (base : BitVec 33) (ext : BitVec 9) : BitVec 42 :=
  BitVec.ofNat 42 (base.toNat * 300 + ext.toNat)

/-- `ts33`: `U[35:33] || U[31:17] || U[15:1]` of the 40-bit field (30_encoding.md R95, 42_pes_header.md R175). -/
def ts33 (u : BitVec 40) : BitVec 33 :=
  u.extractLsb' 33 3 ++ u.extractLsb' 17 15 ++ u.extractLsb' 1 15

/-! ### Payload location -/

/-- `off = 4 + (1 + AF_LENGTH when a field is present)` (30_encoding.md R101, 43_pes_assembler.md R210). -/
def payloadOffset (hasField : Bool) (afLength : Byte) : Nat :=
  if hasField then Config.tsHeaderLen + (1 + afLength.toNat) else Config.tsHeaderLen

/-- `size = 188 - off` when the packet has a payload, else 0 (R101, R210). -/
def payloadSize (hasPayload : Bool) (off : Nat) : Nat :=
  if hasPayload then Config.tsPacketLen - off else 0

end Sys2Proof.Machine
end

