-- ==== Sys2Proof/Machine/Flags.lean ====
section
/-! DEFINITION. The block's status bits and the conditions its rules test (10_state.md R46): it has no condition
codes. -/

namespace Sys2Proof.Machine

/-! ### Status bits -/

/-- `SYNC_OK`: the sync byte is 0x47 (10_state.md R27, 40_ts_header.md R120). -/
def syncOkOf (w : Word) : Bool := hdrSync w == Config.syncValue

/-- `START_OK`: the start code is 0x000001 (42_pes_header.md R171). -/
def startOkOf (code : BitVec 24) : Bool := code == 0x000001

/-- `PTS_F`, bit 7 of the second PES flags byte (42_pes_header.md R174). -/
def ptsFlag (flags2 : Byte) : Bool := flags2.getLsbD 7

/-- `DTS_F`, bit 6 of the second PES flags byte (R174). -/
def dtsFlag (flags2 : Byte) : Bool := flags2.getLsbD 6

/-! ### Adaptation-field flags (30_encoding.md R87) -/

/-- `AF_DI`, discontinuity_indicator. -/
def afDi (f : Byte) : Bool := f.getLsbD 7

/-- `AF_RAI`, random_access_indicator. -/
def afRai (f : Byte) : Bool := f.getLsbD 6

/-- `AF_ESPI`, elementary_stream_priority_indicator. -/
def afEspi (f : Byte) : Bool := f.getLsbD 5

/-- `AF_PCRF`, PCR_flag. -/
def afPcrf (f : Byte) : Bool := f.getLsbD 4

/-- `AF_OPCRF`, OPCR_flag. -/
def afOpcrf (f : Byte) : Bool := f.getLsbD 3

/-- `AF_SPF`, splicing_point_flag. -/
def afSpf (f : Byte) : Bool := f.getLsbD 2

/-- `AF_TPDF`, transport_private_data_flag. -/
def afTpdf (f : Byte) : Bool := f.getLsbD 1

/-- `AF_EXTF`, extension_flag. -/
def afExtf (f : Byte) : Bool := f.getLsbD 0

/-! ### Conditions -/

/-- An adaptation field is present iff `AFC[1] = 1` (30_encoding.md R85). -/
def afcHasField (afc : BitVec 2) : Bool := afc.getLsbD 1

/-- A payload is present iff `AFC[0] = 1` (R85). -/
def afcHasPayload (afc : BitVec 2) : Bool := afc.getLsbD 0

/-- The stream ids that carry no optional fields (30_encoding.md R92). -/
def exemptIds : List Byte := [0xBC, 0xBE, 0xBF, 0xF0, 0xF1, 0xF2, 0xF8, 0xFF]

/-- `STREAM_ID ∈ EXEMPT` (R92). -/
def isExempt (streamId : Byte) : Bool := exemptIds.contains streamId

/-- `cc_ok(last, cc)` (43_pes_assembler.md R208). With `LAST_CC = -1` the next counter is `(-1 + 1) mod 16 = 0`,
unless `CC_FIRST = ANY` accepts every first counter. -/
def ccOk (first : CcFirst) (last : Option (BitVec 4)) (cc : BitVec 4) : Bool :=
  match last with
  | none =>
    match first with
    | .literal => cc == 0
    | .any => true
  | some l => cc == l + 1

/-- The bounded append's test `WOFF + size <= CAP`; where it fails `OVERRUN` is set (43_pes_assembler.md R217). -/
def appendFits (a : Assembler) (size : Nat) : Bool :=
  decide (a.woff.toNat + size ≤ a.cap.toNat)

/-- The Continue step's completion test, `CUR_PL != 0 and WOFF == CAP` (43_pes_assembler.md R211, R215). -/
def isComplete (a : Assembler) : Bool :=
  a.curPl != 0 && a.woff == a.cap

end Sys2Proof.Machine
end

