-- ==== Sys2Proof/Machine/AdaptationField.lean ====
section
/-! DEFINITION. The adaptation field decoder and AF_DECODE (41_adaptation_field.md). -/

namespace Sys2Proof.Machine

/-- Where R141's decode stands inside the field: the next offset `p` and the group so far, `r`. -/
structure AfCursor where
  pos : Nat
  grp : AfGroup
deriving DecidableEq, Repr

/-- One optional sub-field of R141: skipped when its flag is 0; `MALFORMED_FIELD` (`none`) when its first `len` bytes
do not fit before `fin`, R141's `need(len)`; else read. -/
def afOptional (flag : Bool) (len fin : Nat) (c : AfCursor) (read : Option AfCursor) : Option AfCursor :=
  if flag then if c.pos + len ≤ fin then read else none else some c

/-- PCR: 6 bytes at the cursor (R141, R146; 30_encoding.md R89, R90). -/
def takePcr (p : Packet) (fin : Nat) (c : AfCursor) : Option AfCursor :=
  let v := p.field c.pos 6 48
  afOptional (afPcrf c.grp.flags) 6 fin c <|
    some ⟨c.pos + 6, { c.grp with
      pcrBase := clockBase v, pcrExt := clockExt v, pcrTime := clockTime (clockBase v) (clockExt v) }⟩

/-- OPCR: 6 bytes at the cursor (R141, R146, R147). -/
def takeOpcr (p : Packet) (fin : Nat) (c : AfCursor) : Option AfCursor :=
  let v := p.field c.pos 6 48
  afOptional (afOpcrf c.grp.flags) 6 fin c <|
    some ⟨c.pos + 6, { c.grp with
      opcrBase := clockBase v, opcrExt := clockExt v, opcrTime := clockTime (clockBase v) (clockExt v) }⟩

/-- Splice countdown: one raw byte (R141, R150). -/
def takeSplice (p : Packet) (fin : Nat) (c : AfCursor) : Option AfCursor :=
  afOptional (afSpf c.grp.flags) 1 fin c <|
    some ⟨c.pos + 1, { c.grp with spliceCd := p.byte c.pos }⟩

/-- Transport private data: a length byte and as many bytes, skipped (R141, R150). -/
def takePrivate (p : Packet) (fin : Nat) (c : AfCursor) : Option AfCursor :=
  let len := p.byte c.pos
  afOptional (afTpdf c.grp.flags) 1 fin c <|
    if c.pos + (1 + len.toNat) ≤ fin then some ⟨c.pos + (1 + len.toNat), { c.grp with privLen := len }⟩ else none

/-- Extension: a length byte and as many bytes, skipped (R141, R150). -/
def takeExtension (p : Packet) (fin : Nat) (c : AfCursor) : Option AfCursor :=
  let len := p.byte c.pos
  afOptional (afExtf c.grp.flags) 1 fin c <|
    if c.pos + (1 + len.toNat) ≤ fin then some ⟨c.pos + (1 + len.toNat), { c.grp with extLen := len }⟩ else none

/-- The flags byte at offset 5, where the decode of a field of length `len` begins (R141). It is absent when
`len = 0` (R151). -/
def takeFlags (p : Packet) (len : Byte) : Option AfCursor :=
  if 1 ≤ len.toNat then some ⟨6, { AfGroup.zero .ok with length := len, flags := p.byte 5 }⟩ else none

/-- The whole field: `none` is `MALFORMED_FIELD`; the bytes left before the field's end are the stuffing (R141, R144,
R145). -/
def afBody (p : Packet) (len : Byte) : Option AfGroup :=
  let fin := 5 + len.toNat
  ((((((takeFlags p len).bind (takePcr p fin)).bind (takeOpcr p fin)).bind (takeSplice p fin)).bind
    (takePrivate p fin)).bind (takeExtension p fin)).map fun c =>
      { c.grp with stuffing := BitVec.ofNat 8 (fin - c.pos), consumed := BitVec.ofNat 9 (len.toNat + 1) }

/-- `af_decode(n)` (R141): the adaptation-field decode of the first `n` packet bytes. -/
def afDecode (p : Packet) (n : Nat) : AfGroup :=
  if n < Config.tsHeaderLen then .zero .truncatedInput
  else if afcHasField p.afc = false then .zero .notPresent
  else if n < 5 then .zero .truncatedInput
  else if n < 5 + (p.byte 4).toNat then .zero .truncatedInput
  else (afBody p (p.byte 4)).getD (.zero .malformedField)

/-- `AF_DECODE` (R149). -/
def execAfDecode (s : State) : Host.Outcome State Fault Refusal :=
  if s.packetTooLong then .next (s.raiseIllegal none)
  else
    let g := afDecode s.pkt s.pktLen.toNat
    .next ({ s with af := g }.setResult g.status false false none)

end Sys2Proof.Machine
end

