-- ==== Sys2Proof/Machine/PesHeader.lean ====
section
/-! DEFINITION. The PES header decoder and PESH_DECODE (42_pes_header.md). -/

namespace Sys2Proof.Machine

/-- A flagged timestamp at header offset `q` of the `n` bytes from packet offset `st` on (R170, R174, R177): 0 when
its flag is 0, `none` (truncated) when its 5 bytes are not all there. -/
def timestamp (p : Packet) (st n : Nat) (flag : Bool) (q : Nat) : Option (BitVec 33) :=
  if flag then if n < q + 5 then none else some (ts33 (p.field (st + q) 5 40)) else some 0

/-- The header offset of DTS, `9 + 5·PTS_F` (R174, 30_encoding.md R94). -/
def dtsOffset (ptsF : Bool) : Nat := if ptsF then 14 else 9

/-- The 6-byte prefix every header has (R170, 30_encoding.md R91), as the whole group of an exempt stream id
(R172). -/
def pesPrefix (p : Packet) (st : Nat) : PeshGroup :=
  { PeshGroup.zero .ok with
    startCode := p.field st 3 24
    startOk := startOkOf (p.field st 3 24)
    streamId := p.byte (st + 3)
    pktLen := p.field (st + 4) 2 16
    headerLength := BitVec.ofNat 9 Config.pesPrefixLen }

/-- The header with optional fields (R170, R173, 30_encoding.md R93). -/
def pesOptional (p : Packet) (st : Nat) (pts dts : BitVec 33) : PeshGroup :=
  { pesPrefix p st with
    flags1 := p.byte (st + 6)
    flags2 := p.byte (st + 7)
    hdrDataLen := p.byte (st + 8)
    ptsF := ptsFlag (p.byte (st + 7))
    dtsF := dtsFlag (p.byte (st + 7))
    pts := pts
    dts := dts
    headerLength := BitVec.ofNat 9 (6 + 3 + (p.byte (st + 8)).toNat) }

/-- `pesh_decode(s, n)` (R170): the header at packet offset `st`, with `n` bytes available. The start code is
reported, not enforced (R171), and the fields are not cross-checked (R179). -/
def peshDecode (p : Packet) (st n : Nat) : PeshGroup :=
  if n < Config.pesPrefixLen then .zero .truncatedInput
  else if isExempt (p.byte (st + 3)) then pesPrefix p st
  else if n < 9 then .zero .truncatedInput
  else
    let flags2 := p.byte (st + 7)
    match timestamp p st n (ptsFlag flags2) 9 with
    | none => .zero .truncatedInput
    | some pts =>
      match timestamp p st n (dtsFlag flags2) (dtsOffset (ptsFlag flags2)) with
      | none => .zero .truncatedInput
      | some dts => pesOptional p st pts dts

/-- `PESH_DECODE` with its operand `OFS` (R178); `n = max(0, PKT_LEN - OFS)`. -/
def execPeshDecode (ofs : Byte) (s : State) : Host.Outcome State Fault Refusal :=
  if s.packetTooLong then .next (s.raiseIllegal none)
  else
    let g := peshDecode s.pkt ofs.toNat (s.pktLen.toNat - ofs.toNat)
    .next ({ s with pesh := g }.setResult g.status false false none)

end Sys2Proof.Machine
end

