-- ==== Sys2Proof/Machine/TsHeader.lean ====
section
/-! DEFINITION. The TS packet header decoder and TSH_DECODE (40_ts_header.md). -/

namespace Sys2Proof.Machine

/-- `tsh_decode(n)` (R120): the header decode of the first `n` packet bytes. It checks only that 4 bytes are there;
the sync byte is reported, not enforced (R122). -/
def tshDecode (p : Packet) (n : Nat) : HdrGroup :=
  if n < Config.tsHeaderLen then .zero .truncatedInput
  else
    let w := p.field 0 4 32
    { status := .ok, syncOk := syncOkOf w, word := w }

/-- `TSH_DECODE` (R121). -/
def execTshDecode (s : State) : Host.Outcome State Fault Refusal :=
  if s.packetTooLong then .next (s.raiseIllegal none)
  else
    let h := tshDecode s.pkt s.pktLen.toNat
    .next ({ s with hdr := h }.setResult h.status false false none)

end Sys2Proof.Machine
end

