-- ==== Sys2Proof/Machine/PesAssembler.lean ====
section
/-! DEFINITION. The PES assembler: the absorb step and its state machine, and ASM_INIT, ASM_ABSORB, ASM_RELEASE
(43_pes_assembler.md). -/

namespace Sys2Proof.Machine

/-! ### Buffer -/

/-- `BufRead(i, off)` with the draw it takes if it needs one (20_memory.md R65): an unwritten cell, or a cell at or
above `CAP`, reads as a free byte. -/
def Assembler.bufRead (a : Assembler) (off draw : Nat) : Byte :=
  if off < a.cap.toNat then (a.buf.read? off).getD (Config.freeByte draw) else Config.freeByte draw

/-- The bytes `flush(i, lo, hi)` sends, none when `hi <= lo` (R218). Each read has a draw number of its own, from
`draw` on. -/
def flushBytes (a : Assembler) (lo hi draw : Nat) : List Byte :=
  (List.range (hi - lo)).map fun k => a.bufRead (lo + k) (draw + k)

/-- `append(i, off, size)` (R217): all of the payload is stored or none of it, and `WOFF` advances either way.
`none` is `refuse(WOFF_OVERFLOW)` (R223). -/
def append (p : Packet) (off size : Nat) (a : Assembler) : Option Assembler :=
  if Config.woffLimit ≤ a.woff.toNat + size then none
  else
    let woff := BitVec.ofNat 32 (a.woff.toNat + size)
    if appendFits a size then some { a with buf := a.buf.writeRun a.woff.toNat (p.bytes off size), woff := woff }
    else some { a with overrun := true, woff := woff }

/-! ### The state machine -/

/-- What `start` answers: its result code, the PESH group it writes, and the instance. -/
structure StartOut where
  code : ResultCode
  pesh : PeshGroup
  asm : Assembler
deriving DecidableEq, Repr

/-- Start's buffer reset (R212). -/
def resetBuffer (a : Assembler) : Assembler :=
  { a with buf := [], woff := 0, overrun := false }

/-- The capacity Start gives a PES packet: `packet_length + 6`, or `CAP_UNBOUNDED` when the length is not declared
(R212). -/
def startCap (ps : Params) (pktLen : BitVec 16) : Word :=
  if pktLen = 0 then ps.capUnbounded else BitVec.ofNat 32 (pktLen.toNat + 6)

/-- `start_failed(i)` after the buffer reset (R213). -/
def startFailed (a : Assembler) : Assembler :=
  { a with started := false, cap := 0, curHl := 0, curPl := 0 }

/-- The registers Start's append finds: the buffer reset, and `CUR_HL`, `CUR_PL`, `CAP` from the header (R212). -/
def startBase (ps : Params) (g : PeshGroup) (a : Assembler) : Assembler :=
  { resetBuffer a with curHl := g.headerLength, curPl := g.pktLen, cap := startCap ps g.pktLen }

/-- `start(i, off, size)` (R212, R213). -/
def start (ps : Params) (p : Packet) (off size : Nat) (a : Assembler) : Option StartOut :=
  let g := peshDecode p off size
  if g.status = .ok then
    (append p off size (startBase ps g a)).map fun b => ⟨.assemblingStarted, g, { b with started := true }⟩
  else some ⟨.truncatedInput, g, startFailed (resetBuffer a)⟩

/-- What a branch of the state machine answers: code, `NTC`, `FLUSHED`, the PESH group, the instance, the bytes it
sends to the sink (none: no write) and the number of draws they may take. -/
structure StepOut where
  code : ResultCode
  ntc : Bool
  flushed : Bool
  pesh : PeshGroup
  asm : Assembler
  sink : List Byte
  drawn : Nat
deriving DecidableEq, Repr

/-- Start, PUSI = 1 and not started (R211, R212). -/
def stepStart (ps : Params) (p : Packet) (off size : Nat) (a : Assembler) : Option StepOut :=
  (start ps p off size a).map fun o => ⟨o.code, false, false, o.pesh, o.asm, [], 0⟩

/-- `PREV_HL + PREV_DL`, the end of the range Finish-then-Start flushes (R214); `PREV_DL` is signed (R38). -/
def finishEnd (a : Assembler) : Nat :=
  ((a.prevHl.toNat : Int) + a.prevDl.toInt).toNat

/-- Finish-then-Start's first two lines: `PREV_HL <- CUR_HL; PREV_DL <- WOFF - PREV_HL` (R214). -/
def notePrevious (a : Assembler) : Assembler :=
  { a with prevHl := a.curHl, prevDl := BitVec.ofInt 32 ((a.woff.toNat : Int) - (a.curHl.toNat : Int)) }

/-- Finish-then-Start, PUSI = 1 and started (R214): the old packet is flushed, then Start runs on a fresh buffer. -/
def stepFinishStart (ps : Params) (p : Packet) (off size draw : Nat) (a : Assembler) : Option StepOut :=
  let b := notePrevious a
  (start ps p off size b).map fun o =>
    { code := if o.code = .assemblingStarted then .assemblingFinishedAndStarted else o.code
      ntc := false
      flushed := true
      pesh := o.pesh
      asm := o.asm
      sink := flushBytes b b.prevHl.toNat (finishEnd b) draw
      drawn := finishEnd b - b.prevHl.toNat }

/-- Continue, PUSI = 0 and started (R215): append, then flush when a bounded packet is exactly full. -/
def stepContinue (p : Packet) (off size draw : Nat) (a : Assembler) : Option StepOut :=
  (append p off size a).map fun b =>
    if isComplete b then
      { code := .assemblingFinished
        ntc := false
        flushed := true
        pesh := .zero .notRun
        asm := { b with started := false }
        sink := flushBytes b b.curHl.toNat b.woff.toNat draw
        drawn := b.woff.toNat - b.curHl.toNat }
    else ⟨.assemblingContinue, false, false, .zero .notRun, b, [], 0⟩

/-- Nothing to continue, PUSI = 0 and not started (R216). -/
def stepNothing (a : Assembler) : StepOut :=
  ⟨.unexpectedPid, true, false, .zero .notRun, a, [], 0⟩

/-- R211's dispatch on `(H_PUSI, STARTED)`. -/
def stateMachine (ps : Params) (p : Packet) (pusi : Bool) (off size draw : Nat) (a : Assembler) : Option StepOut :=
  match pusi, a.started with
  | true, false => stepStart ps p off size a
  | true, true => stepFinishStart ps p off size draw a
  | false, true => stepContinue p off size draw a
  | false, false => some (stepNothing a)

/-! ### The absorb step -/

/-- What an absorb step answers (R204): its result, the three groups it writes, its instance, the bytes for its sink
(none: no write) and how many draws it took. -/
structure AbsorbOut where
  code : ResultCode
  ntc : Bool
  flushed : Bool
  hdr : HdrGroup
  af : AfGroup
  pesh : PeshGroup
  asm : Assembler
  sink : List Byte
  drawn : Nat
deriving DecidableEq, Repr

/-- An absorb step that ends before the PID check passes (R205): the instance is as it was. -/
def absorbTurnedAway (code : ResultCode) (h : HdrGroup) (a : Assembler) : AbsorbOut :=
  ⟨code, false, false, h, .zero .notRun, .zero .notRun, a, [], 0⟩

/-- An absorb step that ends after the PID check and before the state machine (R206-R208): `LAST_RESULT` is written,
and what the caller has changed in the instance. -/
def absorbEnded (code : ResultCode) (h : HdrGroup) (af : AfGroup) (a : Assembler) : AbsorbOut :=
  ⟨code, false, false, h, af, .zero .notRun, { a with lastResult := ⟨code, false⟩ }, [], 0⟩

/-- An absorb step that went through the state machine (R204): `LAST_RESULT` is written. -/
def absorbStepped (h : HdrGroup) (af : AfGroup) (o : StepOut) : AbsorbOut :=
  { code := o.code
    ntc := o.ntc
    flushed := o.flushed
    hdr := h
    af := af
    pesh := o.pesh
    asm := { o.asm with lastResult := ⟨o.code, o.ntc⟩ }
    sink := o.sink
    drawn := o.drawn }

/-- The AF group an absorb step writes once the packet is known to be whole (R207). -/
def absorbAf (p : Packet) (w : Word) : AfGroup :=
  if afcHasField (hdrAfc w) then afDecode p Config.tsPacketLen else .zero .notRun

/-- What a continuity mismatch leaves in the instance (R208). -/
def noteLoss (ps : Params) (cc : BitVec 4) (a : Assembler) : Assembler :=
  if ps.ccAdvanceOnLoss then { a with lastCc := some cc } else a

/-- `absorb(i)` (R204) on the registers `a` of the instance, for `n` packet bytes and the next draw number `draw`.
The order of its tests is 60_exceptions.md R273's. `none` is a refusal (R223). -/
def absorb (ps : Params) (p : Packet) (n draw : Nat) (a : Assembler) : Option AbsorbOut :=
  let h := tshDecode p n
  let w := h.word
  if h.status ≠ .ok then some (absorbTurnedAway .truncatedInput h a)
  else if hdrPid w ≠ a.pid then some (absorbTurnedAway .unexpectedPid h a)
  else if n < Config.tsPacketLen then some (absorbEnded .truncatedInput h (.zero .notRun) a)
  else
    let af := absorbAf p w
    let off := payloadOffset (afcHasField (hdrAfc w)) af.length
    if afcHasField (hdrAfc w) = true ∧ af.status ≠ .ok then some (absorbEnded af.status h af a)
    else if ccOk ps.ccFirst a.lastCc (hdrCc w) = false then
      some (absorbEnded .streamPacketLost h af (noteLoss ps (hdrCc w) a))
    else
      (stateMachine ps p (hdrPusi w) off (payloadSize (afcHasPayload (hdrAfc w)) off) draw
        { a with lastCc := some (hdrCc w) }).map (absorbStepped h af)

/-- The absorb step of instance `i` in a state. -/
def State.absorb (s : State) (i : InstId) : Option AbsorbOut :=
  Machine.absorb s.params s.pkt s.pktLen.toNat s.draws (s.inst i)

/-- Writes the three result groups of an absorb step (R204). -/
def State.setGroups (s : State) (o : AbsorbOut) : State :=
  { s with hdr := o.hdr, af := o.af, pesh := o.pesh }

/-- Writes what an absorb step of instance `i` changes outside the result registers: its instance, its sink and the
count of draws (R220). -/
def State.commit (s : State) (i : InstId) (o : AbsorbOut) : State :=
  let t := (s.setInst i o.asm).sinkWrite i o.sink
  { t with draws := s.draws + o.drawn }

/-! ### Commands -/

/-- The registers ASM_INIT gives an instance (R201). -/
def Assembler.init (pid : Pid) : Assembler :=
  { Assembler.reset with active := true, pid := pid }

/-- `ASM_INIT` (R201). A PES packet in progress is discarded without a flush. -/
def execAsmInit (i : InstId) (pid : Pid) (s : State) : Host.Outcome State Fault Refusal :=
  if s.hasInst i = false then .next (s.raiseIllegal (some i))
  else .next ((s.setInst i (.init pid)).setResult .ok false false (some i))

/-- `ASM_ABSORB` (R203), with R274's checks in their order. -/
def execAsmAbsorb (i : InstId) (s : State) : Host.Outcome State Fault Refusal :=
  if s.packetTooLong then .next (s.raiseIllegal none)
  else if s.hasInst i = false then .next (s.raiseIllegal (some i))
  else if (s.inst i).active = false then .next (s.raiseIllegal (some i))
  else
    match s.absorb i with
    | none => .refused .woffOverflow
    | some o => .next (((s.commit i o).setGroups o).setResult o.code o.ntc o.flushed (some i))

/-- `ASM_RELEASE` (R202): the instance's reset values, no flush. -/
def execAsmRelease (i : InstId) (s : State) : Host.Outcome State Fault Refusal :=
  if s.hasInst i = false then .next (s.raiseIllegal (some i))
  else if (s.inst i).active = false then .next (s.raiseIllegal (some i))
  else .next ((s.setInst i .reset).setResult .ok false false (some i))

end Sys2Proof.Machine
end

