-- ==== Sys2Proof/Machine/PacketProcess.lean ====
section
/-! DEFINITION. Whole-packet processing, PKT_PROCESS (44_packet_process.md). -/

namespace Sys2Proof.Machine

/-- `M`, the active instances tracking a PID, in ascending index order (R250, R252). -/
def State.matching (s : State) (pid : Pid) : List InstId :=
  (List.finRange 16).filter fun i => s.hasInst i && (s.inst i).active && (s.inst i).pid == pid

/-- The absorb steps of the instances in a list, one after the other, without the result groups (R252). `none` when
one of them refuses (R256). -/
def State.absorbEach (s : State) : List InstId → Option State
  | [] => some s
  | i :: is =>
    match s.absorb i with
    | none => none
    | some o => (s.commit i o).absorbEach is

/-- A PKT_PROCESS that ends before any absorb step: the HDR group `h`, AF and PESH not run, no instance (R250). -/
def State.packetDropped (s : State) (h : HdrGroup) (code : ResultCode) : State :=
  { s with hdr := h, af := .zero .notRun, pesh := .zero .notRun }.setResult code false false none

/-- `PKT_PROCESS` (R250). With several matches `RESULT` and the groups are those of the lowest index (R254). -/
def execPktProcess (s : State) : Host.Outcome State Fault Refusal :=
  if s.packetTooLong then .next (s.raiseIllegal none)
  else
    let h := tshDecode s.pkt s.pktLen.toNat
    if h.status ≠ .ok then .next (s.packetDropped h .truncatedInput)
    else if h.syncOk = false then .next (s.packetDropped h .invalidSync)
    else
      match s.matching (hdrPid h.word) with
      | [] => .next (s.packetDropped h .unexpectedPid)
      | j :: rest =>
        match s.absorb j with
        | none => .refused .woffOverflow
        | some o =>
          match (s.commit j o).absorbEach rest with
          | none => .refused .woffOverflow
          | some t => .next ((t.setGroups o).setResult o.code o.ntc o.flushed (some j))

end Sys2Proof.Machine
end

