-- ==== Sys2Proof/Machine/Dispatch.lean ====
section
/-! DEFINITION. One arm for each command of 30_encoding.md R81: what it does once it is decoded. -/

namespace Sys2Proof.Machine

def exec (i : Instr) (s : State) : Host.Outcome State Fault Refusal :=
  match i with
  | .tshDecode => Sys2Proof.Machine.execTshDecode s
  | .afDecode => Sys2Proof.Machine.execAfDecode s
  | .peshDecode ofs => Sys2Proof.Machine.execPeshDecode ofs s
  | .asmInit inst pid => Sys2Proof.Machine.execAsmInit inst pid s
  | .asmAbsorb inst => Sys2Proof.Machine.execAsmAbsorb inst s
  | .asmRelease inst => Sys2Proof.Machine.execAsmRelease inst s
  | .pktProcess => Sys2Proof.Machine.execPktProcess s

end Sys2Proof.Machine
end

