-- ==== Sys2Proof/Machine/HostPort.lean ====
section
/-! DEFINITION. The host register port and the reset input: the register map (20_memory.md R71), the access rules
(R63, R72) and reset (70_reset_and_hazards.md R300). -/

namespace Sys2Proof.Machine

/-- The registers of one instance block (R71). -/
inductive InstReg where
  | ctrl
  | lastCc
  | cap
  | woff
  | hl
  | phl
  | pdl
  | lres
deriving DecidableEq, Repr

/-- The word registers of R71's map, by name. `CMD` is listed apart, being write only. -/
inductive HostReg where
  | result
  | pktLen
  | cfg
  | cfgCapu
  | hdrWord
  | hdrStat
  | afStat
  | afInfo
  | afLens
  | pcrBaseLo
  | pcrBaseHi
  | pcrTimeLo
  | pcrTimeHi
  | opcrBaseLo
  | opcrBaseHi
  | opcrTimeLo
  | opcrTimeHi
  | peshStat
  | peshId
  | peshLen
  | peshFlags
  | ptsLo
  | ptsHi
  | dtsLo
  | dtsHi
  | inst (i : InstId) (r : InstReg)
deriving DecidableEq, Repr

/-- `CMD`'s address (R71). -/
abbrev cmdAddr : Nat := 0x000

/-- `PKT_LEN`'s address (R71). -/
abbrev pktLenAddr : Nat := 0x008

/-- The address of `PKT[0]` (R71). -/
abbrev pktBase : Nat := 0x100

/-- The offset of a register in its instance block (R71). -/
def InstReg.offset : InstReg → Nat
  | .ctrl => 0x00
  | .lastCc => 0x04
  | .cap => 0x08
  | .woff => 0x0C
  | .hl => 0x10
  | .phl => 0x14
  | .pdl => 0x18
  | .lres => 0x1C

/-- The address of a word register (R71). -/
def HostReg.addr : HostReg → Nat
  | .result => 0x004
  | .pktLen => pktLenAddr
  | .cfg => 0x00C
  | .cfgCapu => 0x010
  | .hdrWord => 0x020
  | .hdrStat => 0x024
  | .afStat => 0x040
  | .afInfo => 0x044
  | .afLens => 0x048
  | .pcrBaseLo => 0x04C
  | .pcrBaseHi => 0x050
  | .pcrTimeLo => 0x054
  | .pcrTimeHi => 0x058
  | .opcrBaseLo => 0x05C
  | .opcrBaseHi => 0x060
  | .opcrTimeLo => 0x064
  | .opcrTimeHi => 0x068
  | .peshStat => 0x080
  | .peshId => 0x084
  | .peshLen => 0x088
  | .peshFlags => 0x08C
  | .ptsLo => 0x090
  | .ptsHi => 0x094
  | .dtsLo => 0x098
  | .dtsHi => 0x09C
  | .inst i r => 0x400 + 0x40 * i.val + r.offset

/-- The registers of an instance block in address order. -/
def instRegs : List InstReg :=
  [.ctrl, .lastCc, .cap, .woff, .hl, .phl, .pdl, .lres]

/-- All word registers the map can hold, in address order; those of instances at or above `N_ASM` read 0 (R71). -/
def hostRegs : List HostReg :=
  [.result, .pktLen, .cfg, .cfgCapu, .hdrWord, .hdrStat, .afStat, .afInfo, .afLens, .pcrBaseLo, .pcrBaseHi,
    .pcrTimeLo, .pcrTimeHi, .opcrBaseLo, .opcrBaseHi, .opcrTimeLo, .opcrTimeHi] ++
  [.peshStat, .peshId, .peshLen, .peshFlags, .ptsLo, .ptsHi, .dtsLo, .dtsHi] ++
  (List.finRange 16).flatMap fun i => instRegs.map (HostReg.inst i)

/-- `CFG` (10_state.md R45): `N_ASM [4:0]`, `CC_FIRST [8]`, `CC_ADVANCE_ON_LOSS [9]`. -/
def cfgWord (p : Params) : Word :=
  (0 : BitVec 22) ++ BitVec.ofBool p.ccAdvanceOnLoss ++ BitVec.ofBool (p.ccFirst == .any) ++ (0 : BitVec 3) ++
    BitVec.ofNat 5 p.nAsm

/-- A clock's `_BASE_HI` word: `[0]` base bit 32, `[24:16]` the extension (R71). -/
def baseHiWord (base : BitVec 33) (ext : BitVec 9) : Word :=
  (0 : BitVec 7) ++ ext ++ (0 : BitVec 15) ++ base.extractLsb' 32 1

/-- The content of a register of an instance block (R71). -/
def InstReg.word (r : InstReg) (a : Assembler) : Word :=
  match r with
  | .ctrl => (0 : BitVec 11) ++ a.pid ++ (0 : BitVec 5) ++ BitVec.ofBool a.overrun ++ BitVec.ofBool a.started ++
      BitVec.ofBool a.active
  | .lastCc => (0 : BitVec 27) ++ lastCcBits a.lastCc
  | .cap => a.cap
  | .woff => a.woff
  | .hl => a.curPl ++ (0 : BitVec 7) ++ a.curHl
  | .phl => (0 : BitVec 23) ++ a.prevHl
  | .pdl => a.prevDl
  | .lres => (0 : BitVec 27) ++ a.lastResult.bits

/-- The content of a word register; bits R71 does not list read 0, and so does a register of an instance at or above
`N_ASM`. -/
def HostReg.word (r : HostReg) (s : State) : Word :=
  match r with
  | .result => s.result.word
  | .pktLen => (0 : BitVec 24) ++ s.pktLen
  | .cfg => cfgWord s.params
  | .cfgCapu => s.params.capUnbounded
  | .hdrWord => s.hdr.word
  | .hdrStat => (0 : BitVec 27) ++ BitVec.ofBool s.hdr.syncOk ++ s.hdr.status.bits
  | .afStat => (0 : BitVec 28) ++ s.af.status.bits
  | .afInfo => s.af.spliceCd ++ s.af.stuffing ++ s.af.flags ++ s.af.length
  | .afLens => (0 : BitVec 7) ++ s.af.consumed ++ s.af.extLen ++ s.af.privLen
  | .pcrBaseLo => s.af.pcrBase.extractLsb' 0 32
  | .pcrBaseHi => baseHiWord s.af.pcrBase s.af.pcrExt
  | .pcrTimeLo => s.af.pcrTime.extractLsb' 0 32
  | .pcrTimeHi => (0 : BitVec 22) ++ s.af.pcrTime.extractLsb' 32 10
  | .opcrBaseLo => s.af.opcrBase.extractLsb' 0 32
  | .opcrBaseHi => baseHiWord s.af.opcrBase s.af.opcrExt
  | .opcrTimeLo => s.af.opcrTime.extractLsb' 0 32
  | .opcrTimeHi => (0 : BitVec 22) ++ s.af.opcrTime.extractLsb' 32 10
  | .peshStat => (0 : BitVec 25) ++ BitVec.ofBool s.pesh.dtsF ++ BitVec.ofBool s.pesh.ptsF ++
      BitVec.ofBool s.pesh.startOk ++ s.pesh.status.bits
  | .peshId => s.pesh.streamId ++ s.pesh.startCode
  | .peshLen => (0 : BitVec 7) ++ s.pesh.headerLength ++ s.pesh.pktLen
  | .peshFlags => (0 : BitVec 8) ++ s.pesh.hdrDataLen ++ s.pesh.flags2 ++ s.pesh.flags1
  | .ptsLo => s.pesh.pts.extractLsb' 0 32
  | .ptsHi => (0 : BitVec 31) ++ s.pesh.pts.extractLsb' 32 1
  | .dtsLo => s.pesh.dts.extractLsb' 0 32
  | .dtsHi => (0 : BitVec 31) ++ s.pesh.dts.extractLsb' 32 1
  | .inst i r => if s.hasInst i then r.word (s.inst i) else 0

/-- The register at a word address, if there is one (R71). -/
def hostRegAt (addr : Nat) : Option HostReg :=
  hostRegs.find? fun r => r.addr == addr

/-- Whether an address is that of a packet byte, `0x100 + k` with `k < 188` (R71). -/
def isPktAddr (addr : Nat) : Bool :=
  decide (pktBase ≤ addr) && decide (addr < pktBase + Config.tsPacketLen)

/-- What a host read returns (R63, R72): the register at a word address, `PKT[k]` for a byte access, 0 for any other
access. `CMD` reads 0 (10_state.md R25). -/
def State.hostRead (s : State) (width : Width) (addr : Nat) : Word :=
  match width with
  | .word =>
    match hostRegAt addr with
    | some r => r.word s
    | none => 0
  | .byte => if isPktAddr addr then (0 : BitVec 24) ++ s.pkt.byte (addr - pktBase) else 0
  | .half => 0

/-- A host write of `PKT[k]` (10_state.md R23). -/
def State.writePkt (s : State) (k : Nat) (b : Byte) : State :=
  { s with pkt := { s.pkt with cells := s.pkt.cells.write k b } }

/-- A host write other than of `CMD` (R63, R72): it changes `PKT_LEN` (bits 7:0) or a packet byte, and is ignored
anywhere else. -/
def State.hostStore (s : State) (width : Width) (addr : Nat) (data : Word) : State :=
  match width with
  | .word => if addr = pktLenAddr then { s with pktLen := data.extractLsb' 0 8 } else s
  | .byte => if isPktAddr addr then s.writePkt (addr - pktBase) (data.extractLsb' 0 8) else s
  | .half => s

/-- A command word issued to the block (30_encoding.md R83, R82 cases 1 and 2): an illegal word writes `RESULT`
only. -/
def issue (w : Word) (s : State) : Host.Outcome State Fault Refusal :=
  match decode w with
  | .error _ => .next (s.raiseIllegal none)
  | .ok c => exec c s

/-- Reset (70_reset_and_hazards.md R300): R47's values, except that the sinks, `REFUSED` and the parameters keep
theirs. The packet bytes become 188 fresh draws (10_state.md R23), and the model's own queue and read data stay. -/
def State.hostReset (s : State) : State :=
  { State.resetWith s.params with
    pkt := ⟨[], s.draws⟩
    sinks := s.sinks
    refused := s.refused
    draws := s.draws + Config.tsPacketLen
    pending := s.pending
    readData := s.readData }

/-- One host access performed on the block (R72): a word write to `CMD` issues a command, any other access is
complete in itself. -/
def perform (x : HostAccess) (s : State) : Host.Outcome State Fault Refusal :=
  match x with
  | .read width addr => .next { s with readData := s.hostRead width addr }
  | .write width addr data =>
    if width = .word ∧ addr = cmdAddr then issue data s else .next (s.hostStore width addr data)
  | .reset => .next s.hostReset

/-- The next host access, taken from the queue; with none the block waits (70_reset_and_hazards.md R302). -/
def hostStep (s : State) : Host.Outcome State Fault Refusal :=
  match s.pending with
  | [] => .next s
  | x :: rest => perform x { s with pending := rest }

end Sys2Proof.Machine
end

