-- ==== Sys2Proof/Machine/Step.lean ====
section
/-! DEFINITION. One step of the block: the next access of the host (00_scope.md R9, 20_memory.md R67). -/

namespace Sys2Proof.Machine

/-- One step: the block performs the oldest pending host access. A state whose `REFUSED` mark is set has no next
state (10_state.md R44, 60_exceptions.md R282). -/
def step (s : State) : Host.Outcome State Fault Refusal :=
  if s.refused then .refused .markedRefused else hostStep s

/-- The state in which the host is about to write the command word `w` to `CMD` (log entry 2). -/
def State.withFetchWord (s : State) (nbits w : Nat) : State :=
  { s with pending := .write .word cmdAddr (BitVec.ofNat 32 (w % 2 ^ nbits)) :: s.pending }

end Sys2Proof.Machine
end

