-- ==== Sys2Proof/Machine/CommandStream.lean ====
section
/-! DEFINITION. The command-stream notation of 30_encoding.md R100 in abstract form: what its lines make the host
do. -/

namespace Sys2Proof.Machine

/-- An item of a byte list (R100). -/
inductive ByteItem where
  /-- `XX` -/
  | one (b : Byte)
  /-- `XX*n` -/
  | rep (b : Byte) (n : Nat)
  /-- `SEQ(XX,n)` -/
  | seq (b : Byte) (n : Nat)
deriving DecidableEq, Repr

/-- The bytes an item stands for (R100); `SEQ` counts up modulo 256. -/
def ByteItem.bytes : ByteItem → List Byte
  | .one b => [b]
  | .rep b n => List.replicate n b
  | .seq b n => (List.range n).map fun k => b + BitVec.ofNat 8 k

/-- A byte list: the items' bytes one after the other (R100). -/
def byteList (items : List ByteItem) : List Byte :=
  items.flatMap ByteItem.bytes

/-- A line of a command stream (R100). -/
inductive StreamLine where
  /-- A command, with all its operands (an omitted one is 0). -/
  | command (c : Instr)
  /-- `.pkt <len> <byte list>` -/
  | pkt (len : Nat) (items : List ByteItem)
  /-- `.read <register>` of a word register -/
  | read (r : HostReg)
  /-- `.read CMD`, which is not among the readable registers and reads 0 (10_state.md R25) -/
  | readCmd
  /-- `.read PKT[k]` -/
  | readPkt (k : Fin 188)
deriving DecidableEq, Repr

/-- R100: the byte list of a `.pkt` line holds exactly `len` bytes. The packet space has 188 (20_memory.md R60). -/
def StreamLine.wellFormed : StreamLine → Bool
  | .command _ => true
  | .pkt len items => (byteList items).length == len && decide (len ≤ Config.tsPacketLen)
  | .read _ => true
  | .readCmd => true
  | .readPkt _ => true

/-- The host's byte writes of a packet from `PKT[k]` on. -/
def pktWrites : Nat → List Byte → List HostAccess
  | _, [] => []
  | k, b :: bs => .write .byte (pktBase + k) (b.setWidth 32) :: pktWrites (k + 1) bs

/-- What a line makes the host do (R100): a command is one write of its word to `CMD`; `.pkt` writes the bytes and
then `PKT_LEN`. -/
def StreamLine.accesses : StreamLine → List HostAccess
  | .command c => [.write .word cmdAddr (encode c)]
  | .pkt len items => pktWrites 0 (byteList items) ++ [.write .word pktLenAddr (BitVec.ofNat 32 len)]
  | .read r => [.read .word r.addr]
  | .readCmd => [.read .word cmdAddr]
  | .readPkt k => [.read .byte (pktBase + k.val)]

/-- A state with a command stream's accesses queued behind those already there. -/
def State.withStream (s : State) (lines : List StreamLine) : State :=
  { s with pending := s.pending ++ lines.flatMap StreamLine.accesses }

end Sys2Proof.Machine
end

