-- ==== Sys2Proof/Safety.lean ====
section
/-! DEFINITION. What counts as a good state and a good run: the state invariant, and the `REFUSED` mark (10_state.md
R44, 60_exceptions.md R282). -/

namespace Sys2Proof.Machine

/-! ### Invariants of the parts -/

/-- The HDR group as a header decode or reset leaves it (10_state.md R27, 40_ts_header.md R120). -/
structure HdrWf (h : HdrGroup) : Prop where
  status : h.status = .ok ∨ h = .zero .truncatedInput ∨ h = .zero .notRun
  syncOk : h.status = .ok → h.syncOk = decide (hdrSync h.word = 0x47)

/-- The AF group (10_state.md R28): after anything but `OK` every field is 0; after `OK` the ranges of R28 and
41_adaptation_field.md R144, R145, R147 hold. -/
structure AfWf (g : AfGroup) : Prop where
  status : g.status = .ok ∨ g = .zero .truncatedInput ∨ g = .zero .malformedField ∨ g = .zero .notPresent ∨
    g = .zero .notRun
  length : g.status = .ok → 1 ≤ g.length.toNat ∧ g.length.toNat ≤ 183
  consumed : g.status = .ok → g.consumed.toNat = g.length.toNat + 1
  stuffing : g.status = .ok → g.stuffing.toNat ≤ 182
  pcrTime : g.pcrTime.toNat = g.pcrBase.toNat * 300 + g.pcrExt.toNat
  opcrTime : g.opcrTime.toNat = g.opcrBase.toNat * 300 + g.opcrExt.toNat
  noPcr : afPcrf g.flags = false → g.pcrBase = 0 ∧ g.pcrExt = 0
  noOpcr : afOpcrf g.flags = false → g.opcrBase = 0 ∧ g.opcrExt = 0
  noSplice : afSpf g.flags = false → g.spliceCd = 0
  noPrivate : afTpdf g.flags = false → g.privLen = 0
  noExtension : afExtf g.flags = false → g.extLen = 0

/-- The PESH group (10_state.md R29): after anything but `OK` every field is 0; after `OK` `HEADER_LENGTH` is 6 for
an exempt stream id and `9 + HDR_DATA_LEN` otherwise (42_pes_header.md R172, R173), and an absent timestamp is 0. -/
structure PeshWf (g : PeshGroup) : Prop where
  status : g.status = .ok ∨ g = .zero .truncatedInput ∨ g = .zero .notRun
  startOk : g.startOk = decide (g.startCode = 0x000001)
  exempt : g.status = .ok → isExempt g.streamId = true → g.headerLength.toNat = 6
  other : g.status = .ok → isExempt g.streamId = false → g.headerLength.toNat = 9 + g.hdrDataLen.toNat
  ptsF : g.ptsF = ptsFlag g.flags2
  dtsF : g.dtsF = dtsFlag g.flags2
  noPts : g.ptsF = false → g.pts = 0
  noDts : g.dtsF = false → g.dts = 0

/-- `LAST_RESULT` holds a code an absorb step can end with after the PID check, or `NOT_RUN`; `NTC` marks exactly
the "nothing to continue" form (10_state.md R41, 43_pes_assembler.md R216). -/
structure LastResultWf (r : LastResult) : Prop where
  code : r.code ≠ .ok ∧ r.code ≠ .illegalCommand ∧ r.code ≠ .invalidSync ∧ r.code ≠ .notPresent
  ntc : r.ntc = decide (r.code = .unexpectedPid)

/-- An assembler instance under parameters `p`. -/
structure AsmWf (p : Params) (a : Assembler) : Prop where
  /-- The buffer keeps its canonical form. -/
  bufCanonical : Memory.wf a.buf
  /-- Cells are written below `CAP` only (20_memory.md R65). -/
  bufBelowCap : Memory.below a.buf a.cap.toNat
  /-- Cells are written below `WOFF` only (43_pes_assembler.md R217). -/
  bufBelowWoff : Memory.below a.buf a.woff.toNat
  /-- `WOFF` stays below `WOFF_LIMIT` (10_state.md R35). -/
  woffLimit : a.woff.toNat < Config.woffLimit
  /-- `CAP` never exceeds `MAX_CAP` (00_scope.md R6). -/
  capLimit : a.cap.toNat ≤ p.maxCap
  /-- Without an overrun everything appended fits (43_pes_assembler.md R217). -/
  noOverrunFits : a.overrun = false → a.woff.toNat ≤ a.cap.toNat
  /-- Without an overrun every cell below `WOFF` is written (43_pes_assembler.md R218). -/
  noOverrunFull : a.overrun = false → ∀ k < a.woff.toNat, (Memory.read? a.buf k).isSome = true
  /-- While a packet is in progress `CAP` is the capacity of its length (43_pes_assembler.md R212). -/
  startedCap : a.started = true → a.cap = startCap p a.curPl
  /-- While a packet is in progress its header has at least 6 bytes (10_state.md R38). -/
  startedHl : a.started = true → 6 ≤ a.curHl.toNat
  /-- Header lengths are at most 264 (10_state.md R38). -/
  curHl : a.curHl.toNat ≤ 264
  prevHl : a.prevHl.toNat ≤ 264
  /-- `PREV_DL` is negative by at most a header (10_state.md R38). -/
  prevDl : -264 ≤ a.prevDl.toInt
  /-- An instance that is not active holds its reset values (43_pes_assembler.md R202). -/
  inactive : a.active = false → a = .reset
  lastResult : LastResultWf a.lastResult

/-- The state invariant: what every step keeps (Obligations.lean) and reset with legal parameters has. -/
structure StateWf (s : State) : Prop where
  /-- The parameters are in R6's ranges (00_scope.md R6). -/
  params : s.params.legal
  /-- The packet bytes keep their canonical form and are 188 at most (10_state.md R23). -/
  pktCanonical : Memory.wf s.pkt.cells
  pktBound : Memory.below s.pkt.cells 188
  /-- The packet's draws have been taken, so no later draw repeats one (20_memory.md R64, R65). -/
  pktDraws : s.pkt.epoch + 188 ≤ s.draws
  hdr : HdrWf s.hdr
  af : AfWf s.af
  pesh : PeshWf s.pesh
  insts : ∀ i, AsmWf s.params (s.inst i)
  /-- A sink holds bulk writes of 1 to `WOFF_LIMIT - 1` bytes (10_state.md R43, 20_memory.md R75). -/
  sinks : ∀ i, ∀ w ∈ s.sink i, 1 ≤ w.length ∧ w.length < Config.woffLimit
  /-- An instance at or above `N_ASM` does not exist: its storage is never touched (20_memory.md R71). -/
  absent : ∀ i : InstId, s.params.nAsm ≤ i.val → s.inst i = .reset ∧ s.sink i = []

/-! ### What an absorb step reads from the packet (43_pes_assembler.md R204-R210) -/

/-- The header word of the packet in the buffer. -/
abbrev headerWord (p : Packet) : Word := p.field 0 4 32

/-- The payload offset an absorb step computes from the packet (R210). -/
def absorbOffset (p : Packet) : Nat :=
  payloadOffset (afcHasField (hdrAfc (headerWord p))) (absorbAf p (headerWord p)).length

/-- The payload size an absorb step computes from the packet (R210). -/
def absorbSize (p : Packet) : Nat :=
  payloadSize (afcHasPayload (hdrAfc (headerWord p))) (absorbOffset p)

/-- The adaptation field, if there is one, decodes (R207). -/
def AfAccepted (p : Packet) : Prop :=
  afcHasField (hdrAfc (headerWord p)) = true → (absorbAf p (headerWord p)).status = .ok

/-! ### Conditions under which a command does what it is for -/

/-- The operations that read the packet (60_exceptions.md R274's third check). -/
def opReadsPacket : Op → Bool
  | .tshDecode => true
  | .afDecode => true
  | .peshDecode => true
  | .asmInit => false
  | .asmAbsorb => true
  | .asmRelease => false
  | .pktProcess => true

/-- The operations with an `INST` operand (R274's fourth check). -/
def opNamesInst : Op → Bool
  | .tshDecode => false
  | .afDecode => false
  | .peshDecode => false
  | .asmInit => true
  | .asmAbsorb => true
  | .asmRelease => true
  | .pktProcess => false

/-- The operations that need an active instance (R274's fifth check). -/
def opNeedsActive : Op → Bool
  | .tshDecode => false
  | .afDecode => false
  | .peshDecode => false
  | .asmInit => false
  | .asmAbsorb => true
  | .asmRelease => true
  | .pktProcess => false

/-- ASM_ABSORB passes R274's checks. -/
structure AbsorbEnabled (s : State) (i : InstId) : Prop where
  pktLen : s.pktLen.toNat ≤ 188
  inst : i.val < s.params.nAsm
  active : (s.inst i).active = true

/-- The packet's counter is the expected one (43_pes_assembler.md R208), in R208's own arithmetic. -/
def CounterExpected (s : State) (i : InstId) : Prop :=
  match (s.inst i).lastCc with
  | none => s.params.ccFirst = .any ∨ (hdrCc (headerWord s.pkt)).toNat = 0
  | some l => (hdrCc (headerWord s.pkt)).toNat = (l.toNat + 1) % 16

/-- The absorb step of instance `i` gets past the header and PID checks to a whole packet (R204-R206). -/
structure AbsorbsWhole (s : State) (i : InstId) : Prop where
  enabled : AbsorbEnabled s i
  full : s.pktLen.toNat = 188
  pid : hdrPid (headerWord s.pkt) = (s.inst i).pid

/-- The absorb step of instance `i` reaches the state machine (R204-R209). -/
structure ReachesStateMachine (s : State) (i : InstId) : Prop where
  whole : AbsorbsWhole s i
  af : AfAccepted s.pkt
  counter : CounterExpected s i

/-- Instance `i` is offered the packet by PKT_PROCESS (44_packet_process.md R252). -/
structure Matches (s : State) (i : InstId) : Prop where
  inst : i.val < s.params.nAsm
  active : (s.inst i).active = true
  pid : (s.inst i).pid = hdrPid (headerWord s.pkt)

/-- What the absorb step of instance `i` writes to the three result groups (R204, 10_state.md R30): the header decode;
AF when a whole packet of the PID has a field, PESH when the state machine is reached with PUSI = 1; a group the path
did not evaluate is `NOT_RUN` with every field 0. -/
structure AbsorbGroups (s t : State) (i : InstId) : Prop where
  hdr : t.hdr = tshDecode s.pkt s.pktLen.toNat
  af : AbsorbsWhole s i → (s.pkt.byte 3).getLsbD 5 = true → t.af = afDecode s.pkt 188
  afNotRun : ¬ (AbsorbsWhole s i ∧ (s.pkt.byte 3).getLsbD 5 = true) → t.af = .zero .notRun
  pesh : ReachesStateMachine s i → hdrPusi (headerWord s.pkt) = true →
    t.pesh = peshDecode s.pkt (absorbOffset s.pkt) (absorbSize s.pkt)
  peshNotRun : ¬ (ReachesStateMachine s i ∧ hdrPusi (headerWord s.pkt) = true) → t.pesh = .zero .notRun

/-- PKT_PROCESS gets past its own checks to the dispatch (R250). -/
structure ReachesDispatch (s : State) : Prop where
  pktLen : s.pktLen.toNat ≤ 188
  header : 4 ≤ s.pktLen.toNat
  sync : s.pkt.byte 0 = 0x47

/-- No append of a TS payload can reach `WOFF_LIMIT` in this instance (43_pes_assembler.md R223). -/
abbrev WoffRoom (a : Assembler) : Prop := a.woff.toNat + 184 < 2 ^ 31

/-- What no command changes: the parameters, the packet, `PKT_LEN`, the mark and the host port's own fields
(10_state.md R23, R24, R44, R45). -/
structure CommandFrame (s t : State) : Prop where
  params : t.params = s.params
  pkt : t.pkt = s.pkt
  pktLen : t.pktLen = s.pktLen
  refused : t.refused = s.refused
  pending : t.pending = s.pending
  readData : t.readData = s.readData

/-- What a command on instance `i` leaves besides (43_pes_assembler.md R220): every other instance and sink. -/
structure InstanceFrame (i : InstId) (s t : State) : Prop where
  command : CommandFrame s t
  insts : ∀ j, j ≠ i → t.inst j = s.inst j
  sinks : ∀ j, j ≠ i → t.sink j = s.sink j

/-- Two packets have the same payload bytes and the same acted-on header fields; sync byte, TEI, TP and TSC may
differ (40_ts_header.md R122, R125). -/
structure SameActedOn (p q : Packet) : Prop where
  bytes : ∀ k, 4 ≤ k → p.byte k = q.byte k
  pusi : hdrPusi (headerWord p) = hdrPusi (headerWord q)
  pid : hdrPid (headerWord p) = hdrPid (headerWord q)
  afc : hdrAfc (headerWord p) = hdrAfc (headerWord q)
  cc : hdrCc (headerWord p) = hdrCc (headerWord q)

/-- Two states tell the same apart from the packet and the HDR group, which shows it. -/
structure SameButHeader (s t : State) : Prop where
  params : t.params = s.params
  pktLen : t.pktLen = s.pktLen
  result : t.result = s.result
  af : t.af = s.af
  pesh : t.pesh = s.pesh
  insts : t.insts = s.insts
  sinks : t.sinks = s.sinks
  draws : t.draws = s.draws

/-! ### The mark of a refused run -/

/-- The state a refusal leaves, as far as it has one: the mark is set and nothing else is said (10_state.md R44). -/
def State.markRefused (s : State) : State :=
  { s with refused := true }

/-- One step seen with the mark: a refusal sets `REFUSED` (R44). There is no fault. -/
def markedStep (s : State) : State :=
  match step s with
  | .next t => t
  | .fault _ => s
  | .refused _ => s.markRefused

/-- `n` steps seen with the mark. -/
def markedRun : Nat → State → State
  | 0, s => s
  | n + 1, s => markedRun n (markedStep s)

/-- A good state: the invariant holds and the run has not been refused (R44: a `REFUSED` state is never good). -/
structure Good (s : State) : Prop where
  wf : StateWf s
  notRefused : s.refused = false

end Sys2Proof.Machine
end

