-- ==== Sys2Proof/Certificates/Slice0/Obligations.lean ====
section
/-! DEFINITION. What is claimed of the block, for the provers. Each statement's docstring names the rule of spec/ it
formalises; OBLIGATIONS.json lists them. -/

open Sys2Proof Sys2Proof.Machine

/-! ### The command word (30_encoding.md R80-R83) -/

/-- Encoding a command and decoding the word gives the command back, with every operand (R80, R81, R83, R100). -/
def Obligations.DecodeOfEncodeIsIdentity : Prop :=
  ∀ c : Instr, decode (encode c) = .ok c

/-- A word that decodes is the word its command encodes to, so no bit is dropped and no word is shared (R81, R82). -/
def Obligations.EncodeOfDecodeIsIdentity : Prop :=
  ∀ (w : Word) (c : Instr), decode w = .ok c → encode c = w

/-- The words 95_test_vectors.md writes out decode as it says: one for each row, and illegal ones. -/
def Obligations.WordsOfTheVectorsDecode : Prop :=
  decode 0x10000000 = .ok .tshDecode ∧ decode 0x20000000 = .ok .afDecode ∧
  decode 0x30040000 = .ok (.peshDecode 4) ∧ decode 0x30C80000 = .ok (.peshDecode 200) ∧
  decode 0x40000100 = .ok (.asmInit 0 0x100) ∧ decode 0x410001E1 = .ok (.asmInit 1 0x1E1) ∧
  decode 0x50000000 = .ok (.asmAbsorb 0) ∧ decode 0x61000000 = .ok (.asmRelease 1) ∧
  decode 0x70000000 = .ok .pktProcess ∧
  decode 0x80000000 = .error (.reservedOpcode 8) ∧ decode 0x00000000 = .error (.reservedOpcode 0) ∧
  decode 0x10002000 = .error (.unusedFieldNonzero .tshDecode) ∧
  decode 0x40010100 = .error (.unusedFieldNonzero .asmInit) ∧
  decode 0x7F000000 = .error (.unusedFieldNonzero .pktProcess)

/-- R274: the checks, in their order, over every word and state. The first that holds ends the command with
`ILLEGAL_COMMAND` and changes only `RESULT`; a command that passes them all runs its rule, which does not end so. -/
def Obligations.IllegalCommandChecksInOrder : Prop :=
  ∀ (s : State) (w : Word),
    let raised (info : Option InstId) : Host.Outcome State Fault Refusal :=
      .next { s with result := ⟨.illegalCommand, false, false, info⟩ }
    ((∀ r ∈ opcodeTable, w.extractLsb' 28 4 ≠ r.opc) → issue w s = raised none) ∧
    ∀ r ∈ opcodeTable, w.extractLsb' 28 4 = r.opc →
      (w &&& r.mask ≠ r.matchBits → issue w s = raised none) ∧
      (w &&& r.mask = r.matchBits →
        (opReadsPacket r.op = true ∧ 188 < s.pktLen.toNat → issue w s = raised none) ∧
        (¬ (opReadsPacket r.op = true ∧ 188 < s.pktLen.toNat) →
          (opNamesInst r.op = true ∧ s.params.nAsm ≤ (instField w).val → issue w s = raised (some (instField w))) ∧
          (¬ (opNamesInst r.op = true ∧ s.params.nAsm ≤ (instField w).val) →
            (opNeedsActive r.op = true ∧ (s.inst (instField w)).active = false →
              issue w s = raised (some (instField w))) ∧
            (¬ (opNeedsActive r.op = true ∧ (s.inst (instField w)).active = false) →
              issue w s = exec (operandsOf r.op w) s ∧
              ∀ t, issue w s = .next t → t.result.code ≠ .illegalCommand))))

/-! ### Steps -/

/-- A step whose pending access is a host write of a command word to `CMD` runs the decoded command, on the state
with that access taken from the queue (R9, R70, R72). The queue is the model's choice (log entry 2). -/
def Obligations.StepRunsTheWrittenCommand : Prop :=
  ∀ (s : State) (w : Word) (rest : List HostAccess) (c : Instr),
    s.refused = false → s.pending = .write .word 0x000 w :: rest → decode w = .ok c →
      step s = exec c { s with pending := rest }

/-- With `withFetchWord` the very next step runs the encoded command on the state itself (the model's choice, log
entry 2). -/
def Obligations.FetchedWordRunsNext : Prop :=
  ∀ (s : State) (c : Instr), s.refused = false → step (s.withFetchWord 32 (encode c).toNat) = exec c s

/-- With no host access pending the block waits, and nothing of its state advances (R281, R302). That waiting is a
step is the model's choice (log entry 2). -/
def Obligations.BlockWaitsForTheHost : Prop :=
  ∀ s : State, s.refused = false → s.pending = [] → step s = .next s

/-! ### TS packet header (40_ts_header.md) -/

/-- R121: TSH_DECODE's encoding is exact; with `PKT_LEN > 188` it is illegal, with fewer than 4 bytes truncated, else
`OK` with the four bytes as `HDR_WORD`. It writes the HDR group and `RESULT` only. -/
def Obligations.TshDecodeCommand : Prop :=
  (∀ w, decode w = .ok .tshDecode ↔ w = 0x10000000) ∧
  ∀ s : State,
    (188 < s.pktLen.toNat →
      exec .tshDecode s = .next { s with result := ⟨.illegalCommand, false, false, none⟩ }) ∧
    (s.pktLen.toNat < 4 →
      exec .tshDecode s = .next { s with
        hdr := ⟨.truncatedInput, false, 0⟩
        result := ⟨.truncatedInput, false, false, none⟩ }) ∧
    (4 ≤ s.pktLen.toNat → s.pktLen.toNat ≤ 188 →
      exec .tshDecode s = .next { s with
        hdr := ⟨.ok, decide (s.pkt.byte 0 = 0x47),
          s.pkt.byte 0 ++ s.pkt.byte 1 ++ s.pkt.byte 2 ++ s.pkt.byte 3⟩
        result := ⟨.ok, false, false, none⟩ })

/-- The fields of the decoded header word are the header bytes' bits in the positions of R84's table, which the spec
marks as derived. -/
def Obligations.HeaderFieldsAreTheirBits : Prop :=
  ∀ (p : Packet) (n : Nat), 4 ≤ n →
    let w := (tshDecode p n).word
    w.toNat = (p.byte 0).toNat * 2 ^ 24 + (p.byte 1).toNat * 2 ^ 16 + (p.byte 2).toNat * 2 ^ 8 + (p.byte 3).toNat ∧
    hdrSync w = p.byte 0 ∧
    hdrTei w = (p.byte 1).getLsbD 7 ∧
    hdrPusi w = (p.byte 1).getLsbD 6 ∧
    hdrTp w = (p.byte 1).getLsbD 5 ∧
    hdrPid w = (p.byte 1).extractLsb' 0 5 ++ p.byte 2 ∧
    hdrTsc w = (p.byte 3).extractLsb' 6 2 ∧
    hdrAfc w = (p.byte 3).extractLsb' 4 2 ∧
    hdrCc w = (p.byte 3).extractLsb' 0 4

/-- Field isolation, R123, which the spec marks as derived. Each header field is a function of its own bits alone: two
packets that agree on them agree on the field, whatever their other bits. -/
def Obligations.HeaderFieldIsolation : Prop :=
  ∀ (p q : Packet) (n : Nat), 4 ≤ n →
    let v := (tshDecode p n).word
    let w := (tshDecode q n).word
    ((p.byte 3).toNat % 16 = (q.byte 3).toNat % 16 → hdrCc v = hdrCc w) ∧
    ((p.byte 3).toNat / 16 % 4 = (q.byte 3).toNat / 16 % 4 → hdrAfc v = hdrAfc w) ∧
    ((p.byte 3).toNat / 64 = (q.byte 3).toNat / 64 → hdrTsc v = hdrTsc w) ∧
    ((p.byte 1).toNat % 32 = (q.byte 1).toNat % 32 → p.byte 2 = q.byte 2 → hdrPid v = hdrPid w) ∧
    ((p.byte 1).toNat / 32 % 2 = (q.byte 1).toNat / 32 % 2 → hdrTp v = hdrTp w) ∧
    ((p.byte 1).toNat / 64 % 2 = (q.byte 1).toNat / 64 % 2 → hdrPusi v = hdrPusi w) ∧
    ((p.byte 1).toNat / 128 = (q.byte 1).toNat / 128 → hdrTei v = hdrTei w) ∧
    (p.byte 0 = q.byte 0 → hdrSync v = hdrSync w)

/-- R124, which the spec marks as derived: packing the eight decoded fields back in R84's positions gives `HDR_WORD`,
which is `MemRead(0,4)`, and so the four bytes. -/
def Obligations.HeaderRoundTrip : Prop :=
  ∀ (p : Packet) (n : Nat), 4 ≤ n →
    let w := (tshDecode p n).word
    ((hdrSync w).setWidth 32 <<< 24 ||| (BitVec.ofBool (hdrTei w)).setWidth 32 <<< 23 |||
      (BitVec.ofBool (hdrPusi w)).setWidth 32 <<< 22 ||| (BitVec.ofBool (hdrTp w)).setWidth 32 <<< 21 |||
      (hdrPid w).setWidth 32 <<< 8 ||| (hdrTsc w).setWidth 32 <<< 6 ||| (hdrAfc w).setWidth 32 <<< 4 |||
      (hdrCc w).setWidth 32) = w ∧
    packHdr (hdrSync w) (hdrTei w) (hdrPusi w) (hdrTp w) (hdrPid w) (hdrTsc w) (hdrAfc w) (hdrCc w) = w ∧
    w = p.byte 0 ++ p.byte 1 ++ p.byte 2 ++ p.byte 3

/-! ### Adaptation field (41_adaptation_field.md) -/

/-- R149: AF_DECODE's encoding is exact; with `PKT_LEN > 188` it is illegal, else it writes the AF group and `RESULT`
only, with the decode's status as its code, which is one of the four R149 lists. -/
def Obligations.AfDecodeCommand : Prop :=
  (∀ w, decode w = .ok .afDecode ↔ w = 0x20000000) ∧
  ∀ s : State,
    (188 < s.pktLen.toNat →
      exec .afDecode s = .next { s with result := ⟨.illegalCommand, false, false, none⟩ }) ∧
    (s.pktLen.toNat ≤ 188 →
      exec .afDecode s = .next { s with
        af := afDecode s.pkt s.pktLen.toNat
        result := ⟨(afDecode s.pkt s.pktLen.toNat).status, false, false, none⟩ } ∧
      (afDecode s.pkt s.pktLen.toNat).status ∈
        [ResultCode.ok, .notPresent, .truncatedInput, .malformedField])

/-- R140: a field is present iff `AFC[1] = 1`; otherwise the decode gives `NOT_PRESENT` with every field 0 and
depends on byte 3 only. -/
def Obligations.AfPresenceFollowsAfc : Prop :=
  ∀ (p : Packet) (n : Nat), 4 ≤ n →
    ((afDecode p n).status = .notPresent ↔ (p.byte 3).getLsbD 5 = false) ∧
    ((p.byte 3).getLsbD 5 = false → afDecode p n = .zero .notPresent ∧
      ∀ q : Packet, q.byte 3 = p.byte 3 → afDecode q n = afDecode p n)

/-- R142: exactly the three truncation cases, and every field is 0 then. That with a full packet it means `L ≥ 184` is
the sentence R142 marks as derived (5 + 184 > 188). -/
def Obligations.AfTruncationExactly : Prop :=
  ∀ (p : Packet) (n : Nat),
    ((afDecode p n).status = .truncatedInput ↔
      n < 4 ∨ ((p.byte 3).getLsbD 5 = true ∧ (n < 5 ∨ n < 5 + (p.byte 4).toNat))) ∧
    ((afDecode p n).status = .truncatedInput → afDecode p n = .zero .truncatedInput) ∧
    ((p.byte 3).getLsbD 5 = true → ((afDecode p 188).status = .truncatedInput ↔ 184 ≤ (p.byte 4).toNat))

/-- Where the splice countdown would stand: after the flags byte and each present clock (R86, with R87's flag
positions, log entry 17). -/
def afSpliceAt (p : Packet) : Nat :=
  6 + 6 * ((p.byte 5).getLsbD 4).toNat + 6 * ((p.byte 5).getLsbD 3).toNat

/-- Where the private data would stand: after a splice countdown (R86, R87). -/
def afPrivateAt (p : Packet) : Nat :=
  afSpliceAt p + ((p.byte 5).getLsbD 2).toNat

/-- Where the extension would stand: after private data, its length byte included (R86, R87). -/
def afExtensionAt (p : Packet) : Nat :=
  afPrivateAt p + (1 + (p.byte (afPrivateAt p)).toNat) * ((p.byte 5).getLsbD 1).toNat

/-- What the present sub-fields of the field claim, counted from the length byte on: R144's sum, with `PRIV_LEN` and
`EXT_LEN` read where R86 puts them and the flags where R87 puts them (log entry 17). -/
def afClaimed (p : Packet) : Nat :=
  let f := p.byte 5
  2 + 6 * (f.getLsbD 4).toNat + 6 * (f.getLsbD 3).toNat + (f.getLsbD 2).toNat +
    (1 + (p.byte (afPrivateAt p)).toNat) * (f.getLsbD 1).toNat +
    (1 + (p.byte (afExtensionAt p)).toNat) * (f.getLsbD 0).toNat

/-- R143 and R151, with R87's flag positions (log entry 17): once the truncation checks pass, the decode is malformed
exactly when R144's stuffing count would be negative, for every packet: the step-by-step decode and the source's
end-of-parse formula give one verdict. Every field is 0 then. A field of length 0 is always malformed. -/
def Obligations.AfMalformedIffStuffingNegative : Prop :=
  ∀ (p : Packet) (n : Nat), 4 ≤ n → (p.byte 3).getLsbD 5 = true → 5 + (p.byte 4).toNat ≤ n →
    ((afDecode p n).status = .malformedField ↔ (p.byte 4).toNat + 1 < afClaimed p) ∧
    ((afDecode p n).status = .malformedField → afDecode p n = .zero .malformedField) ∧
    ((afDecode p n).status ≠ .malformedField → (afDecode p n).status = .ok) ∧
    (p.byte 4 = 0 → afDecode p n = .zero .malformedField)

/-- R144's stuffing count of a decode that succeeds, with R87's flag positions (log entry 17), and its range in a
packet. -/
def Obligations.AfStuffingCount : Prop :=
  ∀ (p : Packet) (n : Nat), n ≤ 188 → (afDecode p n).status = .ok →
    let g := afDecode p n
    (g.stuffing.toNat : Int) =
      ((g.length.toNat : Int) + 1) -
        (2 + 6 * (g.flags.getLsbD 4).toNat + 6 * (g.flags.getLsbD 3).toNat + (g.flags.getLsbD 2).toNat +
          (1 + g.privLen.toNat) * (g.flags.getLsbD 1).toNat + (1 + g.extLen.toNat) * (g.flags.getLsbD 0).toNat) ∧
    g.stuffing.toNat ≤ 182

/-- R145, R146, R147 and R86: what a decode that succeeds reports. `AF_CONSUMED` is `length + 1` whatever the flags, and
the payload begins that many bytes after offset 4; the PCR is the 6 bytes at offset 6 and the OPCR those at 6 or 12,
split by R89 (general knowledge, log entry 17) and converted by R90; the splice countdown, the private-data length and
the extension length are the bytes at R86's offsets; a field whose flag is 0 is 0 whatever its bytes. -/
def Obligations.AfClocksAndConsumed : Prop :=
  ∀ (p : Packet) (n : Nat), n ≤ 188 → (afDecode p n).status = .ok →
    let g := afDecode p n
    let v := p.be 6 6
    let o := p.be (if (p.byte 5).getLsbD 4 then 12 else 6) 6
    g.length = p.byte 4 ∧ g.flags = p.byte 5 ∧ g.consumed.toNat = (p.byte 4).toNat + 1 ∧
    payloadOffset true g.length = 4 + g.consumed.toNat ∧
    ((p.byte 5).getLsbD 4 = true →
      g.pcrBase.toNat = v / 2 ^ 15 ∧ g.pcrExt.toNat = v % 2 ^ 9 ∧
        g.pcrTime.toNat = v / 2 ^ 15 * 300 + v % 2 ^ 9) ∧
    ((p.byte 5).getLsbD 4 = false → g.pcrBase = 0 ∧ g.pcrExt = 0 ∧ g.pcrTime = 0) ∧
    ((p.byte 5).getLsbD 3 = true →
      g.opcrBase.toNat = o / 2 ^ 15 ∧ g.opcrExt.toNat = o % 2 ^ 9 ∧
        g.opcrTime.toNat = o / 2 ^ 15 * 300 + o % 2 ^ 9) ∧
    ((p.byte 5).getLsbD 3 = false → g.opcrBase = 0 ∧ g.opcrExt = 0 ∧ g.opcrTime = 0) ∧
    g.spliceCd = (if (p.byte 5).getLsbD 2 then p.byte (afSpliceAt p) else 0) ∧
    g.privLen = (if (p.byte 5).getLsbD 1 then p.byte (afPrivateAt p) else 0) ∧
    g.extLen = (if (p.byte 5).getLsbD 0 then p.byte (afExtensionAt p) else 0)

/-! ### PES header (42_pes_header.md) -/

/-- R178: PESH_DECODE with its operand; the words that are this command; with `PKT_LEN > 188` it is illegal, else it
writes the PESH group and `RESULT` only, with `n = max(0, PKT_LEN - OFS)`, and `OFS ≥ PKT_LEN` is truncated. -/
def Obligations.PeshDecodeCommand : Prop :=
  (∀ (w : Word) (ofs : Byte), decode w = .ok (.peshDecode ofs) ↔ w = 0x30000000#32 ||| ofs.setWidth 32 <<< 16) ∧
  ∀ (s : State) (ofs : Byte),
    (188 < s.pktLen.toNat →
      exec (.peshDecode ofs) s = .next { s with result := ⟨.illegalCommand, false, false, none⟩ }) ∧
    (s.pktLen.toNat ≤ 188 →
      exec (.peshDecode ofs) s = .next { s with
        pesh := peshDecode s.pkt ofs.toNat (s.pktLen.toNat - ofs.toNat)
        result := ⟨(peshDecode s.pkt ofs.toNat (s.pktLen.toNat - ofs.toNat)).status, false, false, none⟩ }) ∧
    (s.pktLen.toNat ≤ 188 → s.pktLen.toNat ≤ ofs.toNat →
      exec (.peshDecode ofs) s = .next { s with
        pesh := .zero .truncatedInput
        result := ⟨.truncatedInput, false, false, none⟩ })

/-- R172, R173, R174: what a PES header decode that succeeds reports. An exempt stream id (R92's list, general
knowledge, log entry 17) has the 6-byte prefix and nothing else; any other has the flags, `9 + HDR_DATA_LEN` bytes,
and each flagged timestamp from offset 9 and `9 + 5·PTS_F`. -/
def Obligations.PesHeaderFields : Prop :=
  ∀ (p : Packet) (st n : Nat), (peshDecode p st n).status = .ok →
    let g := peshDecode p st n
    g.startCode.toNat = p.be st 3 ∧ g.startOk = decide (p.be st 3 = 1) ∧ g.streamId = p.byte (st + 3) ∧
    g.pktLen.toNat = p.be (st + 4) 2 ∧
    (p.byte (st + 3) ∈ [(0xBC : Byte), 0xBE, 0xBF, 0xF0, 0xF1, 0xF2, 0xF8, 0xFF] →
      g.headerLength = 6 ∧ g.flags1 = 0 ∧ g.flags2 = 0 ∧ g.hdrDataLen = 0 ∧ g.ptsF = false ∧ g.dtsF = false ∧
      g.pts = 0 ∧ g.dts = 0 ∧ ∀ m, 6 ≤ m → peshDecode p st m = g) ∧
    (p.byte (st + 3) ∉ [(0xBC : Byte), 0xBE, 0xBF, 0xF0, 0xF1, 0xF2, 0xF8, 0xFF] →
      g.headerLength.toNat = 6 + 3 + (p.byte (st + 8)).toNat ∧
      9 ≤ g.headerLength.toNat ∧ g.headerLength.toNat ≤ 264 ∧
      g.flags1 = p.byte (st + 6) ∧ g.flags2 = p.byte (st + 7) ∧ g.hdrDataLen = p.byte (st + 8) ∧
      g.ptsF = decide (p.byte (st + 7) &&& 0b10000000 ≠ 0) ∧ g.dtsF = decide (p.byte (st + 7) &&& 0b01000000 ≠ 0) ∧
      g.pts = (if g.ptsF then ts33 (BitVec.ofNat 40 (p.be (st + 9) 5)) else 0) ∧
      g.dts = (if g.dtsF then ts33 (BitVec.ofNat 40 (p.be (st + 9 + 5 * g.ptsF.toNat) 5)) else 0))

/-- R177, with R92's list (log entry 17): exactly the truncation cases, and every field is 0 then; any other header
decodes, however far its `HEADER_LENGTH` goes, and no byte at or past `n` is read. -/
def Obligations.PesTruncationExactly : Prop :=
  ∀ (p : Packet) (st n : Nat),
    let pts := (p.byte (st + 7)).getLsbD 7
    let dts := (p.byte (st + 7)).getLsbD 6
    ((peshDecode p st n).status = .truncatedInput ↔
      n < 6 ∨ (p.byte (st + 3) ∉ [(0xBC : Byte), 0xBE, 0xBF, 0xF0, 0xF1, 0xF2, 0xF8, 0xFF] ∧
        (n < 9 ∨ (pts = true ∧ n < 14) ∨ (dts = true ∧ n < 9 + 5 * pts.toNat + 5)))) ∧
    ((peshDecode p st n).status = .truncatedInput → peshDecode p st n = .zero .truncatedInput) ∧
    ((peshDecode p st n).status ≠ .truncatedInput → (peshDecode p st n).status = .ok) ∧
    ∀ q : Packet, (∀ k, k < n → q.byte (st + k) = p.byte (st + k)) → peshDecode q st n = peshDecode p st n

/-- R175, with R95's layout (log entry 17): the timestamp in bytes, `((T[0] >> 1) & 7) << 30 | T[1] << 22 | (T[2] >>
1) << 15 | T[3] << 7 | (T[4] >> 1)`, is `ts33` of the 40-bit big-endian value. -/
def Obligations.TimestampInBytes : Prop :=
  ∀ (p : Packet) (off : Nat),
    (ts33 (BitVec.ofNat 40 (p.be off 5))).toNat =
      (((p.byte off).toNat >>> 1) &&& 7) <<< 30 ||| (p.byte (off + 1)).toNat <<< 22 |||
        ((p.byte (off + 2)).toNat >>> 1) <<< 15 ||| (p.byte (off + 3)).toNat <<< 7 |||
        ((p.byte (off + 4)).toNat >>> 1)

/-! ### Instance lifecycle (43_pes_assembler.md) -/

/-- R201: ASM_INIT. An index at or above `N_ASM` is illegal; else the instance is active, tracks the PID and holds
the creation values, whatever it held before, and nothing else but `RESULT` changes, the sinks included. -/
def Obligations.AsmInitCommand : Prop :=
  (∀ (w : Word) (i : InstId) (pid : Pid), decode w = .ok (.asmInit i pid) ↔
    w = 0x40000000#32 ||| BitVec.ofNat 32 i.val <<< 24 ||| pid.setWidth 32) ∧
  ∀ (s : State) (i : InstId) (pid : Pid),
    (s.params.nAsm ≤ i.val →
      exec (.asmInit i pid) s = .next { s with result := ⟨.illegalCommand, false, false, some i⟩ }) ∧
    (i.val < s.params.nAsm →
      exec (.asmInit i pid) s = .next { s.setInst i
          { active := true, pid := pid, buf := [], cap := 0, woff := 0, lastCc := none, started := false, curHl := 0,
            prevHl := 0, prevDl := 0, curPl := 0, overrun := false, lastResult := ⟨.notRun, false⟩ } with
        result := ⟨.ok, false, false, some i⟩ })

/-- R202: ASM_RELEASE. An index at or above `N_ASM` or an inactive instance is illegal; else the instance gets its
reset values, with no flush, and nothing else but `RESULT` changes. -/
def Obligations.AsmReleaseCommand : Prop :=
  (∀ (w : Word) (i : InstId), decode w = .ok (.asmRelease i) ↔ w = 0x60000000#32 ||| BitVec.ofNat 32 i.val <<< 24) ∧
  ∀ (s : State) (i : InstId),
    (s.params.nAsm ≤ i.val ∨ (s.inst i).active = false →
      exec (.asmRelease i) s = .next { s with result := ⟨.illegalCommand, false, false, some i⟩ }) ∧
    (i.val < s.params.nAsm → (s.inst i).active = true →
      exec (.asmRelease i) s = .next { s.setInst i
          { active := false, pid := 0, buf := [], cap := 0, woff := 0, lastCc := none, started := false, curHl := 0,
            prevHl := 0, prevDl := 0, curPl := 0, overrun := false, lastResult := ⟨.notRun, false⟩ } with
        result := ⟨.ok, false, false, some i⟩ })

/-! ### The absorb step (43_pes_assembler.md) -/

/-- R205: fewer than 4 bytes, or another PID. Every register of every instance is unchanged, `LAST_RESULT` included,
and there is no sink write; the result groups are written. -/
def Obligations.AbsorbTurnsAwayForeignPackets : Prop :=
  ∀ (s : State) (i : InstId), AbsorbEnabled s i →
    (s.pktLen.toNat < 4 →
      exec (.asmAbsorb i) s = .next { s with
        hdr := .zero .truncatedInput, af := .zero .notRun, pesh := .zero .notRun
        result := ⟨.truncatedInput, false, false, some i⟩ }) ∧
    (4 ≤ s.pktLen.toNat → hdrPid (headerWord s.pkt) ≠ (s.inst i).pid →
      exec (.asmAbsorb i) s = .next { s with
        hdr := tshDecode s.pkt s.pktLen.toNat, af := .zero .notRun, pesh := .zero .notRun
        result := ⟨.unexpectedPid, false, false, some i⟩ })

/-- R206: a packet of the tracked PID shorter than 188 bytes is truncated, and changes only `LAST_RESULT` in the
instance. -/
def Obligations.AbsorbNeedsFullPacket : Prop :=
  ∀ (s : State) (i : InstId), AbsorbEnabled s i → 4 ≤ s.pktLen.toNat → s.pktLen.toNat < 188 →
    hdrPid (headerWord s.pkt) = (s.inst i).pid →
      exec (.asmAbsorb i) s = .next { s.setInst i { s.inst i with lastResult := ⟨.truncatedInput, false⟩ } with
        hdr := tshDecode s.pkt s.pktLen.toNat, af := .zero .notRun, pesh := .zero .notRun
        result := ⟨.truncatedInput, false, false, some i⟩ }

/-- R207: an adaptation field that does not decode ends the step with its status; only `LAST_RESULT` changes in the
instance, `LAST_CC` included in what does not. -/
def Obligations.AbsorbRejectsBadAdaptationField : Prop :=
  ∀ (s : State) (i : InstId), AbsorbsWhole s i → (s.pkt.byte 3).getLsbD 5 = true →
    (afDecode s.pkt 188).status ≠ .ok →
      exec (.asmAbsorb i) s = .next
          { s.setInst i { s.inst i with lastResult := ⟨(afDecode s.pkt 188).status, false⟩ } with
        hdr := tshDecode s.pkt 188, af := afDecode s.pkt 188, pesh := .zero .notRun
        result := ⟨(afDecode s.pkt 188).status, false, false, some i⟩ } ∧
      ((afDecode s.pkt 188).status = .truncatedInput ∨ (afDecode s.pkt 188).status = .malformedField)

/-- R208: a packet whose counter is not the expected one is lost, whatever its PUSI and AFC: no sink write, and the
instance changes only in `LAST_RESULT` and, with `CC_ADVANCE_ON_LOSS`, in `LAST_CC`. -/
def Obligations.AbsorbDropsOnCounterMismatch : Prop :=
  ∀ (s : State) (i : InstId), AbsorbsWhole s i → AfAccepted s.pkt → ¬ CounterExpected s i →
    exec (.asmAbsorb i) s = .next
        { s.setInst i { s.inst i with
            lastCc := if s.params.ccAdvanceOnLoss then some (hdrCc (headerWord s.pkt)) else (s.inst i).lastCc
            lastResult := ⟨.streamPacketLost, false⟩ } with
      hdr := tshDecode s.pkt 188, af := absorbAf s.pkt (headerWord s.pkt), pesh := .zero .notRun
      result := ⟨.streamPacketLost, false, false, some i⟩ }

/-- R209 and R210: past the counter check `LAST_CC` becomes the packet's counter, whatever branch runs and however a
Start ends; the payload is where R210 puts it, in the range R210 marks as derived. -/
def Obligations.AbsorbUpdatesCounterOnSuccess : Prop :=
  ∀ (s t : State) (i : InstId), ReachesStateMachine s i → exec (.asmAbsorb i) s = .next t →
    (t.inst i).lastCc = some (hdrCc (headerWord s.pkt)) ∧
    absorbOffset s.pkt = 4 + (if (s.pkt.byte 3).getLsbD 5 then 1 + (s.pkt.byte 4).toNat else 0) ∧
    absorbSize s.pkt = (if (s.pkt.byte 3).getLsbD 4 then 188 - absorbOffset s.pkt else 0) ∧
    ((s.pkt.byte 3).getLsbD 5 = true → 5 ≤ absorbOffset s.pkt ∧ absorbOffset s.pkt ≤ 188) ∧
    absorbSize s.pkt ≤ 184

/-- R212: Start, PUSI = 1 and not started, with a header that decodes. The buffer holds the whole payload, header
included, if it fits the capacity the header gives, and nothing otherwise. -/
def Obligations.AbsorbStartsPacket : Prop :=
  ∀ (s : State) (i : InstId), ReachesStateMachine s i → hdrPusi (headerWord s.pkt) = true →
    (s.inst i).started = false →
    (peshDecode s.pkt (absorbOffset s.pkt) (absorbSize s.pkt)).status = .ok →
    let g := peshDecode s.pkt (absorbOffset s.pkt) (absorbSize s.pkt)
    let cap : Word := if g.pktLen = 0 then s.params.capUnbounded else BitVec.ofNat 32 (g.pktLen.toNat + 6)
    exec (.asmAbsorb i) s = .next
        { s.setInst i { s.inst i with
            lastCc := some (hdrCc (headerWord s.pkt))
            started := true, curHl := g.headerLength, curPl := g.pktLen, cap := cap
            woff := BitVec.ofNat 32 (absorbSize s.pkt)
            overrun := decide (cap.toNat < absorbSize s.pkt)
            buf := if absorbSize s.pkt ≤ cap.toNat then
                cellsFrom 0 (s.pkt.bytes (absorbOffset s.pkt) (absorbSize s.pkt))
              else []
            lastResult := ⟨.assemblingStarted, false⟩ } with
      hdr := tshDecode s.pkt 188, af := absorbAf s.pkt (headerWord s.pkt), pesh := g
      result := ⟨.assemblingStarted, false, false, some i⟩ }

/-- The bytes a flush of `[lo, hi)` of instance `i` sends from state `s`: each cell written below `CAP` as its byte,
any other as a free byte (20_memory.md R65), which the model numbers by its own count of draws (log entry 3). -/
def flushedBytes (s : State) (i : InstId) (lo hi : Nat) : List Byte :=
  (List.range (hi - lo)).map fun k =>
    if lo + k < (s.inst i).cap.toNat then
      ((s.inst i).buf.read? (lo + k)).getD (Config.freeByte (s.draws + k))
    else Config.freeByte (s.draws + k)

/-- R213: a Start whose header does not decode. The buffer reset stands, the instance is not started, and `LAST_CC`
keeps its update. In the Finish-then-Start branch the previous packet's flush has happened and stays, with the model's
free bytes for cells that hold none (log entry 3); its premise
`WOFF < WOFF_LIMIT` is what `StepKeepsInvariant` gives. -/
def Obligations.AbsorbStartFails : Prop :=
  ∀ (s : State) (i : InstId), ReachesStateMachine s i → hdrPusi (headerWord s.pkt) = true →
    (peshDecode s.pkt (absorbOffset s.pkt) (absorbSize s.pkt)).status ≠ .ok →
    let a := s.inst i
    ((s.inst i).started = false →
      exec (.asmAbsorb i) s = .next
          { s.setInst i { s.inst i with
              lastCc := some (hdrCc (headerWord s.pkt))
              started := false, curHl := 0, curPl := 0, cap := 0, woff := 0, overrun := false, buf := []
              lastResult := ⟨.truncatedInput, false⟩ } with
        hdr := tshDecode s.pkt 188, af := absorbAf s.pkt (headerWord s.pkt), pesh := .zero .truncatedInput
        result := ⟨.truncatedInput, false, false, some i⟩ }) ∧
    ((s.inst i).started = true → (s.inst i).woff.toNat < 2 ^ 31 →
      ∃ t, exec (.asmAbsorb i) s = .next t ∧ InstanceFrame i s t ∧
        t.result = ⟨.truncatedInput, false, true, some i⟩ ∧ t.pesh = .zero .truncatedInput ∧
        t.inst i = { a with
          lastCc := some (hdrCc (headerWord s.pkt))
          started := false, curHl := 0, curPl := 0, cap := 0, woff := 0, overrun := false, buf := []
          prevHl := a.curHl, prevDl := BitVec.ofInt 32 ((a.woff.toNat : Int) - (a.curHl.toNat : Int))
          lastResult := ⟨.truncatedInput, false⟩ } ∧
        t.sink i = (if a.curHl.toNat < a.woff.toNat then
          s.sink i ++ [flushedBytes s i a.curHl.toNat a.woff.toNat] else s.sink i))

/-- R214: PUSI = 1 while started. `PREV_HL` and `PREV_DL` are the old packet's, its bytes `[CUR_HL, WOFF)` are flushed
as one write (none if the range is empty), and the Start runs on a fresh buffer; the flush stays if the Start fails.
Cells that hold no byte are sent as the model's free bytes (log entry 3). Premise: `WOFF < WOFF_LIMIT`, which
`StepKeepsInvariant` gives. -/
def Obligations.AbsorbFinishesThenStarts : Prop :=
  ∀ (s : State) (i : InstId), ReachesStateMachine s i → hdrPusi (headerWord s.pkt) = true →
    (s.inst i).started = true → (s.inst i).woff.toNat < 2 ^ 31 →
    let a := s.inst i
    let g := peshDecode s.pkt (absorbOffset s.pkt) (absorbSize s.pkt)
    let cap : Word := if g.pktLen = 0 then s.params.capUnbounded else BitVec.ofNat 32 (g.pktLen.toNat + 6)
    ∃ t, exec (.asmAbsorb i) s = .next t ∧ InstanceFrame i s t ∧
      t.sink i = (if a.curHl.toNat < a.woff.toNat then
        s.sink i ++ [flushedBytes s i a.curHl.toNat a.woff.toNat] else s.sink i) ∧
      t.hdr = tshDecode s.pkt 188 ∧ t.af = absorbAf s.pkt (headerWord s.pkt) ∧ t.pesh = g ∧
      (t.inst i).prevHl = a.curHl ∧ (t.inst i).prevDl.toInt = (a.woff.toNat : Int) - (a.curHl.toNat : Int) ∧
      (t.inst i).active = a.active ∧ (t.inst i).pid = a.pid ∧
      (t.inst i).lastCc = some (hdrCc (headerWord s.pkt)) ∧
      (g.status = .ok →
        t.result = ⟨.assemblingFinishedAndStarted, false, true, some i⟩ ∧
        (t.inst i).lastResult = ⟨.assemblingFinishedAndStarted, false⟩ ∧ (t.inst i).started = true ∧
        (t.inst i).curHl = g.headerLength ∧ (t.inst i).curPl = g.pktLen ∧ (t.inst i).cap = cap ∧
        (t.inst i).woff.toNat = absorbSize s.pkt ∧ (t.inst i).overrun = decide (cap.toNat < absorbSize s.pkt) ∧
        (t.inst i).buf = (if absorbSize s.pkt ≤ cap.toNat then
          cellsFrom 0 (s.pkt.bytes (absorbOffset s.pkt) (absorbSize s.pkt)) else [])) ∧
      (g.status ≠ .ok →
        t.result = ⟨.truncatedInput, false, true, some i⟩ ∧ t.pesh = .zero .truncatedInput ∧
        (t.inst i).lastResult = ⟨.truncatedInput, false⟩ ∧ (t.inst i).started = false ∧
        (t.inst i).curHl = 0 ∧ (t.inst i).curPl = 0 ∧ (t.inst i).cap = 0 ∧ (t.inst i).woff = 0 ∧
        (t.inst i).overrun = false ∧ (t.inst i).buf = [])

/-- R215: PUSI = 0 while started. The payload is appended if it fits; when a bounded packet is then exactly full,
`[CUR_HL, WOFF)` is flushed, cells that hold no byte as the model's free bytes (log entry 3), and the instance is not
started any more. -/
def Obligations.AbsorbContinuesPacket : Prop :=
  ∀ (s : State) (i : InstId), ReachesStateMachine s i → hdrPusi (headerWord s.pkt) = false →
    (s.inst i).started = true → (s.inst i).woff.toNat + absorbSize s.pkt < 2 ^ 31 →
    let a := s.inst i
    let woff := a.woff.toNat + absorbSize s.pkt
    let b : Assembler := { a with
      lastCc := some (hdrCc (headerWord s.pkt))
      woff := BitVec.ofNat 32 woff
      overrun := a.overrun || decide (a.cap.toNat < woff)
      buf := if woff ≤ a.cap.toNat then
          a.buf.writeRun a.woff.toNat (s.pkt.bytes (absorbOffset s.pkt) (absorbSize s.pkt))
        else a.buf }
    ∃ t, exec (.asmAbsorb i) s = .next t ∧ InstanceFrame i s t ∧
      t.hdr = tshDecode s.pkt 188 ∧ t.af = absorbAf s.pkt (headerWord s.pkt) ∧ t.pesh = .zero .notRun ∧
      (a.curPl ≠ 0 ∧ woff = a.cap.toNat →
        t.inst i = { b with started := false, lastResult := ⟨.assemblingFinished, false⟩ } ∧
        t.result = ⟨.assemblingFinished, false, true, some i⟩ ∧
        t.sink i = (if a.curHl.toNat < woff then
          s.sink i ++ [(List.range (woff - a.curHl.toNat)).map fun k =>
            if a.curHl.toNat + k < a.cap.toNat then
              (b.buf.read? (a.curHl.toNat + k)).getD (Config.freeByte (s.draws + k))
            else Config.freeByte (s.draws + k)]
        else s.sink i)) ∧
      (¬ (a.curPl ≠ 0 ∧ woff = a.cap.toNat) →
        t.inst i = { b with lastResult := ⟨.assemblingContinue, false⟩ } ∧
        t.result = ⟨.assemblingContinue, false, false, some i⟩ ∧ t.sink i = s.sink i)

/-- R216: PUSI = 0 and not started. Nothing is appended or sent; `LAST_CC` and `LAST_RESULT` change, and the result
is `UNEXPECTED_PID` with `NTC = 1`. -/
def Obligations.AbsorbHasNothingToContinue : Prop :=
  ∀ (s : State) (i : InstId), ReachesStateMachine s i → hdrPusi (headerWord s.pkt) = false →
    (s.inst i).started = false →
    exec (.asmAbsorb i) s = .next
        { s.setInst i { s.inst i with
            lastCc := some (hdrCc (headerWord s.pkt)), lastResult := ⟨.unexpectedPid, true⟩ } with
      hdr := tshDecode s.pkt 188, af := absorbAf s.pkt (headerWord s.pkt), pesh := .zero .notRun
      result := ⟨.unexpectedPid, true, false, some i⟩ }

/-- R217: the bounded append, cell by cell. It refuses at `WOFF_LIMIT`; `WOFF` advances by `size` either way; if the
payload fits every byte of it is written and nothing else, else nothing is and `OVERRUN` is set. -/
def Obligations.AppendWritesAllOrNothing : Prop :=
  ∀ (p : Packet) (off size : Nat) (a : Assembler),
    (append p off size a = none ↔ 2 ^ 31 ≤ a.woff.toNat + size) ∧
    ∀ b, append p off size a = some b →
      b.woff.toNat = a.woff.toNat + size ∧
      { b with buf := a.buf, woff := a.woff, overrun := a.overrun } = a ∧
      (a.woff.toNat + size ≤ a.cap.toNat →
        b.overrun = a.overrun ∧ ∀ k, b.buf.read? k =
          if a.woff.toNat ≤ k ∧ k < a.woff.toNat + size then some (p.byte (off + (k - a.woff.toNat)))
          else a.buf.read? k) ∧
      (a.cap.toNat < a.woff.toNat + size → b.overrun = true ∧ b.buf = a.buf)

/-- R218, R65: without an overrun the flush of a packet in progress depends on no draw; it sends exactly the bytes
stored from `CUR_HL` on. `AsmWf` is the invariant `StepKeepsInvariant` keeps. -/
def Obligations.FlushIsExactWithoutOverrun : Prop :=
  ∀ (ps : Params) (a : Assembler) (draw : Nat), AsmWf ps a → a.overrun = false →
    (flushBytes a a.curHl.toNat a.woff.toNat draw).length = a.woff.toNat - a.curHl.toNat ∧
    ∀ k, k < a.woff.toNat - a.curHl.toNat →
      ∃ b, a.buf.read? (a.curHl.toNat + k) = some b ∧ (flushBytes a a.curHl.toNat a.woff.toNat draw)[k]? = some b

/-- R203: an ASM_ABSORB that passes R274's checks completes with a result about its instance whenever no append can
reach `WOFF_LIMIT`, whatever the packet. -/
def Obligations.AbsorbCompletes : Prop :=
  ∀ (s : State) (i : InstId), AbsorbEnabled s i → WoffRoom (s.inst i) →
    ∃ t, exec (.asmAbsorb i) s = .next t ∧ InstanceFrame i s t ∧ t.result.inst = some i ∧
      t.result.code ∈ [ResultCode.truncatedInput, .malformedField, .unexpectedPid, .streamPacketLost,
        .assemblingStarted, .assemblingContinue, .assemblingFinished, .assemblingFinishedAndStarted]

/-- R223: ASM_ABSORB is refused exactly when a Continue append would make `WOFF` reach `2^31`. -/
def Obligations.AbsorbRefusesExactlyAtLimit : Prop :=
  ∀ (s : State) (i : InstId) (r : Refusal),
    exec (.asmAbsorb i) s = .refused r ↔
      r = .woffOverflow ∧ ReachesStateMachine s i ∧ hdrPusi (headerWord s.pkt) = false ∧
        (s.inst i).started = true ∧ 2 ^ 31 ≤ (s.inst i).woff.toNat + absorbSize s.pkt

/-- The memory frame of ASM_ABSORB: the packet and every other buffer read as before, and for a packet that starts
nothing every cell outside the run the append stores to reads as before. -/
def Obligations.AbsorbStoresOnlyItsPayload : Prop :=
  ∀ (s t : State) (i : InstId), exec (.asmAbsorb i) s = .next t →
    (∀ k, t.pkt.byte k = s.pkt.byte k) ∧
    (∀ j, j ≠ i → (t.inst j).buf = (s.inst j).buf) ∧
    (hdrPusi (headerWord s.pkt) = false →
      ∀ k, ¬ ((s.inst i).woff.toNat ≤ k ∧ k < (s.inst i).woff.toNat + absorbSize s.pkt) →
        (t.inst i).buf.read? k = (s.inst i).buf.read? k)

/-- R219, R46: `FLUSHED` tells a flush. It is set only if a packet was in progress, and after it that packet can not be
flushed again: the instance is not started, or its buffer has been replaced by the new packet's; without it no sink
changes. -/
def Obligations.FlushHappensOncePerPacket : Prop :=
  ∀ (s t : State) (i : InstId), exec (.asmAbsorb i) s = .next t →
    (t.result.flushed = true →
      (s.inst i).started = true ∧
      ((t.inst i).started = false ∨
        ((t.inst i).woff.toNat = absorbSize s.pkt ∧
          ∀ k b, (t.inst i).buf.read? k = some b → b = s.pkt.byte (absorbOffset s.pkt + k)))) ∧
    (t.result.flushed = false → ∀ j, t.sink j = s.sink j)

/-! ### Whole packets (44_packet_process.md) -/

/-- R251, R253: a short header, a bad sync byte and an untracked PID end PKT_PROCESS before any absorb step: only the
groups and `RESULT` change, with AF and PESH `NOT_RUN`. -/
def Obligations.PktProcessFilters : Prop :=
  ∀ s : State, s.pktLen.toNat ≤ 188 →
    let ended (code : ResultCode) : Host.Outcome State Fault Refusal := .next { s with
      hdr := tshDecode s.pkt s.pktLen.toNat, af := .zero .notRun, pesh := .zero .notRun
      result := ⟨code, false, false, none⟩ }
    (s.pktLen.toNat < 4 → exec .pktProcess s = ended .truncatedInput) ∧
    (4 ≤ s.pktLen.toNat → s.pkt.byte 0 ≠ 0x47 →
      exec .pktProcess s = ended .invalidSync ∧ (tshDecode s.pkt s.pktLen.toNat).syncOk = false) ∧
    (4 ≤ s.pktLen.toNat → s.pkt.byte 0 = 0x47 → (∀ i, ¬ Matches s i) →
      exec .pktProcess s = ended .unexpectedPid)

/-- R252: every active instance tracking the PID absorbs the packet, in ascending index order, each from its own
registers; no other instance and no other sink changes. `d` numbers the draws each step starts from (the model's
choice, log entry 3). -/
def Obligations.PktProcessDispatches : Prop :=
  ∀ s t : State, ReachesDispatch s → exec .pktProcess s = .next t →
    ∃ (d : InstId → Nat) (o : InstId → AbsorbOut),
      (∀ i, Matches s i →
        absorb s.params s.pkt s.pktLen.toNat (d i) (s.inst i) = some (o i) ∧ t.inst i = (o i).asm ∧
        t.sink i = (if (o i).sink = [] then s.sink i else s.sink i ++ [(o i).sink])) ∧
      (∀ i, ¬ Matches s i → t.inst i = s.inst i ∧ t.sink i = s.sink i) ∧
      (∀ i j, Matches s i → Matches s j → i < j → d i + (o i).drawn ≤ d j)

/-- R254: with several matches `RESULT` and the groups are those of the lowest matching index. -/
def Obligations.PktProcessReportsLowestMatch : Prop :=
  ∀ (s t : State) (j : InstId), ReachesDispatch s → Matches s j → (∀ i, Matches s i → j ≤ i) →
    exec .pktProcess s = .next t →
      ∃ o, absorb s.params s.pkt s.pktLen.toNat s.draws (s.inst j) = some o ∧
        t.result = ⟨o.code, o.ntc, o.flushed, some j⟩ ∧ t.hdr = o.hdr ∧ t.af = o.af ∧ t.pesh = o.pesh

/-- R256: PKT_PROCESS refuses exactly when the absorb step of some matching instance refuses. -/
def Obligations.PktProcessRefusesWithAnyMatch : Prop :=
  ∀ (s : State) (r : Refusal),
    exec .pktProcess s = .refused r ↔
      r = .woffOverflow ∧ ReachesDispatch s ∧
        ∃ i, Matches s i ∧ ∀ draw, absorb s.params s.pkt s.pktLen.toNat draw (s.inst i) = none

/-- PKT_PROCESS with `PKT_LEN ≤ 188` completes whenever no append can reach `WOFF_LIMIT`, whatever the packet and
whichever instances track it (R250). -/
def Obligations.PktProcessCompletes : Prop :=
  ∀ s : State, s.pktLen.toNat ≤ 188 → (∀ i, WoffRoom (s.inst i)) →
    ∃ t, exec .pktProcess s = .next t ∧ CommandFrame s t ∧
      t.result.code ∈ [ResultCode.truncatedInput, .malformedField, .unexpectedPid, .streamPacketLost,
        .assemblingStarted, .assemblingContinue, .assemblingFinished, .assemblingFinishedAndStarted, .invalidSync]

/-- With one matching instance PKT_PROCESS does exactly what ASM_ABSORB on it does (R250), the model's own count of draws
(log entry 3) included. -/
def Obligations.PktProcessWithOneMatchIsAbsorb : Prop :=
  ∀ (s : State) (j : InstId), ReachesDispatch s → Matches s j → (∀ i, Matches s i → i = j) →
    exec .pktProcess s = exec (.asmAbsorb j) s

/-! ### The whole machine -/

/-- R30: each command writes `RESULT` and exactly the groups its rule names; `ILLEGAL_COMMAND` writes `RESULT` only. A
decode command writes its own group and keeps the other two, ASM_INIT and ASM_RELEASE keep all three, ASM_ABSORB and
PKT_PROCESS write all three. Which paths of theirs evaluate a group is R204's and R250's: AF when a whole packet of the
PID has a field, PESH when the state machine is reached with PUSI = 1; on every other path the group is `NOT_RUN` with
every field 0. -/
def Obligations.CommandsWriteTheirGroupsOnly : Prop :=
  ∀ (c : Instr) (s t : State), exec c s = .next t →
    (t.result.code = .illegalCommand → t = { s with result := t.result }) ∧
    (t.result.code ≠ .illegalCommand →
      (c = .tshDecode → t.hdr = tshDecode s.pkt s.pktLen.toNat ∧ t.af = s.af ∧ t.pesh = s.pesh ∧
        t.result = ⟨t.hdr.status, false, false, none⟩) ∧
      (c = .afDecode → t.hdr = s.hdr ∧ t.af = afDecode s.pkt s.pktLen.toNat ∧ t.pesh = s.pesh ∧
        t.result = ⟨t.af.status, false, false, none⟩) ∧
      (∀ ofs, c = .peshDecode ofs → t.hdr = s.hdr ∧ t.af = s.af ∧
        t.pesh = peshDecode s.pkt ofs.toNat (s.pktLen.toNat - ofs.toNat) ∧
        t.result = ⟨t.pesh.status, false, false, none⟩) ∧
      (∀ i, (c = .asmRelease i ∨ ∃ pid, c = .asmInit i pid) → t.hdr = s.hdr ∧ t.af = s.af ∧ t.pesh = s.pesh ∧
        t.result = ⟨.ok, false, false, some i⟩) ∧
      (∀ i, c = .asmAbsorb i → AbsorbGroups s t i ∧ t.result.inst = some i) ∧
      (c = .pktProcess →
        (¬ ReachesDispatch s ∨ (∀ i, ¬ Matches s i) →
          t.hdr = tshDecode s.pkt s.pktLen.toNat ∧ t.af = .zero .notRun ∧ t.pesh = .zero .notRun ∧
          t.result.inst = none) ∧
        ∀ j, ReachesDispatch s → Matches s j → (∀ i, Matches s i → j ≤ i) →
          AbsorbGroups s t j ∧ t.result.inst = some j))

/-- No command changes the parameters, the packet, `PKT_LEN` or the mark (R45, R23, R24, R44), and the decode commands
change no instance and no sink (R121, R149, R178). That none changes the host port's fields `pending` and `readData`,
and that the decode commands take no draw, is about the model's own fields (log entries 2, 5 and 3). -/
def Obligations.CommandsLeaveHostStateAlone : Prop :=
  ∀ (c : Instr) (s t : State), exec c s = .next t →
    CommandFrame s t ∧
    ((c = .tshDecode ∨ c = .afDecode ∨ ∃ ofs, c = .peshDecode ofs) →
      t.insts = s.insts ∧ t.sinks = s.sinks ∧ t.draws = s.draws)

/-- R220: a command on instance `i` changes no other instance's registers or sink, and what it leaves in its own depends
on its own registers, the packet and the parameters: two states that agree on them, and on the count of draws, agree
after it. The draws number the bytes that cells without a byte are sent as, which is the model's choice (log entry 3). -/
def Obligations.InstancesAreIndependent : Prop :=
  ∀ (s t : State) (i : InstId) (c : Instr), (c = .asmAbsorb i ∨ c = .asmRelease i ∨ ∃ pid, c = .asmInit i pid) →
    exec c s = .next t →
      InstanceFrame i s t ∧
      ∀ s' : State, s'.params = s.params → s'.pkt = s.pkt → s'.pktLen = s.pktLen → s'.draws = s.draws →
        s'.inst i = s.inst i →
        ∃ t', exec c s' = .next t' ∧ t'.inst i = t.inst i ∧ t'.result = t.result ∧
          ∃ w : List (List Byte), t.sink i = s.sink i ++ w ∧ t'.sink i = s'.sink i ++ w

/-- R122, R125: the absorb step reads none of the sync byte, TEI, TP and TSC, and PKT_PROCESS none of TEI, TP and TSC:
packets that differ only there are assembled alike. That the sinks agree in the bytes of cells that hold none, and the
counts of draws agree, is the model's numbering of draws (log entry 3). -/
def Obligations.UnusedHeaderBitsAreNotActedOn : Prop :=
  ∀ (s : State) (q : Packet), SameActedOn s.pkt q →
    (∀ (i : InstId) (t : State), exec (.asmAbsorb i) s = .next t →
      ∃ t', exec (.asmAbsorb i) { s with pkt := q } = .next t' ∧ SameButHeader t t') ∧
    (q.byte 0 = s.pkt.byte 0 → ∀ t : State, exec .pktProcess s = .next t →
      ∃ t', exec .pktProcess { s with pkt := q } = .next t' ∧ SameButHeader t t')

/-- R43, R66: no step removes from a sink; a step adds to each sink nothing or one non-empty bulk write at its end. -/
def Obligations.SinksOnlyGrowByWholeWrites : Prop :=
  ∀ s t : State, step s = .next t → ∀ i, t.sink i = s.sink i ∨ ∃ w, w ≠ [] ∧ t.sink i = s.sink i ++ [w]

/-- Every step keeps the state invariant: the buffers keep their canonical form below `CAP` and `WOFF`, `WOFF` stays
below its limit, the groups are as their statuses say, the parameters stay legal. The canonical form, the count of
draws and the storage of absent instances are the model's own (log entries 9, 3, 4 and 6). -/
def Obligations.StepKeepsInvariant : Prop :=
  ∀ s t : State, StateWf s → step s = .next t → StateWf t

/-- The state after reset meets the invariant, for every legal choice of the parameters, and so does `State.reset`,
whose parameters, sinks and mark are the model's choice (log entries 1, 8). -/
def Obligations.ResetMeetsInvariant : Prop :=
  (∀ p : Params, p.legal → Good (State.resetWith p)) ∧ Good State.reset

/-- R44: `REFUSED` is set only by a refusal for `WOFF`, and never cleared, not even by reset. How the mark is
set is the model's choice (log entry 7). -/
def Obligations.RefusedMarkIsSticky : Prop :=
  (∀ s : State, s.refused = false → ((markedStep s).refused = true ↔ step s = .refused .woffOverflow)) ∧
  (∀ (n : Nat) (s : State), s.refused = true → (markedRun n s).refused = true) ∧
  (∀ s : State, s.hostReset.refused = s.refused)

/-! ### The host (20_memory.md, 70_reset_and_hazards.md) -/

/-- R47, R300: reset is one step; it gives every register its value of R47, leaves the sinks, `REFUSED` and the
parameters, and flushes nothing. -/
def Obligations.ResetGivesResetValues : Prop :=
  ∀ (s : State) (rest : List HostAccess), s.refused = false → s.pending = .reset :: rest →
    ∃ t, step s = .next t ∧
      t.pktLen = 0 ∧ t.result.word = 0x00001F0C ∧
      t.hdr = ⟨.notRun, false, 0⟩ ∧
      t.af = ⟨.notRun, 0, 0, 0, 0, 0, 0, 0, 0, 0, 0, 0, 0, 0⟩ ∧
      t.pesh = ⟨.notRun, 0, false, 0, 0, 0, 0, 0, false, false, 0, 0, 0⟩ ∧
      (∀ i, t.inst i = ⟨false, 0, [], 0, 0, none, false, 0, 0, 0, 0, false, ⟨.notRun, false⟩⟩) ∧
      t.sinks = s.sinks ∧ t.refused = s.refused ∧ t.params = s.params

/-- The model's own side of reset (log entries 2, 3, 4, 5): every packet byte becomes a draw that no packet byte or
flush has had before, the queue goes on, and the last read stays. -/
def Obligations.ResetRedrawsThePacket : Prop :=
  ∀ (s : State) (rest : List HostAccess), s.refused = false → s.pending = .reset :: rest →
    ∃ t, step s = .next t ∧ (∀ k, k < 188 → t.pkt.byte k = Config.freeByte (s.draws + k)) ∧
      t.draws = s.draws + 188 ∧ t.pending = rest ∧ t.readData = s.readData

/-- R67: a host read returns the register's value and changes nothing of the block, so a second read returns the same
value. `readData` is the model's own field (log entry 5). -/
def Obligations.HostReadsHaveNoEffect : Prop :=
  ∀ (s : State) (width : Width) (addr : Nat) (rest : List HostAccess), s.refused = false →
    s.pending = .read width addr :: rest →
      ∃ t, step s = .next t ∧ t = { s with pending := rest, readData := s.hostRead width addr } ∧
        ∀ (w : Width) (a : Nat), t.hostRead w a = s.hostRead w a

/-- R72 and R63: the access rules. Writes to read-only registers and to addresses not in R71 are ignored and reads of such
addresses give 0, and so it is with accesses of another width than R63 gives the address: a word access to the packet
bytes, a byte access anywhere else, and the half width, which stands for every width R63 does not name (log entry 10).
`PKT_LEN` takes bits 7:0; a write to `CMD` issues the command; nothing faults (log entry 11). -/
def Obligations.HostAccessRules : Prop :=
  ∀ (s : State) (data : Word),
    (∀ r ∈ hostRegs, r ≠ .pktLen → perform (.write .word r.addr data) s = .next s) ∧
    (∀ addr, addr ≠ 0x000 → (∀ r ∈ hostRegs, r.addr ≠ addr) →
      s.hostRead .word addr = 0 ∧ perform (.write .word addr data) s = .next s) ∧
    (∀ addr, ¬ (0x100 ≤ addr ∧ addr < 0x100 + 188) →
      s.hostRead .byte addr = 0 ∧ perform (.write .byte addr data) s = .next s) ∧
    (∀ addr, s.hostRead .half addr = 0 ∧ perform (.write .half addr data) s = .next s) ∧
    perform (.write .word 0x008 data) s = .next { s with pktLen := BitVec.ofNat 8 data.toNat } ∧
    perform (.write .word 0x000 data) s = issue data s ∧
    (∀ (x : HostAccess) (f : Fault), perform x s ≠ .fault f)

/-- R63, R71: a byte write to `0x100 + k` writes `PKT[k]` and nothing else, and the byte read back is the one written.
Packet bytes keep the model's canonical form and its number of the draws (log entries 9 and 4). -/
def Obligations.PacketBytesReadBack : Prop :=
  ∀ (s : State) (k : Nat) (data : Word), k < 188 →
    ∃ t, perform (.write .byte (0x100 + k) data) s = .next t ∧
      t = { s with pkt := t.pkt } ∧ t.pkt.epoch = s.pkt.epoch ∧
      (∀ j, t.pkt.byte j = if j = k then BitVec.ofNat 8 data.toNat else s.pkt.byte j) ∧
      t.hostRead .byte (0x100 + k) = BitVec.ofNat 32 (data.toNat % 256) ∧
      (Memory.wf s.pkt.cells → Memory.wf t.pkt.cells)

/-- The numbers R96 gives the result codes. -/
def codeNumber : ResultCode → Nat
  | .ok => 0
  | .truncatedInput => 1
  | .malformedField => 2
  | .unexpectedPid => 3
  | .streamPacketLost => 4
  | .assemblingStarted => 5
  | .assemblingContinue => 6
  | .assemblingFinished => 7
  | .assemblingFinishedAndStarted => 8
  | .illegalCommand => 9
  | .invalidSync => 10
  | .notPresent => 11
  | .notRun => 12

/-- R71's map at 0x000..0x024, with R26's fields of `RESULT`, R45's of `CFG` and R71's of `HDR_STAT`; a bit not named
is 0. -/
def ShowsControlAndHeader (s : State) : Prop :=
  let reg (addr : Nat) : Nat := (s.hostRead .word addr).toNat
  reg 0x000 = 0 ∧
  reg 0x004 = codeNumber s.result.code + 2 ^ 4 * s.result.ntc.toNat + 2 ^ 5 * s.result.flushed.toNat +
    2 ^ 8 * (match s.result.inst with | none => 0x1F | some i => i.val) ∧
  reg 0x008 = s.pktLen.toNat ∧
  (s.params.legal → reg 0x00C = s.params.nAsm + (if s.params.ccFirst = .any then 2 ^ 8 else 0) +
    (if s.params.ccAdvanceOnLoss then 2 ^ 9 else 0)) ∧
  reg 0x010 = s.params.capUnbounded.toNat ∧
  reg 0x020 = s.hdr.word.toNat ∧
  reg 0x024 = codeNumber s.hdr.status + 2 ^ 4 * s.hdr.syncOk.toNat

/-- R71's map at 0x040..0x068, the AF group. -/
def ShowsAfGroup (s : State) : Prop :=
  let reg (addr : Nat) : Nat := (s.hostRead .word addr).toNat
  reg 0x040 = codeNumber s.af.status ∧
  reg 0x044 = s.af.length.toNat + 2 ^ 8 * s.af.flags.toNat + 2 ^ 16 * s.af.stuffing.toNat +
    2 ^ 24 * s.af.spliceCd.toNat ∧
  reg 0x048 = s.af.privLen.toNat + 2 ^ 8 * s.af.extLen.toNat + 2 ^ 16 * s.af.consumed.toNat ∧
  reg 0x04C = s.af.pcrBase.toNat % 2 ^ 32 ∧
  reg 0x050 = s.af.pcrBase.toNat / 2 ^ 32 + 2 ^ 16 * s.af.pcrExt.toNat ∧
  reg 0x054 = s.af.pcrTime.toNat % 2 ^ 32 ∧
  reg 0x058 = s.af.pcrTime.toNat / 2 ^ 32 ∧
  reg 0x05C = s.af.opcrBase.toNat % 2 ^ 32 ∧
  reg 0x060 = s.af.opcrBase.toNat / 2 ^ 32 + 2 ^ 16 * s.af.opcrExt.toNat ∧
  reg 0x064 = s.af.opcrTime.toNat % 2 ^ 32 ∧
  reg 0x068 = s.af.opcrTime.toNat / 2 ^ 32

/-- R71's map at 0x080..0x09C, the PESH group. -/
def ShowsPeshGroup (s : State) : Prop :=
  let reg (addr : Nat) : Nat := (s.hostRead .word addr).toNat
  reg 0x080 = codeNumber s.pesh.status + 2 ^ 4 * s.pesh.startOk.toNat + 2 ^ 5 * s.pesh.ptsF.toNat +
    2 ^ 6 * s.pesh.dtsF.toNat ∧
  reg 0x084 = s.pesh.startCode.toNat + 2 ^ 24 * s.pesh.streamId.toNat ∧
  reg 0x088 = s.pesh.pktLen.toNat + 2 ^ 16 * s.pesh.headerLength.toNat ∧
  reg 0x08C = s.pesh.flags1.toNat + 2 ^ 8 * s.pesh.flags2.toNat + 2 ^ 16 * s.pesh.hdrDataLen.toNat ∧
  reg 0x090 = s.pesh.pts.toNat % 2 ^ 32 ∧
  reg 0x094 = s.pesh.pts.toNat / 2 ^ 32 ∧
  reg 0x098 = s.pesh.dts.toNat % 2 ^ 32 ∧
  reg 0x09C = s.pesh.dts.toNat / 2 ^ 32

/-- R71's map of the block of instance `i`; `LAST_CC` is 5-bit two's complement with -1 for none yet (R36), and
`LAST_RESULT` has `NTC` above the code (R41). -/
def ShowsInstance (s : State) (i : InstId) : Prop :=
  let a := s.inst i
  let reg (off : Nat) : Word := s.hostRead .word (0x400 + 0x40 * i.val + off)
  (reg 0x00).toNat = a.active.toNat + 2 * a.started.toNat + 2 ^ 2 * a.overrun.toNat + 2 ^ 8 * a.pid.toNat ∧
  (reg 0x04).toNat < 2 ^ 5 ∧
  ((reg 0x04).extractLsb' 0 5).toInt = (match a.lastCc with | none => -1 | some c => (c.toNat : Int)) ∧
  reg 0x08 = a.cap ∧
  reg 0x0C = a.woff ∧
  (reg 0x10).toNat = a.curHl.toNat + 2 ^ 16 * a.curPl.toNat ∧
  (reg 0x14).toNat = a.prevHl.toNat ∧
  (reg 0x18).toInt = a.prevDl.toInt ∧
  (reg 0x1C).toNat = codeNumber a.lastResult.code + 2 ^ 4 * a.lastResult.ntc.toNat

/-- R71, R26, R36, R41, R45, R25: every word register is read at its numeric address with the bit fields the map gives
it, and every bit not listed is 0. The registers of an instance at or above `N_ASM` and `CMD` read 0, and no two
registers share an address. -/
def Obligations.RegisterMapIsReadable : Prop :=
  (∀ r r' : HostReg, r.addr = r'.addr → r = r') ∧
  ∀ s : State,
    (∀ r : HostReg, s.hostRead .word r.addr = r.word s) ∧
    ShowsControlAndHeader s ∧ ShowsAfGroup s ∧ ShowsPeshGroup s ∧
    (∀ i : InstId, i.val < s.params.nAsm → ShowsInstance s i) ∧
    (∀ (i : InstId) (off : Nat), s.params.nAsm ≤ i.val → off < 0x40 →
      s.hostRead .word (0x400 + 0x40 * i.val + off) = 0)

/-- R73: the host cannot see a PES buffer: two states that differ only in buffers answer every host read alike. -/
def Obligations.BufferIsHiddenFromTheHost : Prop :=
  ∀ s t : State,
    (∀ i, t.inst i = { s.inst i with buf := (t.inst i).buf }) →
    { t with insts := s.insts } = s →
      ∀ (w : Width) (addr : Nat), t.hostRead w addr = s.hostRead w addr
end

