-- ==== Sys2Proof/Laws/Decode.lean ====
section
/-! SUPPORT. The command word: fields of an assembled word, the rows of R81 and what the decoder answers. -/

namespace Sys2Proof

/-! ### Fields of an assembled word (30_encoding.md R80) -/

/-- Where bit `k` of an assembled word comes from. -/
theorem assemble_getLsbD (opc : BitVec 4) (i : InstId) (ofs : Byte) (pid : Pid) (k : Nat) :
    (assemble opc i ofs pid).getLsbD k =
      if k < 13 then pid.getLsbD k
      else if k < 16 then false
      else if k < 24 then ofs.getLsbD (k - 16)
      else if k < 28 then (BitVec.ofNat 4 i.val).getLsbD (k - 24)
      else opc.getLsbD (k - 28) := by
  simp only [assemble, BitVec.getLsbD_append]
  simp only [Nat.sub_sub, Nat.reduceAdd]
  split_ifs <;> first | rfl | (exfalso; omega) | simp

@[simp] theorem opcField_assemble (opc : BitVec 4) (i : InstId) (ofs : Byte) (pid : Pid) :
    opcField (assemble opc i ofs pid) = opc := by
  ext k hk
  simp [opcField, assemble_getLsbD, hk, show ¬ 28 + k < 13 by omega, show ¬ 28 + k < 16 by omega,
    show ¬ 28 + k < 24 by omega]

@[simp] theorem ofsField_assemble (opc : BitVec 4) (i : InstId) (ofs : Byte) (pid : Pid) :
    ofsField (assemble opc i ofs pid) = ofs := by
  ext k hk
  simp [ofsField, assemble_getLsbD, hk, show ¬ 16 + k < 13 by omega, show 16 + k < 24 by omega]

@[simp] theorem pidField_assemble (opc : BitVec 4) (i : InstId) (ofs : Byte) (pid : Pid) :
    pidField (assemble opc i ofs pid) = pid := by
  ext k hk
  simp [pidField, assemble_getLsbD, hk]

@[simp] theorem instField_assemble (opc : BitVec 4) (i : InstId) (ofs : Byte) (pid : Pid) :
    instField (assemble opc i ofs pid) = i := by
  have h : (assemble opc i ofs pid).extractLsb' 24 4 = BitVec.ofNat 4 i.val := by
    ext k hk
    rw [← BitVec.getLsbD_eq_getElem hk, ← BitVec.getLsbD_eq_getElem hk, BitVec.getLsbD_extractLsb',
      assemble_getLsbD]
    simp only [show ¬ 24 + k < 13 by omega, show ¬ 24 + k < 16 by omega, show ¬ 24 + k < 24 by omega,
      show 24 + k < 28 by omega, if_true, if_false, Nat.add_sub_cancel_left, hk, decide_true, Bool.true_and]
  apply Fin.ext
  rw [instField, h, Fin.val_ofNat, BitVec.toNat_ofNat]
  omega

/-! ### The table (30_encoding.md R81) -/

/-- No opcode stands in two rows, so no word has two meanings. -/
theorem opcodeTable_opcodes_distinct : opcodeTable.Pairwise fun r r' => r.opc ≠ r'.opc := by decide

/-- Every row's match bits lie under its mask. -/
theorem opcodeTable_match_under_mask : ∀ r ∈ opcodeTable, r.matchBits &&& r.mask = r.matchBits := by decide

/-- Every row's opcode is in its match bits and under its mask. -/
theorem opcodeTable_opc_in_match :
    ∀ r ∈ opcodeTable, opcField r.matchBits = r.opc ∧ opcField r.mask = 0xF := by decide

theorem rowOf_mem {opc : BitVec 4} {r : Row} (h : rowOf opc = some r) : r ∈ opcodeTable ∧ r.opc = opc := by
  refine ⟨List.mem_of_find?_eq_some h, ?_⟩
  have := List.find?_some h
  simpa using this

/-- A row of the table is found by its own opcode. -/
theorem rowOf_opc : ∀ r ∈ opcodeTable, rowOf r.opc = some r := by decide

/-- A word that matches a row has the row's opcode. -/
theorem opcField_of_match {r : Row} (hr : r ∈ opcodeTable) {w : Word} (h : w &&& r.mask = r.matchBits) :
    opcField w = r.opc := by
  obtain ⟨hm, hk⟩ := opcodeTable_opc_in_match r hr
  have hand : opcField (w &&& r.mask) = opcField w &&& opcField r.mask := by
    simp [opcField, BitVec.extractLsb'_and]
  rw [h, hm, hk] at hand
  rw [hand]
  exact (BitVec.and_allOnes (x := opcField w)).symm

/-- What the decoder answers, once (R83): a word that matches a row is that row's command, any other is rejected. -/
theorem decode_ok_iff {w : Word} {c : Instr} :
    decode w = .ok c ↔ ∃ r ∈ opcodeTable, w &&& r.mask = r.matchBits ∧ operandsOf r.op w = c := by
  constructor
  · intro h
    unfold decode at h
    split at h
    · simp at h
    · next r hr =>
      split at h
      · next hm => exact ⟨r, (rowOf_mem hr).1, hm, by simpa using h⟩
      · simp at h
  · rintro ⟨r, hr, hm, rfl⟩
    unfold decode
    rw [opcField_of_match hr hm, rowOf_opc r hr]
    simp [hm]

/-- The decoder rejects exactly the words that match no row. -/
theorem decode_error_iff {w : Word} :
    (∃ e, decode w = .error e) ↔ ∀ r ∈ opcodeTable, w &&& r.mask ≠ r.matchBits := by
  constructor
  · rintro ⟨e, he⟩ r hr hm
    have := decode_ok_iff.2 ⟨r, hr, hm, rfl⟩
    simp [he] at this
  · intro h
    cases hd : decode w with
    | error e => exact ⟨e, rfl⟩
    | ok c =>
      obtain ⟨r, hr, hm, _⟩ := decode_ok_iff.1 hd
      exact absurd hm (h r hr)

end Sys2Proof
end

