-- ==== Sys2Proof/Laws/Memory.lean ====
section
/-! SUPPORT. Byte storage: what a read sees after a write, and that every write keeps the canonical form. -/

namespace Sys2Proof.Machine

@[simp] theorem read?_nil (k : Nat) : Memory.read? [] k = none := rfl

theorem read?_cons (a : Nat) (b : Byte) (m : Memory) (k : Nat) :
    Memory.read? ((a, b) :: m) k = if a = k then some b else Memory.read? m k := rfl

theorem read?_append (m m' : Memory) (k : Nat) :
    Memory.read? (m ++ m') k = (Memory.read? m k).or (Memory.read? m' k) := by
  induction m with
  | nil => simp
  | cons c m ih =>
    obtain ⟨a, b⟩ := c
    by_cases h : a = k <;> simp [read?_cons, h, ih]

theorem read?_eq_none_of_unlisted {m : Memory} {k : Nat} (h : ∀ c ∈ m, c.1 ≠ k) : Memory.read? m k = none := by
  induction m with
  | nil => rfl
  | cons c m ih =>
    obtain ⟨a, b⟩ := c
    rw [read?_cons, if_neg (h (a, b) (by simp)), ih fun c hc => h c (by simp [hc])]

theorem exists_mem_of_read? {m : Memory} {k : Nat} {b : Byte} (h : Memory.read? m k = some b) : (k, b) ∈ m := by
  induction m with
  | nil => simp at h
  | cons c m ih =>
    obtain ⟨a, v⟩ := c
    rw [read?_cons] at h
    split at h
    · next hk => simp_all
    · simp [ih h]

/-- A filter that keeps every cell at an offset does not change what is read there. -/
theorem read?_filter_keep {m : Memory} {f : Host.Cell → Bool} {k : Nat} (h : ∀ b, f (k, b) = true) :
    Memory.read? (m.filter f) k = Memory.read? m k := by
  induction m with
  | nil => rfl
  | cons c m ih =>
    obtain ⟨a, b⟩ := c
    by_cases hf : f (a, b) = true
    · rw [List.filter_cons_of_pos hf, read?_cons, read?_cons, ih]
    · rw [List.filter_cons_of_neg hf, read?_cons, if_neg, ih]
      rintro rfl
      exact hf (h b)

/-- A filter that drops every cell at an offset leaves nothing to read there. -/
theorem read?_filter_drop {m : Memory} {f : Host.Cell → Bool} {k : Nat} (h : ∀ b, f (k, b) = false) :
    Memory.read? (m.filter f) k = none := by
  refine read?_eq_none_of_unlisted fun c hc hk => ?_
  obtain ⟨a, b⟩ := c
  have := (List.mem_filter.1 hc).2
  simp only at hk
  rw [hk, h b] at this
  exact Bool.false_ne_true this

/-! ### A run of cells -/

theorem mem_cellsFrom {off : Nat} {bs : List Byte} {c : Host.Cell} (h : c ∈ cellsFrom off bs) :
    off ≤ c.1 ∧ c.1 < off + bs.length := by
  induction bs generalizing off with
  | nil => simp [cellsFrom] at h
  | cons b bs ih =>
    rcases List.mem_cons.1 h with rfl | h
    · simp
    · have := ih h
      simp only [List.length_cons]
      omega

theorem cellsFrom_wf (off : Nat) (bs : List Byte) : (cellsFrom off bs).wf := by
  induction bs generalizing off with
  | nil => exact List.Pairwise.nil
  | cons b bs ih =>
    refine List.Pairwise.cons (fun c hc => ?_) (ih (off + 1))
    have := mem_cellsFrom hc
    simp only
    omega

theorem read?_cellsFrom (off : Nat) (bs : List Byte) (k : Nat) :
    Memory.read? (cellsFrom off bs) k = if off ≤ k then bs[k - off]? else none := by
  induction bs generalizing off with
  | nil => simp [cellsFrom]
  | cons b bs ih =>
    rw [cellsFrom, read?_cons, ih]
    by_cases h : off = k
    · subst h; simp
    · by_cases h' : off + 1 ≤ k
      · rw [if_neg h, if_pos h', if_pos (by omega), show k - off = (k - (off + 1)) + 1 by omega]
        rfl
      · rw [if_neg h, if_neg h', if_neg (by omega)]

/-! ### Writes -/

/-- Read after write (20_memory.md R65): inside the run the byte written, elsewhere what was there. -/
theorem read?_writeRun (m : Memory) (off : Nat) (bs : List Byte) (k : Nat) :
    (m.writeRun off bs).read? k =
      if off ≤ k ∧ k < off + bs.length then bs[k - off]? else m.read? k := by
  rw [Memory.writeRun, read?_append, read?_append, read?_cellsFrom]
  by_cases hlo : k < off
  · rw [read?_filter_keep (by simp [hlo]), read?_filter_drop (f := fun c => decide (off + bs.length ≤ c.1))
      (by simp; omega)]
    simp [show ¬ off ≤ k by omega]
  · rw [read?_filter_drop (f := fun c => decide (c.1 < off)) (by simp; omega)]
    by_cases hhi : k < off + bs.length
    · rw [read?_filter_drop (by simp; omega)]
      simp [hhi, show off ≤ k by omega]
    · rw [read?_filter_keep (by simp; omega), List.getElem?_eq_none (by omega)]
      simp [hhi]

/-- A write keeps the canonical form. -/
theorem writeRun_wf {m : Memory} (h : m.wf) (off : Nat) (bs : List Byte) : (m.writeRun off bs).wf := by
  have hf (f : Host.Cell → Bool) : Memory.wf (m.filter f) := List.Pairwise.filter f h
  refine List.pairwise_append.2 ⟨List.pairwise_append.2 ⟨hf _, cellsFrom_wf off bs, ?_⟩, hf _, ?_⟩
  · intro c hc d hd
    have := (List.mem_filter.1 hc).2
    have := mem_cellsFrom hd
    simp at *
    omega
  · intro c hc d hd
    have hd := (List.mem_filter.1 hd).2
    rcases List.mem_append.1 hc with hc | hc
    · have := (List.mem_filter.1 hc).2
      simp at *
      omega
    · have := mem_cellsFrom hc
      simp at *
      omega

/-- A write below a bound leaves every listed offset below it. -/
theorem writeRun_below {m : Memory} {bound off : Nat} {bs : List Byte} (h : m.below bound)
    (hw : off + bs.length ≤ bound) : (m.writeRun off bs).below bound := by
  intro c hc
  rcases List.mem_append.1 hc with hc | hc
  · rcases List.mem_append.1 hc with hc | hc
    · exact h c (List.mem_filter.1 hc).1
    · exact Nat.lt_of_lt_of_le (mem_cellsFrom hc).2 hw
  · exact h c (List.mem_filter.1 hc).1

theorem write_wf {m : Memory} (h : m.wf) (k : Nat) (b : Byte) : (m.write k b).wf :=
  writeRun_wf h k [b]

theorem read?_write (m : Memory) (k j : Nat) (b : Byte) :
    (m.write k b).read? j = if k = j then some b else m.read? j := by
  rw [Memory.write, read?_writeRun]
  by_cases h : k = j
  · subst h; simp
  · have hk : ¬ (k ≤ j ∧ j < k + [b].length) := by simp; omega
    rw [if_neg hk, if_neg h]

theorem below_mono {m : Memory} {a b : Nat} (h : m.below a) (hab : a ≤ b) : m.below b :=
  fun c hc => Nat.lt_of_lt_of_le (h c hc) hab

/-! ### Packet reads -/

@[simp] theorem bytes_length (p : Packet) (off n : Nat) : (p.bytes off n).length = n := by
  simp [Packet.bytes]

theorem bytes_getElem? (p : Packet) (off n k : Nat) :
    (p.bytes off n)[k]? = if k < n then some (p.byte (off + k)) else none := by
  by_cases h : k < n <;> simp [Packet.bytes, h]

/-- A big-endian read of `n` bytes is below `2 ^ (8 * n)`. -/
theorem be_lt (p : Packet) (off n : Nat) : p.be off n < 2 ^ (8 * n) := by
  induction n with
  | zero => simp [Packet.be]
  | succ n ih =>
    have hb := (p.byte (off + n)).isLt
    have hp : 2 ^ (8 * (n + 1)) = 2 ^ (8 * n) * 256 := by rw [Nat.mul_add, Nat.pow_add]
    rw [Packet.be, hp]
    omega

/-- A big-endian read depends on its own bytes only. -/
theorem be_congr {p q : Packet} {off n : Nat} (h : ∀ k, k < n → p.byte (off + k) = q.byte (off + k)) :
    p.be off n = q.be off n := by
  induction n with
  | zero => rfl
  | succ n ih =>
    rw [Packet.be, Packet.be, ih fun k hk => h k (by omega), h n (by omega)]

theorem bytes_congr {p q : Packet} {off n : Nat} (h : ∀ k, k < n → p.byte (off + k) = q.byte (off + k)) :
    p.bytes off n = q.bytes off n := by
  refine List.map_congr_left fun k hk => h k (List.mem_range.1 hk)

/-- A header field read as a word has the value of its bytes. -/
theorem field_toNat {p : Packet} {off n w : Nat} (hw : 8 * n ≤ w) : (p.field off n w).toNat = p.be off n := by
  rw [Packet.field, BitVec.toNat_ofNat]
  exact Nat.mod_eq_of_lt (Nat.lt_of_lt_of_le (be_lt p off n) (Nat.pow_le_pow_right (by decide) hw))

end Sys2Proof.Machine
end

