-- ==== Sys2Proof/Laws/Decoders.lean ====
section
/-! SUPPORT. What the three decoders can answer: their cases, the groups they leave, and the bytes they depend on. -/

namespace Sys2Proof.Machine

/-! ### Header (40_ts_header.md) -/

theorem tshDecode_short {p : Packet} {n : Nat} (h : n < 4) : tshDecode p n = .zero .truncatedInput := by
  simp [tshDecode, h]

theorem tshDecode_full {p : Packet} {n : Nat} (h : 4 ≤ n) :
    tshDecode p n = ⟨.ok, syncOkOf (p.field 0 4 32), p.field 0 4 32⟩ := by
  simp [tshDecode, show ¬ n < 4 by omega]

theorem tshDecode_status_ok_iff {p : Packet} {n : Nat} : (tshDecode p n).status = .ok ↔ 4 ≤ n := by
  by_cases h : n < 4
  · simp only [tshDecode_short h, HdrGroup.zero, reduceCtorEq, false_iff]; omega
  · simp only [tshDecode_full (Nat.le_of_not_lt h), true_iff]; omega

theorem tshDecode_wf (p : Packet) (n : Nat) : HdrWf (tshDecode p n) := by
  by_cases h : n < 4
  · rw [tshDecode_short h]
    exact ⟨.inr (.inl rfl), by simp [HdrGroup.zero]⟩
  · rw [tshDecode_full (Nat.le_of_not_lt h)]
    exact ⟨.inl rfl, fun _ => by simp [syncOkOf, Bool.beq_eq_decide_eq]⟩

theorem hdrZero_wf (st : ResultCode) (h : st = .truncatedInput ∨ st = .notRun) : HdrWf (.zero st) := by
  rcases h with rfl | rfl
  · exact ⟨.inr (.inl rfl), by simp [HdrGroup.zero]⟩
  · exact ⟨.inr (.inr rfl), by simp [HdrGroup.zero]⟩

/-- The header word is the four bytes, the first the most significant (30_encoding.md R84). -/
theorem field_header_toNat (p : Packet) :
    (p.field 0 4 32).toNat =
      (p.byte 0).toNat * 2 ^ 24 + (p.byte 1).toNat * 2 ^ 16 + (p.byte 2).toNat * 2 ^ 8 + (p.byte 3).toNat := by
  rw [field_toNat (by decide)]
  simp only [Packet.be, Nat.zero_add]
  omega

/-- The last header byte is the low byte of the word, so AFC and CC are its bits. -/
theorem field_header_low (p : Packet) : (p.field 0 4 32).extractLsb' 0 8 = p.byte 3 := by
  apply BitVec.eq_of_toNat_eq
  have := (p.byte 3).isLt
  rw [BitVec.extractLsb'_toNat, field_header_toNat, Nat.shiftRight_zero]
  omega

theorem hdrAfc_field (p : Packet) : hdrAfc (p.field 0 4 32) = p.afc := by
  rw [Packet.afc, ← field_header_low, hdrAfc]
  ext k hk
  simp

/-! ### Adaptation field (41_adaptation_field.md) -/

theorem clockTime_toNat (b : BitVec 33) (e : BitVec 9) : (clockTime b e).toNat = b.toNat * 300 + e.toNat := by
  have hb := b.isLt
  have he := e.isLt
  rw [clockTime, BitVec.toNat_ofNat]
  omega

/-- An optional sub-field is skipped, does not fit, or is read (R141). -/
theorem afOptional_eq_some {flag : Bool} {len fin : Nat} {c d : AfCursor} {read : Option AfCursor}
    (h : afOptional flag len fin c read = some d) :
    flag = false ∧ d = c ∨ flag = true ∧ c.pos + len ≤ fin ∧ read = some d := by
  unfold afOptional at h
  split at h
  · next hf =>
    split at h
    · exact .inr ⟨hf, ‹_›, h⟩
    · simp at h
  · next hf => exact .inl ⟨by simpa using hf, by simpa using h.symm⟩

/-- What R141 keeps true of the group while it reads a field: everything that is not yet read is 0, and the clocks
are converted. `a`, `b`, `s`, `t`, `x` say which sub-fields the cursor has passed. -/
structure CursorWf (len : Byte) (fin : Nat) (c : AfCursor) : Prop where
  status : c.grp.status = .ok
  length : c.grp.length = len
  pos : 6 ≤ c.pos ∧ c.pos ≤ fin
  pcrTime : c.grp.pcrTime.toNat = c.grp.pcrBase.toNat * 300 + c.grp.pcrExt.toNat
  opcrTime : c.grp.opcrTime.toNat = c.grp.opcrBase.toNat * 300 + c.grp.opcrExt.toNat
  noPcr : afPcrf c.grp.flags = false → c.grp.pcrBase = 0 ∧ c.grp.pcrExt = 0
  noOpcr : afOpcrf c.grp.flags = false → c.grp.opcrBase = 0 ∧ c.grp.opcrExt = 0
  noSplice : afSpf c.grp.flags = false → c.grp.spliceCd = 0
  noPrivate : afTpdf c.grp.flags = false → c.grp.privLen = 0
  noExtension : afExtf c.grp.flags = false → c.grp.extLen = 0

theorem takeFlags_wf {p : Packet} {len : Byte} {c : AfCursor} (h : takeFlags p len = some c) :
    CursorWf len (5 + len.toNat) c := by
  unfold takeFlags at h
  split at h
  · cases h
    exact ⟨rfl, rfl, ⟨Nat.le_refl _, by simp only; omega⟩, by simp [AfGroup.zero],
      by simp [AfGroup.zero], fun _ => ⟨rfl, rfl⟩, fun _ => ⟨rfl, rfl⟩,
      fun _ => rfl, fun _ => rfl, fun _ => rfl⟩
  · simp at h

theorem takePcr_wf {p : Packet} {len : Byte} {fin : Nat} {c d : AfCursor} (hc : CursorWf len fin c)
    (h : takePcr p fin c = some d) : CursorWf len fin d := by
  obtain ⟨-, rfl⟩ | ⟨hf, hp, hd⟩ := afOptional_eq_some h
  · exact hc
  · cases hd
    exact { hc with
      pos := ⟨by have := hc.pos; simp only; omega, hp⟩
      pcrTime := clockTime_toNat _ _
      noPcr := fun hn => by simp_all }

theorem takeOpcr_wf {p : Packet} {len : Byte} {fin : Nat} {c d : AfCursor} (hc : CursorWf len fin c)
    (h : takeOpcr p fin c = some d) : CursorWf len fin d := by
  obtain ⟨-, rfl⟩ | ⟨hf, hp, hd⟩ := afOptional_eq_some h
  · exact hc
  · cases hd
    exact { hc with
      pos := ⟨by have := hc.pos; simp only; omega, hp⟩
      opcrTime := clockTime_toNat _ _
      noOpcr := fun hn => by simp_all }

theorem takeSplice_wf {p : Packet} {len : Byte} {fin : Nat} {c d : AfCursor} (hc : CursorWf len fin c)
    (h : takeSplice p fin c = some d) : CursorWf len fin d := by
  obtain ⟨-, rfl⟩ | ⟨hf, hp, hd⟩ := afOptional_eq_some h
  · exact hc
  · cases hd
    exact { hc with
      pos := ⟨by have := hc.pos; simp only; omega, hp⟩
      noSplice := fun hn => by simp_all }

theorem takePrivate_wf {p : Packet} {len : Byte} {fin : Nat} {c d : AfCursor} (hc : CursorWf len fin c)
    (h : takePrivate p fin c = some d) : CursorWf len fin d := by
  obtain ⟨-, rfl⟩ | ⟨hf, -, hd⟩ := afOptional_eq_some h
  · exact hc
  · split at hd
    · next hp =>
      cases hd
      exact { hc with
        pos := ⟨by have := hc.pos; simp only; omega, hp⟩
        noPrivate := fun hn => by simp_all }
    · simp at hd

theorem takeExtension_wf {p : Packet} {len : Byte} {fin : Nat} {c d : AfCursor} (hc : CursorWf len fin c)
    (h : takeExtension p fin c = some d) : CursorWf len fin d := by
  obtain ⟨-, rfl⟩ | ⟨hf, -, hd⟩ := afOptional_eq_some h
  · exact hc
  · split at hd
    · next hp =>
      cases hd
      exact { hc with
        pos := ⟨by have := hc.pos; simp only; omega, hp⟩
        noExtension := fun hn => by simp_all }
    · simp at hd

/-- A decoded field: the cursor that reached its end, and the group made from it (R141, R144, R145). -/
theorem afBody_eq_some {p : Packet} {len : Byte} {g : AfGroup} (h : afBody p len = some g) :
    ∃ c, CursorWf len (5 + len.toNat) c ∧
      g = { c.grp with stuffing := BitVec.ofNat 8 (5 + len.toNat - c.pos), consumed := BitVec.ofNat 9 (len.toNat + 1) } := by
  unfold afBody at h
  obtain ⟨c6, h6, rfl⟩ := Option.map_eq_some_iff.1 h
  obtain ⟨c5, h5, h6⟩ := Option.bind_eq_some_iff.1 h6
  obtain ⟨c4, h4, h5⟩ := Option.bind_eq_some_iff.1 h5
  obtain ⟨c3, h3, h4⟩ := Option.bind_eq_some_iff.1 h4
  obtain ⟨c2, h2, h3⟩ := Option.bind_eq_some_iff.1 h3
  obtain ⟨c1, h1, h2⟩ := Option.bind_eq_some_iff.1 h2
  exact ⟨c6, takeExtension_wf (takePrivate_wf (takeSplice_wf (takeOpcr_wf (takePcr_wf (takeFlags_wf h1) h2) h3) h4) h5) h6,
    rfl⟩

/-- The decode's verdicts before it looks inside the field (R140, R142). -/
theorem afDecode_cases (p : Packet) (n : Nat) :
    (n < 4 ∧ afDecode p n = .zero .truncatedInput) ∨
    (4 ≤ n ∧ afcHasField p.afc = false ∧ afDecode p n = .zero .notPresent) ∨
    (4 ≤ n ∧ afcHasField p.afc = true ∧ n < 5 + (p.byte 4).toNat ∧ afDecode p n = .zero .truncatedInput) ∨
    (afcHasField p.afc = true ∧ 5 + (p.byte 4).toNat ≤ n ∧
      afDecode p n = (afBody p (p.byte 4)).getD (.zero .malformedField)) := by
  unfold afDecode
  simp only [Config.tsHeaderLen]
  split
  · exact .inl ⟨‹_›, rfl⟩
  · split
    · exact .inr (.inl ⟨by omega, ‹_›, rfl⟩)
    · split
      · exact .inr (.inr (.inl ⟨by omega, by simp_all, by omega, rfl⟩))
      · split
        · exact .inr (.inr (.inl ⟨by omega, by simp_all, ‹_›, rfl⟩))
        · exact .inr (.inr (.inr ⟨by simp_all, by omega, rfl⟩))

theorem afZero_wf {st : ResultCode}
    (h : st = .truncatedInput ∨ st = .malformedField ∨ st = .notPresent ∨ st = .notRun) : AfWf (.zero st) := by
  have hne : st ≠ .ok := by rintro rfl; simp at h
  refine ⟨?_, fun e => absurd e hne, fun e => absurd e hne, fun e => absurd e hne, by simp [AfGroup.zero],
    by simp [AfGroup.zero], fun _ => ⟨rfl, rfl⟩, fun _ => ⟨rfl, rfl⟩, fun _ => rfl, fun _ => rfl, fun _ => rfl⟩
  rcases h with rfl | rfl | rfl | rfl <;> simp

theorem afBody_wf {p : Packet} {len : Byte} {g : AfGroup} (h : afBody p len = some g) (hlen : len.toNat ≤ 183) :
    AfWf g ∧ g.status = .ok ∧ g.length = len := by
  obtain ⟨c, hc, rfl⟩ := afBody_eq_some h
  have hp := hc.pos
  have hl := hc.length
  refine ⟨⟨.inl hc.status, fun _ => ?_, fun _ => ?_, fun _ => ?_, hc.pcrTime, hc.opcrTime, hc.noPcr, hc.noOpcr,
    hc.noSplice, hc.noPrivate, hc.noExtension⟩, hc.status, hc.length⟩
  · simp only [hl]; omega
  · simp only [hl, BitVec.toNat_ofNat]; omega
  · simp only [BitVec.toNat_ofNat]; omega

/-- Every group AF_DECODE or an absorb step can write meets the invariant. -/
theorem afDecode_wf (p : Packet) {n : Nat} (hn : n ≤ 188) : AfWf (afDecode p n) := by
  obtain ⟨-, h⟩ | ⟨-, -, h⟩ | ⟨-, -, -, h⟩ | ⟨-, hle, h⟩ := afDecode_cases p n
  · rw [h]; exact afZero_wf (.inl rfl)
  · rw [h]; exact afZero_wf (.inr (.inr (.inl rfl)))
  · rw [h]; exact afZero_wf (.inl rfl)
  · rw [h]
    cases hb : afBody p (p.byte 4) with
    | none => exact afZero_wf (.inr (.inl rfl))
    | some g => exact (afBody_wf hb (by omega)).1

/-- A decode that succeeds reports the length byte at offset 4, and the field lies inside the packet (R142). -/
theorem afDecode_ok {p : Packet} {n : Nat} (h : (afDecode p n).status = .ok) :
    afcHasField p.afc = true ∧ (afDecode p n).length = p.byte 4 ∧ 5 + (p.byte 4).toNat ≤ n ∧
      1 ≤ (p.byte 4).toNat := by
  obtain ⟨-, e⟩ | ⟨-, -, e⟩ | ⟨-, -, -, e⟩ | ⟨hf, hle, e⟩ := afDecode_cases p n
  · rw [e] at h; simp [AfGroup.zero] at h
  · rw [e] at h; simp [AfGroup.zero] at h
  · rw [e] at h; simp [AfGroup.zero] at h
  · rw [e] at h
    cases hb : afBody p (p.byte 4) with
    | none => rw [hb] at h; simp [AfGroup.zero] at h
    | some g =>
      obtain ⟨c, hc, hg⟩ := afBody_eq_some hb
      have hp := hc.pos
      refine ⟨hf, ?_, hle, by omega⟩
      rw [e, hb, Option.getD_some, hg]
      exact hc.length

/-- With a field present the decode does not answer `NOT_PRESENT` or `NOT_RUN` (R140). -/
theorem afDecode_status_present {p : Packet} {n : Nat} (hf : afcHasField p.afc = true) :
    (afDecode p n).status = .ok ∨ (afDecode p n).status = .truncatedInput ∨
      (afDecode p n).status = .malformedField := by
  obtain ⟨-, e⟩ | ⟨-, hn, -⟩ | ⟨-, -, -, e⟩ | ⟨-, -, e⟩ := afDecode_cases p n
  · rw [e]; simp [AfGroup.zero]
  · rw [hf] at hn; simp at hn
  · rw [e]; simp [AfGroup.zero]
  · rw [e]
    cases hb : afBody p (p.byte 4) with
    | none => simp [AfGroup.zero]
    | some g =>
      obtain ⟨c, hc, hg⟩ := afBody_eq_some hb
      simp [hg, hc.status]

/-! ### PES header (42_pes_header.md) -/

theorem timestamp_none_iff {p : Packet} {st n : Nat} {flag : Bool} {q : Nat} :
    timestamp p st n flag q = none ↔ flag = true ∧ n < q + 5 := by
  unfold timestamp
  cases flag <;> by_cases h : n < q + 5 <;> simp [h]

theorem timestamp_some {p : Packet} {st n : Nat} {flag : Bool} {q : Nat} {v : BitVec 33}
    (h : timestamp p st n flag q = some v) :
    v = if flag then ts33 (p.field (st + q) 5 40) else 0 := by
  unfold timestamp at h
  cases flag <;> by_cases hn : n < q + 5 <;> simp_all

/-- What the decode answers (R170): truncated, the prefix alone, or the header with optional fields. -/
theorem peshDecode_cases (p : Packet) (st n : Nat) :
    peshDecode p st n = .zero .truncatedInput ∨
    (6 ≤ n ∧ isExempt (p.byte (st + 3)) = true ∧ peshDecode p st n = pesPrefix p st) ∨
    (9 ≤ n ∧ isExempt (p.byte (st + 3)) = false ∧
      peshDecode p st n = pesOptional p st
        (if ptsFlag (p.byte (st + 7)) then ts33 (p.field (st + 9) 5 40) else 0)
        (if dtsFlag (p.byte (st + 7)) then ts33 (p.field (st + dtsOffset (ptsFlag (p.byte (st + 7)))) 5 40) else 0)) := by
  unfold peshDecode
  simp only [Config.pesPrefixLen]
  split
  · exact .inl rfl
  · split
    · exact .inr (.inl ⟨by omega, ‹_›, rfl⟩)
    · split
      · exact .inl rfl
      · split
        · exact .inl rfl
        · next pts hp =>
          split
          · exact .inl rfl
          · next dts hd =>
            refine .inr (.inr ⟨by omega, by simp_all, ?_⟩)
            rw [← timestamp_some hp, ← timestamp_some hd]

theorem peshZero_wf {st : ResultCode} (h : st = .truncatedInput ∨ st = .notRun) : PeshWf (.zero st) := by
  have hne : st ≠ .ok := by rintro rfl; simp at h
  refine ⟨?_, rfl, fun e => absurd e hne, fun e => absurd e hne, by simp [PeshGroup.zero, ptsFlag],
    by simp [PeshGroup.zero, dtsFlag], fun _ => rfl, fun _ => rfl⟩
  rcases h with rfl | rfl <;> simp

theorem peshDecode_wf (p : Packet) (st n : Nat) : PeshWf (peshDecode p st n) := by
  obtain h | ⟨-, he, h⟩ | ⟨-, he, h⟩ := peshDecode_cases p st n
  · rw [h]; exact peshZero_wf (.inl rfl)
  · rw [h]
    refine ⟨.inl rfl, ?_, fun _ _ => rfl, fun _ hx => ?_, by simp [pesPrefix, PeshGroup.zero, ptsFlag],
      by simp [pesPrefix, PeshGroup.zero, dtsFlag], fun _ => rfl, fun _ => rfl⟩
    · simp [pesPrefix, startOkOf, Bool.beq_eq_decide_eq]
    · simp [pesPrefix, he] at hx
  · rw [h]
    have hb := (p.byte (st + 8)).isLt
    refine ⟨.inl rfl, ?_, fun _ hx => ?_, fun _ _ => ?_, rfl, rfl, fun hf => ?_, fun hf => ?_⟩
    · simp [pesOptional, pesPrefix, startOkOf, Bool.beq_eq_decide_eq]
    · simp [pesOptional, pesPrefix, he] at hx
    · simp only [pesOptional, BitVec.toNat_ofNat]; omega
    · simp only [pesOptional] at hf ⊢; simp [hf]
    · simp only [pesOptional] at hf ⊢; simp [hf]

/-- `HEADER_LENGTH` is 6..264 after a successful decode (10_state.md R29, R38). -/
theorem peshDecode_headerLength {p : Packet} {st n : Nat} (h : (peshDecode p st n).status = .ok) :
    6 ≤ (peshDecode p st n).headerLength.toNat ∧ (peshDecode p st n).headerLength.toNat ≤ 264 := by
  have hw := peshDecode_wf p st n
  have hb := (peshDecode p st n).hdrDataLen.isLt
  cases he : isExempt (peshDecode p st n).streamId with
  | true => have := hw.exempt h he; omega
  | false => have := hw.other h he; omega

theorem peshDecode_status (p : Packet) (st n : Nat) :
    (peshDecode p st n).status = .ok ∨ (peshDecode p st n).status = .truncatedInput := by
  obtain h | ⟨-, -, h⟩ | ⟨-, -, h⟩ := peshDecode_cases p st n <;> rw [h] <;>
    simp [PeshGroup.zero, pesPrefix, pesOptional]

end Sys2Proof.Machine
end

