-- ==== Sys2Proof/Laws/State.lean ====
section
/-! SUPPORT. One lemma for each field and each update of the state, so that no later proof unfolds a record update. -/

namespace Sys2Proof.Machine

/-! ### `setInst` -/

@[simp] theorem setInst_params (s : State) (i : InstId) (a : Assembler) : (s.setInst i a).params = s.params := rfl
@[simp] theorem setInst_pkt (s : State) (i : InstId) (a : Assembler) : (s.setInst i a).pkt = s.pkt := rfl
@[simp] theorem setInst_pktLen (s : State) (i : InstId) (a : Assembler) : (s.setInst i a).pktLen = s.pktLen := rfl
@[simp] theorem setInst_result (s : State) (i : InstId) (a : Assembler) : (s.setInst i a).result = s.result := rfl
@[simp] theorem setInst_hdr (s : State) (i : InstId) (a : Assembler) : (s.setInst i a).hdr = s.hdr := rfl
@[simp] theorem setInst_af (s : State) (i : InstId) (a : Assembler) : (s.setInst i a).af = s.af := rfl
@[simp] theorem setInst_pesh (s : State) (i : InstId) (a : Assembler) : (s.setInst i a).pesh = s.pesh := rfl
@[simp] theorem setInst_sinks (s : State) (i : InstId) (a : Assembler) : (s.setInst i a).sinks = s.sinks := rfl
@[simp] theorem setInst_refused (s : State) (i : InstId) (a : Assembler) : (s.setInst i a).refused = s.refused := rfl
@[simp] theorem setInst_draws (s : State) (i : InstId) (a : Assembler) : (s.setInst i a).draws = s.draws := rfl
@[simp] theorem setInst_pending (s : State) (i : InstId) (a : Assembler) : (s.setInst i a).pending = s.pending := rfl
@[simp] theorem setInst_readData (s : State) (i : InstId) (a : Assembler) : (s.setInst i a).readData = s.readData := rfl

/-! ### `sinkWrite` -/

@[simp] theorem sinkWrite_params (s : State) (i : InstId) (bytes : List Byte) : (s.sinkWrite i bytes).params = s.params := by cases bytes <;> rfl
@[simp] theorem sinkWrite_pkt (s : State) (i : InstId) (bytes : List Byte) : (s.sinkWrite i bytes).pkt = s.pkt := by cases bytes <;> rfl
@[simp] theorem sinkWrite_pktLen (s : State) (i : InstId) (bytes : List Byte) : (s.sinkWrite i bytes).pktLen = s.pktLen := by cases bytes <;> rfl
@[simp] theorem sinkWrite_result (s : State) (i : InstId) (bytes : List Byte) : (s.sinkWrite i bytes).result = s.result := by cases bytes <;> rfl
@[simp] theorem sinkWrite_hdr (s : State) (i : InstId) (bytes : List Byte) : (s.sinkWrite i bytes).hdr = s.hdr := by cases bytes <;> rfl
@[simp] theorem sinkWrite_af (s : State) (i : InstId) (bytes : List Byte) : (s.sinkWrite i bytes).af = s.af := by cases bytes <;> rfl
@[simp] theorem sinkWrite_pesh (s : State) (i : InstId) (bytes : List Byte) : (s.sinkWrite i bytes).pesh = s.pesh := by cases bytes <;> rfl
@[simp] theorem sinkWrite_insts (s : State) (i : InstId) (bytes : List Byte) : (s.sinkWrite i bytes).insts = s.insts := by cases bytes <;> rfl
@[simp] theorem sinkWrite_refused (s : State) (i : InstId) (bytes : List Byte) : (s.sinkWrite i bytes).refused = s.refused := by cases bytes <;> rfl
@[simp] theorem sinkWrite_draws (s : State) (i : InstId) (bytes : List Byte) : (s.sinkWrite i bytes).draws = s.draws := by cases bytes <;> rfl
@[simp] theorem sinkWrite_pending (s : State) (i : InstId) (bytes : List Byte) : (s.sinkWrite i bytes).pending = s.pending := by cases bytes <;> rfl
@[simp] theorem sinkWrite_readData (s : State) (i : InstId) (bytes : List Byte) : (s.sinkWrite i bytes).readData = s.readData := by cases bytes <;> rfl

/-! ### `setResult` -/

@[simp] theorem setResult_params (s : State) (c : ResultCode) (n f : Bool) (i : Option InstId) : (s.setResult c n f i).params = s.params := rfl
@[simp] theorem setResult_pkt (s : State) (c : ResultCode) (n f : Bool) (i : Option InstId) : (s.setResult c n f i).pkt = s.pkt := rfl
@[simp] theorem setResult_pktLen (s : State) (c : ResultCode) (n f : Bool) (i : Option InstId) : (s.setResult c n f i).pktLen = s.pktLen := rfl
@[simp] theorem setResult_hdr (s : State) (c : ResultCode) (n f : Bool) (i : Option InstId) : (s.setResult c n f i).hdr = s.hdr := rfl
@[simp] theorem setResult_af (s : State) (c : ResultCode) (n f : Bool) (i : Option InstId) : (s.setResult c n f i).af = s.af := rfl
@[simp] theorem setResult_pesh (s : State) (c : ResultCode) (n f : Bool) (i : Option InstId) : (s.setResult c n f i).pesh = s.pesh := rfl
@[simp] theorem setResult_insts (s : State) (c : ResultCode) (n f : Bool) (i : Option InstId) : (s.setResult c n f i).insts = s.insts := rfl
@[simp] theorem setResult_sinks (s : State) (c : ResultCode) (n f : Bool) (i : Option InstId) : (s.setResult c n f i).sinks = s.sinks := rfl
@[simp] theorem setResult_refused (s : State) (c : ResultCode) (n f : Bool) (i : Option InstId) : (s.setResult c n f i).refused = s.refused := rfl
@[simp] theorem setResult_draws (s : State) (c : ResultCode) (n f : Bool) (i : Option InstId) : (s.setResult c n f i).draws = s.draws := rfl
@[simp] theorem setResult_pending (s : State) (c : ResultCode) (n f : Bool) (i : Option InstId) : (s.setResult c n f i).pending = s.pending := rfl
@[simp] theorem setResult_readData (s : State) (c : ResultCode) (n f : Bool) (i : Option InstId) : (s.setResult c n f i).readData = s.readData := rfl
@[simp] theorem setResult_result (s : State) (c : ResultCode) (n f : Bool) (i : Option InstId) :
    (s.setResult c n f i).result = ⟨c, n, f, i⟩ := rfl

/-! ### `raiseIllegal` -/

@[simp] theorem raiseIllegal_params (s : State) (i : Option InstId) : (s.raiseIllegal i).params = s.params := rfl
@[simp] theorem raiseIllegal_pkt (s : State) (i : Option InstId) : (s.raiseIllegal i).pkt = s.pkt := rfl
@[simp] theorem raiseIllegal_pktLen (s : State) (i : Option InstId) : (s.raiseIllegal i).pktLen = s.pktLen := rfl
@[simp] theorem raiseIllegal_hdr (s : State) (i : Option InstId) : (s.raiseIllegal i).hdr = s.hdr := rfl
@[simp] theorem raiseIllegal_af (s : State) (i : Option InstId) : (s.raiseIllegal i).af = s.af := rfl
@[simp] theorem raiseIllegal_pesh (s : State) (i : Option InstId) : (s.raiseIllegal i).pesh = s.pesh := rfl
@[simp] theorem raiseIllegal_insts (s : State) (i : Option InstId) : (s.raiseIllegal i).insts = s.insts := rfl
@[simp] theorem raiseIllegal_sinks (s : State) (i : Option InstId) : (s.raiseIllegal i).sinks = s.sinks := rfl
@[simp] theorem raiseIllegal_refused (s : State) (i : Option InstId) : (s.raiseIllegal i).refused = s.refused := rfl
@[simp] theorem raiseIllegal_draws (s : State) (i : Option InstId) : (s.raiseIllegal i).draws = s.draws := rfl
@[simp] theorem raiseIllegal_pending (s : State) (i : Option InstId) : (s.raiseIllegal i).pending = s.pending := rfl
@[simp] theorem raiseIllegal_readData (s : State) (i : Option InstId) : (s.raiseIllegal i).readData = s.readData := rfl
@[simp] theorem raiseIllegal_result (s : State) (i : Option InstId) :
    (s.raiseIllegal i).result = ⟨.illegalCommand, false, false, i⟩ := rfl

/-! ### `setGroups` -/

@[simp] theorem setGroups_params (s : State) (o : AbsorbOut) : (s.setGroups o).params = s.params := rfl
@[simp] theorem setGroups_pkt (s : State) (o : AbsorbOut) : (s.setGroups o).pkt = s.pkt := rfl
@[simp] theorem setGroups_pktLen (s : State) (o : AbsorbOut) : (s.setGroups o).pktLen = s.pktLen := rfl
@[simp] theorem setGroups_result (s : State) (o : AbsorbOut) : (s.setGroups o).result = s.result := rfl
@[simp] theorem setGroups_insts (s : State) (o : AbsorbOut) : (s.setGroups o).insts = s.insts := rfl
@[simp] theorem setGroups_sinks (s : State) (o : AbsorbOut) : (s.setGroups o).sinks = s.sinks := rfl
@[simp] theorem setGroups_refused (s : State) (o : AbsorbOut) : (s.setGroups o).refused = s.refused := rfl
@[simp] theorem setGroups_draws (s : State) (o : AbsorbOut) : (s.setGroups o).draws = s.draws := rfl
@[simp] theorem setGroups_pending (s : State) (o : AbsorbOut) : (s.setGroups o).pending = s.pending := rfl
@[simp] theorem setGroups_readData (s : State) (o : AbsorbOut) : (s.setGroups o).readData = s.readData := rfl
@[simp] theorem setGroups_hdr (s : State) (o : AbsorbOut) : (s.setGroups o).hdr = o.hdr := rfl
@[simp] theorem setGroups_af (s : State) (o : AbsorbOut) : (s.setGroups o).af = o.af := rfl
@[simp] theorem setGroups_pesh (s : State) (o : AbsorbOut) : (s.setGroups o).pesh = o.pesh := rfl

/-! ### `commit` -/

@[simp] theorem commit_params (s : State) (i : InstId) (o : AbsorbOut) : (s.commit i o).params = s.params := by simp [State.commit]
@[simp] theorem commit_pkt (s : State) (i : InstId) (o : AbsorbOut) : (s.commit i o).pkt = s.pkt := by simp [State.commit]
@[simp] theorem commit_pktLen (s : State) (i : InstId) (o : AbsorbOut) : (s.commit i o).pktLen = s.pktLen := by simp [State.commit]
@[simp] theorem commit_result (s : State) (i : InstId) (o : AbsorbOut) : (s.commit i o).result = s.result := by simp [State.commit]
@[simp] theorem commit_hdr (s : State) (i : InstId) (o : AbsorbOut) : (s.commit i o).hdr = s.hdr := by simp [State.commit]
@[simp] theorem commit_af (s : State) (i : InstId) (o : AbsorbOut) : (s.commit i o).af = s.af := by simp [State.commit]
@[simp] theorem commit_pesh (s : State) (i : InstId) (o : AbsorbOut) : (s.commit i o).pesh = s.pesh := by simp [State.commit]
@[simp] theorem commit_refused (s : State) (i : InstId) (o : AbsorbOut) : (s.commit i o).refused = s.refused := by simp [State.commit]
@[simp] theorem commit_pending (s : State) (i : InstId) (o : AbsorbOut) : (s.commit i o).pending = s.pending := by simp [State.commit]
@[simp] theorem commit_readData (s : State) (i : InstId) (o : AbsorbOut) : (s.commit i o).readData = s.readData := by simp [State.commit]
@[simp] theorem commit_draws (s : State) (i : InstId) (o : AbsorbOut) : (s.commit i o).draws = s.draws + o.drawn := rfl
@[simp] theorem commit_insts (s : State) (i : InstId) (o : AbsorbOut) : (s.commit i o).insts = (s.setInst i o.asm).insts := by
  simp [State.commit]

/-! ### `packetDropped` -/

@[simp] theorem packetDropped_params (s : State) (h : HdrGroup) (c : ResultCode) : (s.packetDropped h c).params = s.params := rfl
@[simp] theorem packetDropped_pkt (s : State) (h : HdrGroup) (c : ResultCode) : (s.packetDropped h c).pkt = s.pkt := rfl
@[simp] theorem packetDropped_pktLen (s : State) (h : HdrGroup) (c : ResultCode) : (s.packetDropped h c).pktLen = s.pktLen := rfl
@[simp] theorem packetDropped_insts (s : State) (h : HdrGroup) (c : ResultCode) : (s.packetDropped h c).insts = s.insts := rfl
@[simp] theorem packetDropped_sinks (s : State) (h : HdrGroup) (c : ResultCode) : (s.packetDropped h c).sinks = s.sinks := rfl
@[simp] theorem packetDropped_refused (s : State) (h : HdrGroup) (c : ResultCode) : (s.packetDropped h c).refused = s.refused := rfl
@[simp] theorem packetDropped_draws (s : State) (h : HdrGroup) (c : ResultCode) : (s.packetDropped h c).draws = s.draws := rfl
@[simp] theorem packetDropped_pending (s : State) (h : HdrGroup) (c : ResultCode) : (s.packetDropped h c).pending = s.pending := rfl
@[simp] theorem packetDropped_readData (s : State) (h : HdrGroup) (c : ResultCode) : (s.packetDropped h c).readData = s.readData := rfl
@[simp] theorem packetDropped_hdr (s : State) (h : HdrGroup) (c : ResultCode) : (s.packetDropped h c).hdr = h := rfl
@[simp] theorem packetDropped_af (s : State) (h : HdrGroup) (c : ResultCode) :
    (s.packetDropped h c).af = .zero .notRun := rfl
@[simp] theorem packetDropped_pesh (s : State) (h : HdrGroup) (c : ResultCode) :
    (s.packetDropped h c).pesh = .zero .notRun := rfl
@[simp] theorem packetDropped_result (s : State) (h : HdrGroup) (c : ResultCode) :
    (s.packetDropped h c).result = ⟨c, false, false, none⟩ := rfl

/-! ### `writePkt` -/

@[simp] theorem writePkt_params (s : State) (k : Nat) (b : Byte) : (s.writePkt k b).params = s.params := rfl
@[simp] theorem writePkt_pktLen (s : State) (k : Nat) (b : Byte) : (s.writePkt k b).pktLen = s.pktLen := rfl
@[simp] theorem writePkt_result (s : State) (k : Nat) (b : Byte) : (s.writePkt k b).result = s.result := rfl
@[simp] theorem writePkt_hdr (s : State) (k : Nat) (b : Byte) : (s.writePkt k b).hdr = s.hdr := rfl
@[simp] theorem writePkt_af (s : State) (k : Nat) (b : Byte) : (s.writePkt k b).af = s.af := rfl
@[simp] theorem writePkt_pesh (s : State) (k : Nat) (b : Byte) : (s.writePkt k b).pesh = s.pesh := rfl
@[simp] theorem writePkt_insts (s : State) (k : Nat) (b : Byte) : (s.writePkt k b).insts = s.insts := rfl
@[simp] theorem writePkt_sinks (s : State) (k : Nat) (b : Byte) : (s.writePkt k b).sinks = s.sinks := rfl
@[simp] theorem writePkt_refused (s : State) (k : Nat) (b : Byte) : (s.writePkt k b).refused = s.refused := rfl
@[simp] theorem writePkt_draws (s : State) (k : Nat) (b : Byte) : (s.writePkt k b).draws = s.draws := rfl
@[simp] theorem writePkt_pending (s : State) (k : Nat) (b : Byte) : (s.writePkt k b).pending = s.pending := rfl
@[simp] theorem writePkt_readData (s : State) (k : Nat) (b : Byte) : (s.writePkt k b).readData = s.readData := rfl

/-! ### Instances and sinks -/

theorem inst_ext {s t : State} (h : t.insts = s.insts) (i : InstId) : t.inst i = s.inst i := by
  simp [State.inst, h]

theorem sink_ext {s t : State} (h : t.sinks = s.sinks) (i : InstId) : t.sink i = s.sink i := by
  simp [State.sink, h]

theorem inst_setInst (s : State) (i j : InstId) (a : Assembler) :
    (s.setInst i a).inst j = if i = j then a else s.inst j := by
  simp only [State.inst, State.setInst, Vector.get_eq_getElem]
  by_cases h : i = j
  · subst h; simp
  · rw [if_neg h, Vector.getElem_set_ne]
    exact fun hv => h (Fin.ext hv)

@[simp] theorem inst_setInst_self (s : State) (i : InstId) (a : Assembler) : (s.setInst i a).inst i = a := by
  simp [inst_setInst]

theorem inst_setInst_ne (s : State) {i j : InstId} (h : i ≠ j) (a : Assembler) :
    (s.setInst i a).inst j = s.inst j := by
  simp [inst_setInst, h]

/-- What a flush adds to a sink: nothing, or one write (20_memory.md R66). -/
theorem sink_sinkWrite (s : State) (i j : InstId) (bytes : List Byte) :
    (s.sinkWrite i bytes).sink j = if i = j ∧ bytes ≠ [] then s.sink j ++ [bytes] else s.sink j := by
  cases bytes with
  | nil => simp [State.sinkWrite]
  | cons b bs =>
    simp only [State.sinkWrite, State.sink, Vector.get_eq_getElem]
    by_cases h : i = j
    · subst h; simp
    · rw [if_neg (by simp [h]), Vector.getElem_set_ne]
      exact fun hv => h (Fin.ext hv)

theorem inst_commit (s : State) (i j : InstId) (o : AbsorbOut) :
    (s.commit i o).inst j = if i = j then o.asm else s.inst j := by
  rw [inst_ext (commit_insts s i o), inst_setInst]

theorem sink_commit (s : State) (i j : InstId) (o : AbsorbOut) :
    (s.commit i o).sink j = if i = j ∧ o.sink ≠ [] then s.sink j ++ [o.sink] else s.sink j := by
  have h : (s.commit i o).sinks = ((s.setInst i o.asm).sinkWrite i o.sink).sinks := rfl
  rw [sink_ext h, sink_sinkWrite, sink_ext (setInst_sinks s i o.asm)]

@[simp] theorem hasInst_eq (s : State) (i : InstId) : s.hasInst i = decide (i.val < s.params.nAsm) := rfl

/-! ### The absorb step reads only the packet, the parameters, the draw count and its own instance -/

/-- The state-level absorb step, as a function of what it reads (43_pes_assembler.md R220). -/
theorem absorb_congr {s t : State} {i : InstId} (hp : t.params = s.params) (hk : t.pkt = s.pkt)
    (hl : t.pktLen = s.pktLen) (hd : t.draws = s.draws) (hi : t.inst i = s.inst i) : t.absorb i = s.absorb i := by
  simp only [State.absorb, hp, hk, hl, hd, hi]

/-! ### Reset -/

@[simp] theorem resetWith_inst (p : Params) (i : InstId) : (State.resetWith p).inst i = .reset := by
  simp [State.resetWith, State.inst, Vector.get_eq_getElem]

@[simp] theorem resetWith_sink (p : Params) (i : InstId) : (State.resetWith p).sink i = [] := by
  simp [State.resetWith, State.sink, Vector.get_eq_getElem]

@[simp] theorem hostReset_inst (s : State) (i : InstId) : s.hostReset.inst i = .reset := by
  rw [← resetWith_inst s.params i]
  exact inst_ext rfl i

@[simp] theorem hostReset_sinks (s : State) : s.hostReset.sinks = s.sinks := rfl
@[simp] theorem hostReset_params (s : State) : s.hostReset.params = s.params := rfl
@[simp] theorem hostReset_refused (s : State) : s.hostReset.refused = s.refused := rfl
@[simp] theorem hostReset_pktLen (s : State) : s.hostReset.pktLen = 0 := rfl
@[simp] theorem hostReset_pkt (s : State) : s.hostReset.pkt = ⟨[], s.draws⟩ := rfl
@[simp] theorem hostReset_draws (s : State) : s.hostReset.draws = s.draws + 188 := rfl
@[simp] theorem hostReset_result (s : State) : s.hostReset.result = .reset := rfl
@[simp] theorem hostReset_hdr (s : State) : s.hostReset.hdr = .zero .notRun := rfl
@[simp] theorem hostReset_af (s : State) : s.hostReset.af = .zero .notRun := rfl
@[simp] theorem hostReset_pesh (s : State) : s.hostReset.pesh = .zero .notRun := rfl
@[simp] theorem hostReset_pending (s : State) : s.hostReset.pending = s.pending := rfl
@[simp] theorem hostReset_readData (s : State) : s.hostReset.readData = s.readData := rfl

end Sys2Proof.Machine
end

