-- ==== Sys2Proof/Laws/Assembler.lean ====
section
/-! SUPPORT. What the assembler's operations can answer, and that they keep the instance invariant
(43_pes_assembler.md R204-R218). -/

namespace Sys2Proof.Machine

/-! ### Append (R217, R223) -/

theorem append_none_iff {p : Packet} {off size : Nat} {a : Assembler} :
    append p off size a = none ↔ 2 ^ 31 ≤ a.woff.toNat + size := by
  unfold append
  simp only [Config.woffLimit]
  split
  · simpa using ‹_›
  · split <;> simp <;> omega

/-- A successful append stays below the limit, advances `WOFF` by the whole size, and either stores the payload and
leaves `OVERRUN`, or stores nothing and sets it. -/
theorem append_cases {p : Packet} {off size : Nat} {a b : Assembler} (h : append p off size a = some b) :
    a.woff.toNat + size < 2 ^ 31 ∧ b.woff.toNat = a.woff.toNat + size ∧
    ((a.woff.toNat + size ≤ a.cap.toNat ∧
        b = { a with buf := Memory.writeRun a.buf a.woff.toNat (p.bytes off size), woff := b.woff }) ∨
     (a.cap.toNat < a.woff.toNat + size ∧ b = { a with overrun := true, woff := b.woff })) := by
  unfold append at h
  simp only [Config.woffLimit] at h
  split at h
  · simp at h
  · next hlt =>
    have hw : (BitVec.ofNat 32 (a.woff.toNat + size)).toNat = a.woff.toNat + size := by
      rw [BitVec.toNat_ofNat]; omega
    simp only [appendFits, decide_eq_true_eq] at h
    split at h
    · cases h
      exact ⟨by omega, hw, .inl ⟨‹_›, rfl⟩⟩
    · cases h
      exact ⟨by omega, hw, .inr ⟨by omega, rfl⟩⟩

theorem append_isSome {p : Packet} {off size : Nat} {a : Assembler} (h : a.woff.toNat + size < 2 ^ 31) :
    ∃ b, append p off size a = some b := by
  cases hb : append p off size a with
  | none => have := append_none_iff.1 hb; omega
  | some b => exact ⟨b, rfl⟩

/-- An append changes only the buffer, `WOFF` and `OVERRUN` (R217). -/
theorem append_frame {p : Packet} {off size : Nat} {a b : Assembler} (h : append p off size a = some b) :
    b = { a with buf := b.buf, woff := b.woff, overrun := b.overrun } := by
  obtain ⟨-, -, ⟨-, hb⟩ | ⟨-, hb⟩⟩ := append_cases h <;> rw [hb]

/-! ### Payload location (R210) -/

theorem payloadSize_le (hp : Bool) (off : Nat) (h : 4 ≤ off) : payloadSize hp off ≤ 184 := by
  unfold payloadSize
  simp only [Config.tsPacketLen]
  split <;> omega

theorem payloadOffset_ge (hf : Bool) (len : Byte) : 4 ≤ payloadOffset hf len := by
  unfold payloadOffset
  simp only [Config.tsHeaderLen]
  split <;> omega

/-! ### Start (R212, R213) -/

/-- A Start answers for a header that decodes and for one that does not; it never refuses for a TS payload. -/
theorem start_cases {ps : Params} {p : Packet} {off size : Nat} {a : Assembler} {o : StartOut}
    (h : start ps p off size a = some o) :
    o.pesh = peshDecode p off size ∧
    ((o.pesh.status = .ok ∧ o.code = .assemblingStarted ∧
        ∃ b, append p off size (startBase ps o.pesh a) = some b ∧ o.asm = { b with started := true }) ∨
     (o.pesh.status = .truncatedInput ∧ o.code = .truncatedInput ∧ o.asm = startFailed (resetBuffer a))) := by
  unfold start at h
  simp only at h
  split at h
  · next hs =>
    obtain ⟨b, hb, rfl⟩ := Option.map_eq_some_iff.1 h
    exact ⟨rfl, .inl ⟨hs, rfl, b, hb, rfl⟩⟩
  · next hs =>
    cases h
    exact ⟨rfl, .inr ⟨(peshDecode_status p off size).resolve_left hs, rfl, rfl⟩⟩

theorem start_isSome {ps : Params} {p : Packet} {off size : Nat} (a : Assembler) (hs : size < 2 ^ 31) :
    ∃ o, start ps p off size a = some o := by
  unfold start
  simp only
  split
  · obtain ⟨b, hb⟩ := append_isSome (p := p) (off := off) (size := size)
      (a := startBase ps (peshDecode p off size) a) (by simpa [startBase, resetBuffer] using hs)
    exact ⟨_, by rw [hb]; rfl⟩
  · exact ⟨_, rfl⟩

/-! ### Flush (R218, 20_memory.md R65) -/

@[simp] theorem flushBytes_length (a : Assembler) (lo hi d : Nat) : (flushBytes a lo hi d).length = hi - lo := by
  simp [flushBytes]

/-- A written cell below `CAP` reads as its byte, whatever the draw. -/
theorem bufRead_written {a : Assembler} {k d : Nat} {b : Byte} (hk : k < a.cap.toNat)
    (h : Memory.read? a.buf k = some b) : a.bufRead k d = b := by
  simp [Assembler.bufRead, hk, h]

/-- The notes Finish-then-Start makes give back the range `[CUR_HL, WOFF)` (R214). -/
theorem finishEnd_notePrevious {a : Assembler} (h : a.woff.toNat < 2 ^ 31) :
    finishEnd (notePrevious a) = a.woff.toNat := by
  have hh := a.curHl.isLt
  have : (BitVec.ofInt 32 ((a.woff.toNat : Int) - (a.curHl.toNat : Int))).toInt =
      (a.woff.toNat : Int) - (a.curHl.toNat : Int) := by
    rw [BitVec.toInt_ofInt_eq_self] <;> omega
  simp only [finishEnd, notePrevious, this]
  omega

/-- `PREV_DL` after Finish-then-Start, as the signed number R214 computes. -/
theorem notePrevious_prevDl {a : Assembler} (h : a.woff.toNat < 2 ^ 31) :
    (notePrevious a).prevDl.toInt = (a.woff.toNat : Int) - (a.curHl.toNat : Int) := by
  have hh := a.curHl.isLt
  rw [notePrevious, BitVec.toInt_ofInt_eq_self] <;> omega

/-! ### The state machine (R211) -/

theorem stateMachine_start {ps : Params} {p : Packet} {off size d : Nat} {a : Assembler} (h : a.started = false) :
    stateMachine ps p true off size d a = stepStart ps p off size a := by
  simp [stateMachine, h]

theorem stateMachine_finishStart {ps : Params} {p : Packet} {off size d : Nat} {a : Assembler}
    (h : a.started = true) : stateMachine ps p true off size d a = stepFinishStart ps p off size d a := by
  simp [stateMachine, h]

theorem stateMachine_continue {ps : Params} {p : Packet} {off size d : Nat} {a : Assembler} (h : a.started = true) :
    stateMachine ps p false off size d a = stepContinue p off size d a := by
  simp [stateMachine, h]

theorem stateMachine_nothing {ps : Params} {p : Packet} {off size d : Nat} {a : Assembler}
    (h : a.started = false) : stateMachine ps p false off size d a = some (stepNothing a) := by
  simp [stateMachine, h]

/-- The state machine refuses only in Continue, and only at the limit (R223). -/
theorem stateMachine_none_iff {ps : Params} {p : Packet} {pusi : Bool} {off size d : Nat} {a : Assembler}
    (hs : size < 2 ^ 31) :
    stateMachine ps p pusi off size d a = none ↔
      pusi = false ∧ a.started = true ∧ 2 ^ 31 ≤ a.woff.toNat + size := by
  cases pusi <;> cases hst : a.started
  · simp [stateMachine_nothing hst]
  · rw [stateMachine_continue hst, stepContinue, Option.map_eq_none_iff, append_none_iff]
    simp
  · obtain ⟨o, ho⟩ := start_isSome (ps := ps) (p := p) (off := off) a hs
    simp [stateMachine_start hst, stepStart, ho]
  · obtain ⟨o, ho⟩ := start_isSome (ps := ps) (p := p) (off := off) (notePrevious a) hs
    simp [stateMachine_finishStart hst, stepFinishStart, ho]

/-! ### The absorb step (R204, 60_exceptions.md R273) -/

theorem absorbSize_le (p : Packet) : absorbSize p ≤ 184 :=
  payloadSize_le _ _ (payloadOffset_ge _ _)

theorem absorb_short {ps : Params} {p : Packet} {n d : Nat} {a : Assembler} (h : n < 4) :
    absorb ps p n d a = some (absorbTurnedAway .truncatedInput (.zero .truncatedInput) a) := by
  simp [absorb, tshDecode_short h, HdrGroup.zero]

theorem absorb_otherPid {ps : Params} {p : Packet} {n d : Nat} {a : Assembler} (h : 4 ≤ n)
    (hp : hdrPid (headerWord p) ≠ a.pid) :
    absorb ps p n d a = some (absorbTurnedAway .unexpectedPid (tshDecode p n) a) := by
  simp [absorb, tshDecode_full h, hp]

theorem absorb_partial {ps : Params} {p : Packet} {n d : Nat} {a : Assembler} (h : 4 ≤ n)
    (hp : hdrPid (headerWord p) = a.pid) (hn : n < 188) :
    absorb ps p n d a = some (absorbEnded .truncatedInput (tshDecode p n) (.zero .notRun) a) := by
  simp [absorb, tshDecode_full h, hp, Config.tsPacketLen, hn]

theorem absorb_badAf {ps : Params} {p : Packet} {n d : Nat} {a : Assembler} (h : 188 ≤ n)
    (hp : hdrPid (headerWord p) = a.pid) (ha : ¬ AfAccepted p) :
    absorb ps p n d a =
      some (absorbEnded (absorbAf p (headerWord p)).status (tshDecode p n) (absorbAf p (headerWord p)) a) := by
  simp only [AfAccepted, Classical.not_imp] at ha
  simp [absorb, tshDecode_full (show 4 ≤ n by omega), hp, Config.tsPacketLen, show ¬ n < 188 by omega, ha]

theorem absorb_lost {ps : Params} {p : Packet} {n d : Nat} {a : Assembler} (h : 188 ≤ n)
    (hp : hdrPid (headerWord p) = a.pid) (ha : AfAccepted p)
    (hc : ccOk ps.ccFirst a.lastCc (hdrCc (headerWord p)) = false) :
    absorb ps p n d a = some (absorbEnded .streamPacketLost (tshDecode p n) (absorbAf p (headerWord p))
      (noteLoss ps (hdrCc (headerWord p)) a)) := by
  have ha' : ¬ (afcHasField (hdrAfc (headerWord p)) = true ∧ (absorbAf p (headerWord p)).status ≠ .ok) :=
    fun hx => hx.2 (ha hx.1)
  unfold absorb
  simp only [tshDecode_full (show 4 ≤ n by omega), ne_eq, not_true_eq_false, if_false, hp, Config.tsPacketLen,
    show ¬ n < 188 by omega]
  rw [if_neg ha', if_pos hc]

theorem absorb_stepped {ps : Params} {p : Packet} {n d : Nat} {a : Assembler} (h : 188 ≤ n)
    (hp : hdrPid (headerWord p) = a.pid) (ha : AfAccepted p)
    (hc : ccOk ps.ccFirst a.lastCc (hdrCc (headerWord p)) = true) :
    absorb ps p n d a =
      (stateMachine ps p (hdrPusi (headerWord p)) (absorbOffset p) (absorbSize p) d
        { a with lastCc := some (hdrCc (headerWord p)) }).map
          (absorbStepped (tshDecode p n) (absorbAf p (headerWord p))) := by
  have ha' : ¬ (afcHasField (hdrAfc (headerWord p)) = true ∧ (absorbAf p (headerWord p)).status ≠ .ok) :=
    fun hx => hx.2 (ha hx.1)
  unfold absorb
  simp only [tshDecode_full (show 4 ≤ n by omega), ne_eq, not_true_eq_false, if_false, hp, Config.tsPacketLen,
    show ¬ n < 188 by omega]
  rw [if_neg ha', if_neg (by simp [hc])]
  rfl

/-- Everything an absorb step can do, in the order of 60_exceptions.md R273. -/
theorem absorb_cases (ps : Params) (p : Packet) (n d : Nat) (a : Assembler) :
    (n < 4 ∧ absorb ps p n d a = some (absorbTurnedAway .truncatedInput (.zero .truncatedInput) a)) ∨
    (4 ≤ n ∧ hdrPid (headerWord p) ≠ a.pid ∧
      absorb ps p n d a = some (absorbTurnedAway .unexpectedPid (tshDecode p n) a)) ∨
    (4 ≤ n ∧ n < 188 ∧ hdrPid (headerWord p) = a.pid ∧
      absorb ps p n d a = some (absorbEnded .truncatedInput (tshDecode p n) (.zero .notRun) a)) ∨
    (188 ≤ n ∧ hdrPid (headerWord p) = a.pid ∧ ¬ AfAccepted p ∧
      absorb ps p n d a =
        some (absorbEnded (absorbAf p (headerWord p)).status (tshDecode p n) (absorbAf p (headerWord p)) a)) ∨
    (188 ≤ n ∧ hdrPid (headerWord p) = a.pid ∧ AfAccepted p ∧
      ccOk ps.ccFirst a.lastCc (hdrCc (headerWord p)) = false ∧
      absorb ps p n d a = some (absorbEnded .streamPacketLost (tshDecode p n) (absorbAf p (headerWord p))
        (noteLoss ps (hdrCc (headerWord p)) a))) ∨
    (188 ≤ n ∧ hdrPid (headerWord p) = a.pid ∧ AfAccepted p ∧
      ccOk ps.ccFirst a.lastCc (hdrCc (headerWord p)) = true ∧
      absorb ps p n d a =
        (stateMachine ps p (hdrPusi (headerWord p)) (absorbOffset p) (absorbSize p) d
          { a with lastCc := some (hdrCc (headerWord p)) }).map
            (absorbStepped (tshDecode p n) (absorbAf p (headerWord p)))) := by
  by_cases h4 : n < 4
  · exact .inl ⟨h4, absorb_short h4⟩
  by_cases hp : hdrPid (headerWord p) = a.pid
  · by_cases hn : n < 188
    · exact .inr (.inr (.inl ⟨by omega, hn, hp, absorb_partial (by omega) hp hn⟩))
    · by_cases ha : AfAccepted p
      · cases hc : ccOk ps.ccFirst a.lastCc (hdrCc (headerWord p)) with
        | false =>
          exact .inr (.inr (.inr (.inr (.inl ⟨by omega, hp, ha, rfl, absorb_lost (by omega) hp ha hc⟩))))
        | true =>
          exact .inr (.inr (.inr (.inr (.inr ⟨by omega, hp, ha, rfl, absorb_stepped (by omega) hp ha hc⟩))))
      · exact .inr (.inr (.inr (.inl ⟨by omega, hp, ha, absorb_badAf (by omega) hp ha⟩)))
  · exact .inr (.inl ⟨by omega, hp, absorb_otherPid (by omega) hp⟩)

/-- An absorb step refuses only in Continue, at the limit (R223). -/
theorem absorb_none {ps : Params} {p : Packet} {n d : Nat} {a : Assembler} (h : absorb ps p n d a = none) :
    a.started = true ∧ 2 ^ 31 ≤ a.woff.toNat + absorbSize p := by
  obtain ⟨-, e⟩ | ⟨-, -, e⟩ | ⟨-, -, -, e⟩ | ⟨-, -, -, e⟩ | ⟨-, -, -, -, e⟩ | ⟨-, -, -, -, e⟩ := absorb_cases ps p n d a
  all_goals rw [e] at h
  all_goals try (simp at h; done)
  have hs := absorbSize_le p
  have := (stateMachine_none_iff (by omega)).1 (Option.map_eq_none_iff.1 h)
  exact ⟨this.2.1, this.2.2⟩

end Sys2Proof.Machine
end

