-- ==== Sys2Proof/Laws/Invariant.lean ====
section
/-! SUPPORT. The assembler's operations keep the instance invariant `AsmWf`, and what an absorb step writes meets the
invariants of the result groups and the sinks. -/

namespace Sys2Proof.Machine

theorem reset_asmWf (p : Params) : AsmWf p .reset where
  bufCanonical := List.Pairwise.nil
  bufBelowCap := by simp [Assembler.reset, Memory.below]
  bufBelowWoff := by simp [Assembler.reset, Memory.below]
  woffLimit := by simp [Assembler.reset]
  capLimit := by simp [Assembler.reset]
  noOverrunFits := by simp [Assembler.reset]
  noOverrunFull := by simp [Assembler.reset]
  startedCap := by simp [Assembler.reset]
  startedHl := by simp [Assembler.reset]
  curHl := by simp [Assembler.reset]
  prevHl := by simp [Assembler.reset]
  prevDl := by simp [Assembler.reset]
  inactive := fun _ => rfl
  lastResult := ⟨by simp [Assembler.reset], by simp [Assembler.reset]⟩

theorem init_asmWf (p : Params) (pid : Pid) : AsmWf p (.init pid) :=
  { reset_asmWf p with inactive := fun h => by simp [Assembler.init] at h }

/-- `LAST_RESULT` and `LAST_CC` may be written on an active instance. -/
theorem AsmWf.withLastResult {p : Params} {a : Assembler} (h : AsmWf p a) (ha : a.active = true) {r : LastResult}
    (hr : LastResultWf r) : AsmWf p { a with lastResult := r } :=
  { h with inactive := fun hx => by simp [ha] at hx, lastResult := hr }

theorem AsmWf.withLastCc {p : Params} {a : Assembler} (h : AsmWf p a) (ha : a.active = true)
    (c : Option (BitVec 4)) : AsmWf p { a with lastCc := c } :=
  { h with inactive := fun hx => by simp [ha] at hx }

theorem AsmWf.noteLoss {p : Params} {a : Assembler} (h : AsmWf p a) (ha : a.active = true) (cc : BitVec 4) :
    AsmWf p (noteLoss p cc a) := by
  unfold Machine.noteLoss
  split
  · exact h.withLastCc ha _
  · exact h

theorem noteLoss_active (p : Params) (cc : BitVec 4) (a : Assembler) : (noteLoss p cc a).active = a.active := by
  unfold noteLoss; split <;> rfl

theorem noteLoss_pid (p : Params) (cc : BitVec 4) (a : Assembler) : (noteLoss p cc a).pid = a.pid := by
  unfold noteLoss; split <;> rfl

/-- Every cell a run of bytes writes is written. -/
theorem writeRun_isSome {m : Memory} {off : Nat} {bs : List Byte} (h : ∀ k < off, (Memory.read? m k).isSome = true) :
    ∀ k < off + bs.length, (Memory.read? (Memory.writeRun m off bs) k).isSome = true := by
  intro k hk
  rw [read?_writeRun]
  by_cases hlo : off ≤ k
  · rw [if_pos ⟨hlo, hk⟩, List.getElem?_eq_getElem (by omega)]
    rfl
  · rw [if_neg (by omega)]
    exact h k (by omega)

/-- The bounded append keeps the instance invariant (R217). -/
theorem append_asmWf {ps : Params} {p : Packet} {off size : Nat} {a b : Assembler} (h : AsmWf ps a)
    (ha : a.active = true) (hb : append p off size a = some b) : AsmWf ps b := by
  obtain ⟨hlim, hw, ⟨hfit, hb⟩ | ⟨hnofit, hb⟩⟩ := append_cases hb
  · have hbuf : b.buf = Memory.writeRun a.buf a.woff.toNat (p.bytes off size) := by rw [hb]
    have hcap : b.cap = a.cap := by rw [hb]
    have hov : b.overrun = a.overrun := by rw [hb]
    exact {
      bufCanonical := by rw [hbuf]; exact writeRun_wf h.bufCanonical _ _
      bufBelowCap := by
        rw [hbuf, hcap]; exact writeRun_below h.bufBelowCap (by rw [bytes_length]; exact hfit)
      bufBelowWoff := by
        rw [hbuf, hw]
        exact writeRun_below (below_mono h.bufBelowWoff (by omega)) (by rw [bytes_length])
      woffLimit := by rw [hw]; exact hlim
      capLimit := by rw [hcap]; exact h.capLimit
      noOverrunFits := fun _ => by rw [hw, hcap]; exact hfit
      noOverrunFull := fun hx => by
        rw [hbuf, hw]
        have := writeRun_isSome (bs := p.bytes off size) (h.noOverrunFull (by rw [← hov]; exact hx))
        rwa [bytes_length] at this
      startedCap := by rw [hb]; exact h.startedCap
      startedHl := by rw [hb]; exact h.startedHl
      curHl := by rw [hb]; exact h.curHl
      prevHl := by rw [hb]; exact h.prevHl
      prevDl := by rw [hb]; exact h.prevDl
      inactive := fun hx => by rw [hb] at hx; simp [ha] at hx
      lastResult := by rw [hb]; exact h.lastResult }
  · have hbuf : b.buf = a.buf := by rw [hb]
    have hcap : b.cap = a.cap := by rw [hb]
    have hov : b.overrun = true := by rw [hb]
    exact {
      bufCanonical := by rw [hbuf]; exact h.bufCanonical
      bufBelowCap := by rw [hbuf, hcap]; exact h.bufBelowCap
      bufBelowWoff := by rw [hbuf, hw]; exact below_mono h.bufBelowWoff (by omega)
      woffLimit := by rw [hw]; exact hlim
      capLimit := by rw [hcap]; exact h.capLimit
      noOverrunFits := fun hx => by simp [hov] at hx
      noOverrunFull := fun hx => by simp [hov] at hx
      startedCap := by rw [hb]; exact h.startedCap
      startedHl := by rw [hb]; exact h.startedHl
      curHl := by rw [hb]; exact h.curHl
      prevHl := by rw [hb]; exact h.prevHl
      prevDl := by rw [hb]; exact h.prevDl
      inactive := fun hx => by rw [hb] at hx; simp [ha] at hx
      lastResult := by rw [hb]; exact h.lastResult }

theorem append_active {p : Packet} {off size : Nat} {a b : Assembler} (hb : append p off size a = some b) :
    b.active = a.active ∧ b.pid = a.pid := by
  rw [append_frame hb]
  exact ⟨rfl, rfl⟩

theorem startCap_le_maxCap (ps : Params) (pl : BitVec 16) : (startCap ps pl).toNat ≤ ps.maxCap := by
  have := pl.isLt
  unfold startCap Params.maxCap
  split
  · omega
  · rw [BitVec.toNat_ofNat]; omega

/-- The registers Start's append finds meet the invariant, apart from `STARTED`, which Start sets last. -/
theorem startBase_asmWf {ps : Params} {p : Packet} {off size : Nat} {a : Assembler} (h : AsmWf ps a)
    (ha : a.active = true) (hg : (peshDecode p off size).status = .ok) :
    AsmWf ps { startBase ps (peshDecode p off size) a with started := true } := by
  have hl := peshDecode_headerLength hg
  exact {
    bufCanonical := List.Pairwise.nil
    bufBelowCap := by simp [startBase, resetBuffer, Memory.below]
    bufBelowWoff := by simp [startBase, resetBuffer, Memory.below]
    woffLimit := by simp [startBase, resetBuffer]
    capLimit := startCap_le_maxCap _ _
    noOverrunFits := by simp [startBase, resetBuffer]
    noOverrunFull := by simp [startBase, resetBuffer]
    startedCap := fun _ => rfl
    startedHl := fun _ => hl.1
    curHl := hl.2
    prevHl := h.prevHl
    prevDl := h.prevDl
    inactive := fun hx => by simp [startBase, resetBuffer, ha] at hx
    lastResult := h.lastResult }

/-- Appending and setting `STARTED` commute (R212: the append does not read it). -/
theorem append_started {p : Packet} {off size : Nat} {a b : Assembler} (hb : append p off size a = some b) :
    append p off size { a with started := true } = some { b with started := true } := by
  unfold append at hb ⊢
  split at hb
  · simp at hb
  · next hl =>
    have he : appendFits { a with started := true } size = appendFits a size := rfl
    simp only at hb
    rw [if_neg hl, he]
    cases hf : appendFits a size
    · rw [if_neg (by simp [hf])] at hb
      cases hb
      rfl
    · rw [if_pos hf] at hb
      cases hb
      rfl

theorem startFailed_asmWf {ps : Params} {a : Assembler} (h : AsmWf ps a) (ha : a.active = true) :
    AsmWf ps (startFailed (resetBuffer a)) where
  bufCanonical := List.Pairwise.nil
  bufBelowCap := by simp [startFailed, resetBuffer, Memory.below]
  bufBelowWoff := by simp [startFailed, resetBuffer, Memory.below]
  woffLimit := by simp [startFailed, resetBuffer]
  capLimit := by simp [startFailed]
  noOverrunFits := by simp [startFailed, resetBuffer]
  noOverrunFull := by simp [startFailed, resetBuffer]
  startedCap := by simp [startFailed]
  startedHl := by simp [startFailed]
  curHl := by simp [startFailed]
  prevHl := h.prevHl
  prevDl := h.prevDl
  inactive := fun hx => by simp [startFailed, resetBuffer, ha] at hx
  lastResult := h.lastResult

/-- Start keeps the instance invariant (R212, R213). -/
theorem start_asmWf {ps : Params} {p : Packet} {off size : Nat} {a : Assembler} {o : StartOut} (h : AsmWf ps a)
    (ha : a.active = true) (ho : start ps p off size a = some o) :
    AsmWf ps o.asm ∧ o.asm.active = true ∧ o.asm.pid = a.pid ∧ PeshWf o.pesh := by
  obtain ⟨hp, ⟨hs, -, b, hb, e⟩ | ⟨-, -, e⟩⟩ := start_cases ho
  · rw [hp] at hs hb
    refine ⟨?_, ?_, ?_, by rw [hp]; exact peshDecode_wf _ _ _⟩
    · rw [e]
      exact append_asmWf (startBase_asmWf h ha hs) (by simp [startBase, resetBuffer, ha]) (append_started hb)
    · rw [e]; simp only [(append_active hb).1]; exact ha
    · rw [e]; simp only [(append_active hb).2]; rfl
  · rw [e]
    exact ⟨startFailed_asmWf h ha, ha, rfl, by rw [hp]; exact peshDecode_wf _ _ _⟩

/-- The notes of Finish-then-Start keep the invariant (R214). -/
theorem notePrevious_asmWf {ps : Params} {a : Assembler} (h : AsmWf ps a) (ha : a.active = true) :
    AsmWf ps (notePrevious a) :=
  { h with
    prevHl := h.curHl
    prevDl := by
      have hw : a.woff.toNat < 2 ^ 31 := h.woffLimit
      have := h.curHl
      rw [notePrevious_prevDl hw]
      omega
    inactive := fun hx => by simp [notePrevious, ha] at hx }

/-- What a branch of the state machine leaves, given the invariant before it. -/
structure StepOutWf (ps : Params) (a : Assembler) (o : StepOut) : Prop where
  asm : AsmWf ps o.asm
  active : o.asm.active = true
  pid : o.asm.pid = a.pid
  pesh : PeshWf o.pesh
  sink : o.sink.length < 2 ^ 31
  drawn : o.sink.length ≤ o.drawn
  lastResult : LastResultWf ⟨o.code, o.ntc⟩

theorem stateMachine_wf {ps : Params} {p : Packet} {pusi : Bool} {off size d : Nat} {a : Assembler} {o : StepOut}
    (h : AsmWf ps a) (ha : a.active = true) (ho : stateMachine ps p pusi off size d a = some o) :
    StepOutWf ps a o := by
  have hw : a.woff.toNat < 2 ^ 31 := h.woffLimit
  cases pusi <;> cases hst : a.started
  · rw [stateMachine_nothing hst] at ho
    cases ho
    exact ⟨h, ha, rfl, peshZero_wf (.inr rfl), by simp [stepNothing], by simp [stepNothing],
      ⟨by simp [stepNothing], by simp [stepNothing]⟩⟩
  · rw [stateMachine_continue hst] at ho
    obtain ⟨b, hb, ho⟩ := Option.map_eq_some_iff.1 ho
    have hbw := append_asmWf h ha hb
    have hba := append_active hb
    have hbl : b.woff.toNat < 2 ^ 31 := hbw.woffLimit
    split at ho
    · cases ho
      exact ⟨{ hbw with startedCap := by simp, startedHl := by simp, inactive := fun hx => by simp [hba.1, ha] at hx },
        by simp only [hba.1, ha], hba.2, peshZero_wf (.inr rfl), by simp only [flushBytes_length]; omega,
        by simp, ⟨by simp, by simp⟩⟩
    · cases ho
      exact ⟨hbw, by rw [hba.1, ha], hba.2, peshZero_wf (.inr rfl), by simp, by simp, ⟨by simp, by simp⟩⟩
  · rw [stateMachine_start hst] at ho
    obtain ⟨so, hso, ho⟩ := Option.map_eq_some_iff.1 ho
    cases ho
    obtain ⟨h1, h2, h3, h4⟩ := start_asmWf h ha hso
    refine ⟨h1, h2, h3, h4, by simp, by simp, ?_⟩
    obtain ⟨-, ⟨-, hc, -⟩ | ⟨-, hc, -⟩⟩ := start_cases hso <;> rw [hc] <;> exact ⟨by simp, by simp⟩
  · rw [stateMachine_finishStart hst] at ho
    obtain ⟨so, hso, ho⟩ := Option.map_eq_some_iff.1 ho
    cases ho
    obtain ⟨h1, h2, h3, h4⟩ := start_asmWf (notePrevious_asmWf h ha) ha hso
    refine ⟨h1, h2, h3, h4, ?_, ?_, ?_⟩
    · simp only [flushBytes_length, finishEnd_notePrevious hw]; omega
    · simp
    · obtain ⟨-, ⟨-, hc, -⟩ | ⟨-, hc, -⟩⟩ := start_cases hso <;> rw [hc] <;> exact ⟨by simp, by simp⟩

theorem hdrPid_after_tshDecode {p : Packet} {n : Nat} (h : 4 ≤ n) : (tshDecode p n).word = headerWord p := by
  rw [tshDecode_full h]

theorem absorbAf_wf (p : Packet) (w : Word) : AfWf (absorbAf p w) := by
  unfold absorbAf
  split
  · exact afDecode_wf p (by decide)
  · exact afZero_wf (.inr (.inr (.inr rfl)))

/-- A field that is not accepted was truncated or malformed (R207). -/
theorem absorbAf_rejected {p : Packet} (h : ¬ AfAccepted p) :
    (absorbAf p (headerWord p)).status = .truncatedInput ∨ (absorbAf p (headerWord p)).status = .malformedField := by
  simp only [AfAccepted, Classical.not_imp] at h
  have hf : afcHasField p.afc = true := by rw [← hdrAfc_field]; exact h.1
  have := afDecode_status_present (n := 188) hf
  simp only [absorbAf, h.1, if_true] at h ⊢
  tauto

/-- What an absorb step leaves, given the invariant of its instance before it. -/
structure AbsorbOutWf (ps : Params) (a : Assembler) (o : AbsorbOut) : Prop where
  hdr : HdrWf o.hdr
  af : AfWf o.af
  pesh : PeshWf o.pesh
  asm : AsmWf ps o.asm
  active : o.asm.active = true
  pid : o.asm.pid = a.pid
  sink : o.sink.length < 2 ^ 31
  drawn : o.sink.length ≤ o.drawn

/-- An absorb step keeps the instance invariant and leaves well-formed groups (R204). -/
theorem absorb_wf {ps : Params} {p : Packet} {n d : Nat} {a : Assembler} {o : AbsorbOut} (h : AsmWf ps a)
    (ha : a.active = true) (ho : absorb ps p n d a = some o) : AbsorbOutWf ps a o := by
  have hh := tshDecode_wf p n
  have hz := afZero_wf (st := .notRun) (by simp)
  have hpz := peshZero_wf (st := .notRun) (by simp)
  obtain ⟨-, e⟩ | ⟨-, -, e⟩ | ⟨-, -, -, e⟩ | ⟨-, -, hna, e⟩ | ⟨-, -, -, -, e⟩ | ⟨-, -, -, -, e⟩ := absorb_cases ps p n d a
  · rw [e] at ho; cases ho
    exact ⟨hdrZero_wf _ (by simp), hz, hpz, h, ha, rfl, by simp [absorbTurnedAway], by simp [absorbTurnedAway]⟩
  · rw [e] at ho; cases ho
    exact ⟨hh, hz, hpz, h, ha, rfl, by simp [absorbTurnedAway], by simp [absorbTurnedAway]⟩
  · rw [e] at ho; cases ho
    exact ⟨hh, hz, hpz, h.withLastResult ha ⟨by simp, by simp⟩, ha, rfl, by simp [absorbEnded], by simp [absorbEnded]⟩
  · rw [e] at ho; cases ho
    refine ⟨hh, absorbAf_wf _ _, hpz, h.withLastResult ha ?_, ha, rfl, by simp [absorbEnded], by simp [absorbEnded]⟩
    rcases absorbAf_rejected hna with hs | hs <;> rw [hs] <;> exact ⟨by simp, by simp⟩
  · rw [e] at ho; cases ho
    exact ⟨hh, absorbAf_wf _ _, hpz,
      (h.noteLoss ha _).withLastResult (by rw [noteLoss_active, ha]) ⟨by simp, by simp⟩,
      by simp only [absorbEnded, noteLoss_active, ha], by simp only [absorbEnded, noteLoss_pid],
      by simp [absorbEnded], by simp [absorbEnded]⟩
  · rw [e] at ho
    obtain ⟨so, hso, rfl⟩ := Option.map_eq_some_iff.1 ho
    have hw := stateMachine_wf (h.withLastCc ha (some (hdrCc (headerWord p)))) ha hso
    exact ⟨hh, absorbAf_wf _ _, hw.pesh, hw.asm.withLastResult hw.active hw.lastResult, hw.active, hw.pid, hw.sink,
      hw.drawn⟩

end Sys2Proof.Machine
end

