-- ==== Sys2Proof/Laws/PacketProcess.lean ====
section
/-! SUPPORT. What the absorb steps of PKT_PROCESS do together: which instances take one, in which order, and that each
reads only its own registers (44_packet_process.md R250-R256). -/

namespace Sys2Proof.Machine

/-! ### A refusal does not depend on the draws -/

/-- Whether an absorb step refuses depends on no free byte (43_pes_assembler.md R223). -/
theorem absorb_none_iff {ps : Params} {p : Packet} {n d : Nat} {a : Assembler} :
    absorb ps p n d a = none ↔
      188 ≤ n ∧ hdrPid (headerWord p) = a.pid ∧ AfAccepted p ∧
        ccOk ps.ccFirst a.lastCc (hdrCc (headerWord p)) = true ∧ hdrPusi (headerWord p) = false ∧
        a.started = true ∧ 2 ^ 31 ≤ a.woff.toNat + absorbSize p := by
  have hs := absorbSize_le p
  obtain ⟨h, e⟩ | ⟨h, h', e⟩ | ⟨-, h, -, e⟩ | ⟨-, -, h, e⟩ | ⟨-, -, -, h, e⟩ | ⟨h1, h2, h3, h4, e⟩ :=
    absorb_cases ps p n d a
  · rw [e]; simp; omega
  · rw [e]; simp; tauto
  · rw [e]; simp; omega
  · rw [e]; simp; tauto
  · rw [e]; simp [h]
  · rw [e, Option.map_eq_none_iff, stateMachine_none_iff (by omega)]
    simp only [h1, h2, h3, h4, true_and]

theorem absorb_none_draw {ps : Params} {p : Packet} {n d : Nat} (d' : Nat) {a : Assembler} :
    absorb ps p n d a = none ↔ absorb ps p n d' a = none :=
  absorb_none_iff.trans absorb_none_iff.symm

/-! ### The matching instances (R250, R252) -/

theorem mem_matching {s : State} {pid : Pid} {i : InstId} :
    i ∈ s.matching pid ↔ i.val < s.params.nAsm ∧ (s.inst i).active = true ∧ (s.inst i).pid = pid := by
  simp [State.matching, and_assoc]

theorem mem_matching_header {s : State} {i : InstId} : i ∈ s.matching (hdrPid (headerWord s.pkt)) ↔ Matches s i :=
  mem_matching.trans ⟨fun h => ⟨h.1, h.2.1, h.2.2⟩, fun h => ⟨h.inst, h.active, h.pid⟩⟩

/-- The matching instances are taken in ascending index order, none twice. -/
theorem matching_ascending (s : State) (pid : Pid) : (s.matching pid).Pairwise (· < ·) := by
  have h : (List.finRange 16).Pairwise (· < ·) := by decide
  exact h.filter _

/-! ### The absorb steps one after the other (R252) -/

/-- An absorb step leaves what the steps of other instances read, but for the count of draws. -/
theorem absorb_commit_ne {s : State} {i j : InstId} (h : i ≠ j) (o : AbsorbOut) :
    (s.commit i o).absorb j =
      Machine.absorb s.params s.pkt s.pktLen.toNat (s.draws + o.drawn) (s.inst j) := by
  rw [State.absorb, inst_commit, if_neg h]
  simp

/-- What the absorb steps of a list of distinct instances leave alone. -/
theorem absorbEach_frame {L : List InstId} {s t : State} (h : s.absorbEach L = some t) :
    CommandFrame s t ∧ t.result = s.result ∧ t.hdr = s.hdr ∧ t.af = s.af ∧ t.pesh = s.pesh ∧ s.draws ≤ t.draws ∧
      ∀ j, j ∉ L → t.inst j = s.inst j ∧ t.sink j = s.sink j := by
  induction L generalizing s with
  | nil =>
    cases h
    exact ⟨⟨rfl, rfl, rfl, rfl, rfl, rfl⟩, rfl, rfl, rfl, rfl, le_rfl, fun _ _ => ⟨rfl, rfl⟩⟩
  | cons i is ih =>
    simp only [State.absorbEach] at h
    split at h
    · simp at h
    · next o ho =>
      obtain ⟨hf, h1, h2, h3, h4, h5, h6⟩ := ih h
      refine ⟨⟨?_, ?_, ?_, ?_, ?_, ?_⟩, ?_, ?_, ?_, ?_, ?_, ?_⟩
      · simpa using hf.params
      · simpa using hf.pkt
      · simpa using hf.pktLen
      · simpa using hf.refused
      · simpa using hf.pending
      · simpa using hf.readData
      · simpa using h1
      · simpa using h2
      · simpa using h3
      · simpa using h4
      · rw [commit_draws] at h5; omega
      · intro j hj
        simp only [List.mem_cons, not_or] at hj
        obtain ⟨hi, hs⟩ := h6 j hj.2
        rw [inst_commit, if_neg (Ne.symm hj.1)] at hi
        rw [sink_commit, if_neg (fun hx => hj.1 hx.1.symm)] at hs
        exact ⟨hi, hs⟩

/-- What the absorb steps of an ascending list of instances do: each instance takes one step from its own registers,
and the steps take their draws in the order of the list. -/
theorem absorbEach_steps {L : List InstId} (hL : L.Pairwise (· < ·)) {s t : State} (h : s.absorbEach L = some t) :
    ∃ (d : InstId → Nat) (o : InstId → AbsorbOut),
      (∀ i ∈ L, s.draws ≤ d i ∧ absorb s.params s.pkt s.pktLen.toNat (d i) (s.inst i) = some (o i) ∧
        t.inst i = (o i).asm ∧
        t.sink i = (if (o i).sink = [] then s.sink i else s.sink i ++ [(o i).sink])) ∧
      (∀ i ∈ L, ∀ j ∈ L, i < j → d i + (o i).drawn ≤ d j) := by
  induction L generalizing s with
  | nil => exact ⟨fun _ => 0, fun _ => absorbTurnedAway .ok (.zero .notRun) .reset, by simp, by simp⟩
  | cons i is ih =>
    obtain ⟨hi, his⟩ := List.pairwise_cons.1 hL
    simp only [State.absorbEach] at h
    split at h
    · simp at h
    · next o ho =>
      obtain ⟨d, os, h1, h2⟩ := ih his h
      have hfr := (absorbEach_frame h).2.2.2.2.2.2 i (fun hx => absurd (hi i hx) (lt_irrefl i))
      refine ⟨fun j => if j = i then s.draws else d j, fun j => if j = i then o else os j, ?_, ?_⟩
      · intro j hj
        by_cases hji : j = i
        · subst hji
          simp only [if_true]
          refine ⟨le_rfl, ho, ?_, ?_⟩
          · rw [hfr.1, inst_commit, if_pos rfl]
          · rw [hfr.2, sink_commit]
            by_cases hs : o.sink = [] <;> simp [hs]
        · simp only [hji, if_false]
          have hj' : j ∈ is := by simpa [hji] using hj
          obtain ⟨a, b, c, e⟩ := h1 j hj'
          rw [commit_draws] at a
          simp only [commit_params, commit_pkt, commit_pktLen, inst_commit, if_neg (Ne.symm hji)] at b
          have hsk : (s.commit i o).sink j = s.sink j := by
            rw [sink_commit, if_neg (fun hx => hji hx.1.symm)]
          rw [hsk] at e
          exact ⟨by omega, b, c, e⟩
      · intro j hj k hk hjk
        have hki : k ≠ i := by
          rintro rfl
          rcases List.mem_cons.1 hj with rfl | hj'
          · exact absurd hjk (lt_irrefl _)
          · exact absurd (hi j hj') (lt_asymm hjk)
        have hk' : k ∈ is := by simpa [hki] using hk
        by_cases hji : j = i
        · subst hji
          simp only [if_true, hki, if_false]
          have := (h1 k hk').1
          rwa [commit_draws] at this
        · simp only [hji, hki, if_false]
          exact h2 j (by simpa [hji] using hj) k hk' hjk

/-- The absorb steps refuse together exactly when one of the instances refuses on its own (R256). -/
theorem absorbEach_none_iff {L : List InstId} (hL : L.Pairwise (· < ·)) {s : State} :
    s.absorbEach L = none ↔
      ∃ i ∈ L, absorb s.params s.pkt s.pktLen.toNat s.draws (s.inst i) = none := by
  induction L generalizing s with
  | nil => simp [State.absorbEach]
  | cons i is ih =>
    obtain ⟨hi, his⟩ := List.pairwise_cons.1 hL
    simp only [State.absorbEach, List.mem_cons, exists_eq_or_imp]
    cases ho : s.absorb i with
    | none =>
      simp only [State.absorb] at ho
      simp [ho]
    | some o =>
      simp only
      rw [ih his]
      have h1 : ∀ j ∈ is, (absorb (s.commit i o).params (s.commit i o).pkt (s.commit i o).pktLen.toNat
          (s.commit i o).draws ((s.commit i o).inst j) = none ↔
          absorb s.params s.pkt s.pktLen.toNat s.draws (s.inst j) = none) := by
        intro j hj
        have hne : i ≠ j := fun hx => absurd (hi j hj) (by rw [hx]; exact lt_irrefl j)
        rw [inst_commit, if_neg hne]
        simp only [commit_params, commit_pkt, commit_pktLen]
        exact absorb_none_draw _
      simp only [State.absorb] at ho
      rw [ho]
      simp only [reduceCtorEq, false_or]
      exact ⟨fun ⟨j, hj, h⟩ => ⟨j, hj, (h1 j hj).1 h⟩, fun ⟨j, hj, h⟩ => ⟨j, hj, (h1 j hj).2 h⟩⟩

/-- A property that every absorb step of an active instance keeps, they keep together. -/
theorem absorbEach_induct {P : State → Prop} (step : ∀ (s : State) (i : InstId) (o : AbsorbOut), P s →
    i.val < s.params.nAsm → (s.inst i).active = true → s.absorb i = some o → P (s.commit i o))
    {L : List InstId} (hL : L.Pairwise (· < ·)) {s t : State} (hs : P s)
    (hm : ∀ i ∈ L, i.val < s.params.nAsm ∧ (s.inst i).active = true) (h : s.absorbEach L = some t) : P t := by
  induction L generalizing s with
  | nil => cases h; exact hs
  | cons i is ih =>
    obtain ⟨hi, his⟩ := List.pairwise_cons.1 hL
    simp only [State.absorbEach] at h
    split at h
    · simp at h
    · next o ho =>
      have hii := hm i (by simp)
      refine ih his (step s i o hs hii.1 hii.2 ho) ?_ h
      intro j hj
      have hne : i ≠ j := fun hx => absurd (hi j hj) (by rw [hx]; exact lt_irrefl j)
      rw [inst_commit, if_neg hne, commit_params]
      exact hm j (by simp [hj])

/-! ### PKT_PROCESS as a whole (R250) -/

/-- Everything PKT_PROCESS can do, in the order of R250's checks. -/
theorem execPktProcess_cases (s : State) :
    (188 < s.pktLen.toNat ∧ execPktProcess s = .next (s.raiseIllegal none)) ∨
    (s.pktLen.toNat < 4 ∧ execPktProcess s = .next (s.packetDropped (.zero .truncatedInput) .truncatedInput)) ∨
    (4 ≤ s.pktLen.toNat ∧ s.pktLen.toNat ≤ 188 ∧ syncOkOf (headerWord s.pkt) = false ∧
      execPktProcess s = .next (s.packetDropped (tshDecode s.pkt s.pktLen.toNat) .invalidSync)) ∨
    (4 ≤ s.pktLen.toNat ∧ s.pktLen.toNat ≤ 188 ∧ syncOkOf (headerWord s.pkt) = true ∧
      s.matching (hdrPid (headerWord s.pkt)) = [] ∧
      execPktProcess s = .next (s.packetDropped (tshDecode s.pkt s.pktLen.toNat) .unexpectedPid)) ∨
    (4 ≤ s.pktLen.toNat ∧ s.pktLen.toNat ≤ 188 ∧ syncOkOf (headerWord s.pkt) = true ∧
      ∃ j rest, s.matching (hdrPid (headerWord s.pkt)) = j :: rest ∧
        ((s.absorbEach (j :: rest) = none ∧ execPktProcess s = .refused .woffOverflow) ∨
         ∃ o t, s.absorb j = some o ∧ s.absorbEach (j :: rest) = some t ∧
          execPktProcess s = .next ((t.setGroups o).setResult o.code o.ntc o.flushed (some j)))) := by
  unfold execPktProcess
  by_cases hl : 188 < s.pktLen.toNat
  · exact .inl ⟨hl, by simp [State.packetTooLong, Config.tsPacketLen, hl]⟩
  have hl' : s.packetTooLong = false := by simpa [State.packetTooLong] using hl
  simp only [hl', Bool.false_eq_true, if_false]
  by_cases h4 : s.pktLen.toNat < 4
  · exact .inr (.inl ⟨h4, by simp [tshDecode_short h4, HdrGroup.zero]⟩)
  have h4' : 4 ≤ s.pktLen.toNat := by omega
  simp only [tshDecode_full h4', ne_eq, not_true_eq_false, if_false]
  cases hs : syncOkOf (headerWord s.pkt)
  · exact .inr (.inr (.inl ⟨h4', by omega, rfl, by simp⟩))
  simp only [Bool.true_eq_false, if_false]
  refine .inr (.inr (.inr ?_))
  split
  · next hm => exact .inl ⟨h4', by omega, trivial, hm, rfl⟩
  · next j rest hm =>
    refine .inr ⟨h4', by omega, trivial, j, rest, hm, ?_⟩
    simp only [State.absorbEach]
    cases ho : s.absorb j with
    | none => exact .inl ⟨rfl, rfl⟩
    | some o =>
      simp only
      cases ht : (s.commit j o).absorbEach rest with
      | none => exact .inl ⟨rfl, rfl⟩
      | some t => exact .inr ⟨o, t, rfl, rfl, rfl⟩

end Sys2Proof.Machine
end

