-- ==== Sys2Proof/Laws/HostPort.lean ====
section
/-! SUPPORT. The register map names each register once, and what a host access and a step can do (20_memory.md R71,
R72). -/

namespace Sys2Proof.Machine

/-! ### The register map (R71) -/

theorem mem_hostRegs (r : HostReg) : r ∈ hostRegs := by
  cases r
  case inst i r =>
    refine List.mem_append_right _ (List.mem_flatMap.2 ⟨i, List.mem_finRange i, List.mem_map.2 ⟨r, ?_, rfl⟩⟩)
    cases r <;> decide
  all_goals exact List.mem_append_left _ (by decide)

theorem hostRegs_distinct : (hostRegs.map HostReg.addr).Nodup := by
  decide +kernel

theorem hostRegs_above_cmd : ∀ r ∈ hostRegs, r.addr ≠ cmdAddr := by
  decide +kernel

/-- No two registers share an address. -/
theorem addr_injective {r r' : HostReg} (h : r.addr = r'.addr) : r = r' :=
  List.inj_on_of_nodup_map hostRegs_distinct (mem_hostRegs r) (mem_hostRegs r') h

theorem hostRegAt_eq_some {addr : Nat} {r : HostReg} (h : hostRegAt addr = some r) : r.addr = addr := by
  have := List.find?_some h
  simpa using this

/-- Each register is found at its address. -/
@[simp] theorem hostRegAt_addr (r : HostReg) : hostRegAt r.addr = some r := by
  cases h : hostRegAt r.addr with
  | none =>
    have := List.find?_eq_none.1 h r (mem_hostRegs r)
    simp at this
  | some r' => rw [addr_injective (hostRegAt_eq_some h)]

theorem hostRegAt_eq_none {addr : Nat} (h : ∀ r ∈ hostRegs, r.addr ≠ addr) : hostRegAt addr = none :=
  List.find?_eq_none.2 fun r hr => by simpa using h r hr

@[simp] theorem hostRead_addr (s : State) (r : HostReg) : s.hostRead .word r.addr = r.word s := by
  simp [State.hostRead]

/-- A register of an instance that exists is read at its offset in the instance's block. -/
theorem hostRead_inst {s : State} {i : InstId} (h : i.val < s.params.nAsm) (r : InstReg) :
    s.hostRead .word (0x400 + 0x40 * i.val + r.offset) = r.word (s.inst i) := by
  have e := hostRead_addr s (.inst i r)
  simpa only [HostReg.addr, HostReg.word, hasInst_eq, h, decide_true, if_true] using e

/-- A concatenation as a number: the upper part counts by the width of the lower one. -/
theorem append_toNat {n m : Nat} (a : BitVec n) (b : BitVec m) : (a ++ b).toNat = a.toNat * 2 ^ m + b.toNat := by
  rw [BitVec.toNat_append, Nat.shiftLeft_eq, Nat.mul_comm, Nat.two_pow_add_eq_or_of_lt b.isLt]

/-! ### Steps -/

/-- Everything a step can do: refuse a marked state, wait, or perform the oldest access. -/
theorem step_cases (s : State) :
    (s.refused = true ∧ step s = .refused .markedRefused) ∨
    (s.refused = false ∧ s.pending = [] ∧ step s = .next s) ∨
    (s.refused = false ∧ ∃ x rest, s.pending = x :: rest ∧ step s = perform x { s with pending := rest }) := by
  unfold step hostStep
  cases hr : s.refused
  · cases hp : s.pending with
    | nil => exact .inr (.inl ⟨rfl, rfl, rfl⟩)
    | cons x rest => exact .inr (.inr ⟨rfl, x, rest, rfl, rfl⟩)
  · exact .inl ⟨rfl, rfl⟩

/-- Everything a host write that is not of `CMD` can do (R72). -/
theorem hostStore_cases (s : State) (width : Width) (addr : Nat) (data : Word) :
    s.hostStore width addr data = s ∨
    (width = .word ∧ addr = pktLenAddr ∧ s.hostStore width addr data = { s with pktLen := data.extractLsb' 0 8 }) ∨
    (width = .byte ∧ ∃ k, k < 188 ∧ addr = pktBase + k ∧
      s.hostStore width addr data = s.writePkt k (data.extractLsb' 0 8)) := by
  unfold State.hostStore
  cases width
  · simp only
    split
    · next h =>
      simp only [isPktAddr, Config.tsPacketLen, Bool.and_eq_true, decide_eq_true_eq] at h
      exact .inr (.inr ⟨trivial, addr - pktBase, by omega, by omega, rfl⟩)
    · exact .inl rfl
  · exact .inl rfl
  · simp only
    split
    · next h => exact .inr (.inl ⟨trivial, h, rfl⟩)
    · exact .inl rfl

/-- Everything an access can do (R72): a command, a register or packet write, a read, or reset. -/
theorem perform_cases (x : HostAccess) (s : State) :
    (∃ w, x = .write .word cmdAddr w ∧ perform x s = issue w s) ∨
    (∃ width addr data, x = .write width addr data ∧ ¬ (width = .word ∧ addr = cmdAddr) ∧
      perform x s = .next (s.hostStore width addr data)) ∨
    (∃ width addr, x = .read width addr ∧ perform x s = .next { s with readData := s.hostRead width addr }) ∨
    (x = .reset ∧ perform x s = .next s.hostReset) := by
  cases x with
  | read width addr => exact .inr (.inr (.inl ⟨width, addr, rfl, rfl⟩))
  | write width addr data =>
    by_cases h : width = .word ∧ addr = cmdAddr
    · obtain ⟨rfl, rfl⟩ := h
      exact .inl ⟨data, rfl, by simp [perform]⟩
    · exact .inr (.inl ⟨width, addr, data, rfl, h, by simp [perform, h]⟩)
  | reset => exact .inr (.inr (.inr ⟨rfl, rfl⟩))

/-- A command word is illegal, or runs the command it decodes to (30_encoding.md R82, R83). -/
theorem issue_cases (w : Word) (s : State) :
    (∃ e, decode w = .error e ∧ issue w s = .next (s.raiseIllegal none)) ∨
    (∃ c, decode w = .ok c ∧ issue w s = exec c s) := by
  unfold issue
  cases decode w with
  | error e => exact .inl ⟨e, rfl, rfl⟩
  | ok c => exact .inr ⟨c, rfl, rfl⟩

/-! ### The commands, one by one -/

@[simp] theorem packetTooLong_eq (s : State) : s.packetTooLong = decide (188 < s.pktLen.toNat) := rfl

theorem execTshDecode_cases (s : State) :
    (188 < s.pktLen.toNat ∧ execTshDecode s = .next (s.raiseIllegal none)) ∨
    (s.pktLen.toNat ≤ 188 ∧ execTshDecode s = .next ({ s with hdr := tshDecode s.pkt s.pktLen.toNat }.setResult
      (tshDecode s.pkt s.pktLen.toNat).status false false none)) := by
  unfold execTshDecode
  by_cases h : 188 < s.pktLen.toNat <;> simp [h]; omega

theorem execAfDecode_cases (s : State) :
    (188 < s.pktLen.toNat ∧ execAfDecode s = .next (s.raiseIllegal none)) ∨
    (s.pktLen.toNat ≤ 188 ∧ execAfDecode s = .next ({ s with af := afDecode s.pkt s.pktLen.toNat }.setResult
      (afDecode s.pkt s.pktLen.toNat).status false false none)) := by
  unfold execAfDecode
  by_cases h : 188 < s.pktLen.toNat <;> simp [h]; omega

theorem execPeshDecode_cases (ofs : Byte) (s : State) :
    (188 < s.pktLen.toNat ∧ execPeshDecode ofs s = .next (s.raiseIllegal none)) ∨
    (s.pktLen.toNat ≤ 188 ∧ execPeshDecode ofs s =
      .next ({ s with pesh := peshDecode s.pkt ofs.toNat (s.pktLen.toNat - ofs.toNat) }.setResult
        (peshDecode s.pkt ofs.toNat (s.pktLen.toNat - ofs.toNat)).status false false none)) := by
  unfold execPeshDecode
  by_cases h : 188 < s.pktLen.toNat <;> simp [h]; omega

theorem execAsmInit_cases (i : InstId) (pid : Pid) (s : State) :
    (s.params.nAsm ≤ i.val ∧ execAsmInit i pid s = .next (s.raiseIllegal (some i))) ∨
    (i.val < s.params.nAsm ∧
      execAsmInit i pid s = .next ((s.setInst i (.init pid)).setResult .ok false false (some i))) := by
  unfold execAsmInit
  by_cases h : i.val < s.params.nAsm <;> simp [h]; omega

theorem execAsmRelease_cases (i : InstId) (s : State) :
    ((s.params.nAsm ≤ i.val ∨ (s.inst i).active = false) ∧
      execAsmRelease i s = .next (s.raiseIllegal (some i))) ∨
    (i.val < s.params.nAsm ∧ (s.inst i).active = true ∧
      execAsmRelease i s = .next ((s.setInst i .reset).setResult .ok false false (some i))) := by
  unfold execAsmRelease
  by_cases h : i.val < s.params.nAsm <;> cases ha : (s.inst i).active <;> simp [h]; omega

/-- Everything ASM_ABSORB can do: R274's checks in order, then the absorb step (R203). -/
theorem execAsmAbsorb_cases (i : InstId) (s : State) :
    (188 < s.pktLen.toNat ∧ execAsmAbsorb i s = .next (s.raiseIllegal none)) ∨
    (s.pktLen.toNat ≤ 188 ∧ (s.params.nAsm ≤ i.val ∨ (s.inst i).active = false) ∧
      execAsmAbsorb i s = .next (s.raiseIllegal (some i))) ∨
    (AbsorbEnabled s i ∧ s.absorb i = none ∧ execAsmAbsorb i s = .refused .woffOverflow) ∨
    (AbsorbEnabled s i ∧ ∃ o, s.absorb i = some o ∧
      execAsmAbsorb i s = .next (((s.commit i o).setGroups o).setResult o.code o.ntc o.flushed (some i))) := by
  unfold execAsmAbsorb
  by_cases hl : 188 < s.pktLen.toNat
  · exact .inl ⟨hl, by simp [hl]⟩
  by_cases h : i.val < s.params.nAsm
  · cases ha : (s.inst i).active
    · exact .inr (.inl ⟨by omega, .inr rfl, by simp [hl, h]⟩)
    · have he : AbsorbEnabled s i := ⟨by omega, h, ha⟩
      cases ho : s.absorb i with
      | none => exact .inr (.inr (.inl ⟨he, rfl, by simp [hl, h]⟩))
      | some o => exact .inr (.inr (.inr ⟨he, o, rfl, by simp [hl, h]⟩))
  · exact .inr (.inl ⟨by omega, .inl (by omega), by simp [hl, h]⟩)

end Sys2Proof.Machine
end

