-- ==== Sys2Proof/Laws/AbsorbStep.lean ====
section
/-! SUPPORT. ASM_ABSORB in closed form: the command from the absorb step, the absorb step from the state machine, and
what Start and the append leave (43_pes_assembler.md R203-R217). -/

namespace Sys2Proof.Machine

/-- The model's continuity check is R208's, in R208's own arithmetic. -/
theorem ccOk_iff {s : State} {i : InstId} :
    ccOk s.params.ccFirst (s.inst i).lastCc (hdrCc (headerWord s.pkt)) = true ↔ CounterExpected s i := by
  unfold ccOk CounterExpected
  cases (s.inst i).lastCc with
  | none =>
    cases s.params.ccFirst <;> simp
    exact ⟨fun h => by rw [h]; rfl, fun h => BitVec.eq_of_toNat_eq h⟩
  | some l =>
    simp only [beq_iff_eq]
    rw [← BitVec.toNat_inj, BitVec.toNat_add]
    rfl

/-- The sync bit of the header word is that of the first byte. -/
theorem hdrSync_field (p : Packet) : hdrSync (headerWord p) = p.byte 0 := by
  have := (p.byte 1).isLt
  have := (p.byte 2).isLt
  have := (p.byte 3).isLt
  have := (p.byte 0).isLt
  apply BitVec.eq_of_toNat_eq
  simp only [hdrSync, BitVec.extractLsb'_toNat, field_header_toNat, Nat.shiftRight_eq_div_pow]
  omega

@[simp] theorem setInst_inst (s : State) (i : InstId) : s.setInst i (s.inst i) = s := by
  simp [State.setInst, State.inst, Vector.get_eq_getElem]

/-- An enabled ASM_ABSORB whose absorb step answers (R203). -/
theorem exec_asmAbsorb {s : State} {i : InstId} {o : AbsorbOut} (he : AbsorbEnabled s i) (ho : s.absorb i = some o) :
    exec (.asmAbsorb i) s =
      .next (((s.commit i o).setGroups o).setResult o.code o.ntc o.flushed (some i)) := by
  obtain ⟨h, -⟩ | ⟨-, h, -⟩ | ⟨-, h, -⟩ | ⟨-, o', ho', e⟩ := execAsmAbsorb_cases i s
  · have := he.pktLen; omega
  · have := he.inst
    have := he.active
    simp_all
    omega
  · simp_all
  · rw [ho] at ho'
    cases ho'
    exact e

/-- The same when the step sends nothing. -/
theorem exec_asmAbsorb_noSink {s : State} {i : InstId} {o : AbsorbOut} (he : AbsorbEnabled s i)
    (ho : s.absorb i = some o) (hs : o.sink = []) (hd : o.drawn = 0) :
    exec (.asmAbsorb i) s = .next { s.setInst i o.asm with
      hdr := o.hdr, af := o.af, pesh := o.pesh, result := ⟨o.code, o.ntc, o.flushed, some i⟩ } := by
  rw [exec_asmAbsorb he ho]
  simp [State.commit, hs, hd, State.sinkWrite, State.setGroups, State.setResult, State.setInst]

/-- An absorb step changes its own instance and sink only (R220). -/
theorem instanceFrame_absorb (s : State) (i : InstId) (o : AbsorbOut) (c : ResultCode) (n f : Bool) :
    InstanceFrame i s (((s.commit i o).setGroups o).setResult c n f (some i)) := by
  refine ⟨⟨?_, ?_, ?_, ?_, ?_, ?_⟩, fun j hj => ?_, fun j hj => ?_⟩
  · simp [State.setResult]
  · simp [State.setResult]
  · simp [State.setResult]
  · simp [State.setResult]
  · simp [State.setResult]
  · simp [State.setResult]
  · have : (s.commit i o).inst j = _ := inst_commit s i j o
    rw [if_neg (Ne.symm hj)] at this
    exact this
  · have : (s.commit i o).sink j = _ := sink_commit s i j o
    rw [if_neg (fun h => hj h.1.symm)] at this
    exact this

/-- Past the counter check the absorb step is the state machine's (R209, R211). -/
theorem absorb_of_reaches {s : State} {i : InstId} (h : ReachesStateMachine s i) :
    s.absorb i =
      (stateMachine s.params s.pkt (hdrPusi (headerWord s.pkt)) (absorbOffset s.pkt) (absorbSize s.pkt) s.draws
        { s.inst i with lastCc := some (hdrCc (headerWord s.pkt)) }).map
          (absorbStepped (tshDecode s.pkt 188) (absorbAf s.pkt (headerWord s.pkt))) := by
  have := absorb_stepped (ps := s.params) (d := s.draws) (a := s.inst i) (n := s.pktLen.toNat) (p := s.pkt)
    (by rw [h.whole.full]) h.whole.pid h.af (ccOk_iff.2 h.counter)
  rw [State.absorb, this, h.whole.full]

/-- The append below the limit, in one equation (R217). -/
theorem append_eq {p : Packet} {off size : Nat} {a : Assembler} (h : a.woff.toNat + size < 2 ^ 31) :
    append p off size a = some { a with
      woff := BitVec.ofNat 32 (a.woff.toNat + size)
      overrun := a.overrun || decide (a.cap.toNat < a.woff.toNat + size)
      buf := if a.woff.toNat + size ≤ a.cap.toNat then a.buf.writeRun a.woff.toNat (p.bytes off size)
        else a.buf } := by
  unfold append
  rw [if_neg (by simpa [Config.woffLimit] using h)]
  simp only [appendFits, decide_eq_true_eq]
  split
  · next hf => simp [show ¬ a.cap.toNat < a.woff.toNat + size by omega]
  · next hf => simp [show a.cap.toNat < a.woff.toNat + size by omega]

theorem writeRun_nil (off : Nat) (bs : List Byte) : Memory.writeRun [] off bs = cellsFrom off bs := by
  simp [Memory.writeRun]

/-- A Start whose header decodes, in one equation (R212). -/
theorem start_eq {ps : Params} {p : Packet} {off size : Nat} {a : Assembler} (hs : size < 2 ^ 31)
    (hg : (peshDecode p off size).status = .ok) :
    start ps p off size a = some ⟨.assemblingStarted, peshDecode p off size, { a with
      started := true
      curHl := (peshDecode p off size).headerLength
      curPl := (peshDecode p off size).pktLen
      cap := startCap ps (peshDecode p off size).pktLen
      woff := BitVec.ofNat 32 size
      overrun := decide ((startCap ps (peshDecode p off size).pktLen).toNat < size)
      buf := if size ≤ (startCap ps (peshDecode p off size).pktLen).toNat then cellsFrom 0 (p.bytes off size)
        else [] }⟩ := by
  unfold start
  simp only [hg, if_true]
  rw [append_eq (by simpa [startBase, resetBuffer] using hs)]
  simp [startBase, resetBuffer, writeRun_nil]

/-- A PES header that does not decode is truncated, with every field 0. -/
theorem peshDecode_eq_zero {p : Packet} {off size : Nat} (hg : (peshDecode p off size).status ≠ .ok) :
    peshDecode p off size = .zero .truncatedInput := by
  obtain h | h | h := (peshDecode_wf p off size).status
  · exact absurd h hg
  · exact h
  · have := peshDecode_status p off size
    rw [h] at this
    simp [PeshGroup.zero] at this

/-- A Start whose header does not decode, in one equation (R213). -/
theorem start_eq_failed {ps : Params} {p : Packet} {off size : Nat} {a : Assembler}
    (hg : (peshDecode p off size).status ≠ .ok) :
    start ps p off size a = some ⟨.truncatedInput, .zero .truncatedInput, { a with
      started := false, curHl := 0, curPl := 0, cap := 0, woff := 0, overrun := false, buf := [] }⟩ := by
  unfold start
  simp only [peshDecode_eq_zero hg]
  rfl

/-! ### The result groups of an absorb step (R204, 10_state.md R30) -/

theorem hasField_header (p : Packet) : afcHasField (hdrAfc (headerWord p)) = (p.byte 3).getLsbD 5 := by
  rw [hdrAfc_field]
  simp [afcHasField, Packet.afc]

theorem absorbAf_eq (p : Packet) :
    absorbAf p (headerWord p) = if (p.byte 3).getLsbD 5 then afDecode p 188 else .zero .notRun := by
  rw [absorbAf, hasField_header]

/-- The state machine decodes a PES header exactly when PUSI = 1, and never answers `ILLEGAL_COMMAND`. -/
theorem stateMachine_pesh {ps : Params} {p : Packet} {pusi : Bool} {off size d : Nat} {a : Assembler} {o : StepOut}
    (h : stateMachine ps p pusi off size d a = some o) :
    o.pesh = (if pusi then peshDecode p off size else .zero .notRun) ∧ o.code ≠ .illegalCommand := by
  unfold stateMachine at h
  split at h
  · obtain ⟨st, hst, rfl⟩ := Option.map_eq_some_iff.1 h
    obtain ⟨e, ⟨-, c, -⟩ | ⟨-, c, -⟩⟩ := start_cases hst <;> simp [e, c]
  · unfold stepFinishStart at h
    obtain ⟨st, hst, rfl⟩ := Option.map_eq_some_iff.1 h
    obtain ⟨e, ⟨-, c, -⟩ | ⟨-, c, -⟩⟩ := start_cases hst <;> simp [e, c]
  · obtain ⟨b, -, rfl⟩ := Option.map_eq_some_iff.1 h
    split <;> simp
  · cases h
    simp [stepNothing]

/-- The groups of an absorb step as one formula: AF is decoded when a whole packet of the PID has a field, PESH when
the state machine is reached with PUSI = 1. -/
theorem absorb_groups {s : State} {i : InstId} {d : Nat} {o : AbsorbOut} (he : AbsorbEnabled s i)
    (h : absorb s.params s.pkt s.pktLen.toNat d (s.inst i) = some o) {t : State} (hh : t.hdr = o.hdr)
    (ha : t.af = o.af) (hp : t.pesh = o.pesh) : AbsorbGroups s t i ∧ o.code ≠ .illegalCommand := by
  have hle := he.pktLen
  have ended (h1 : o.hdr = tshDecode s.pkt s.pktLen.toNat) (h2 : o.af = .zero .notRun) (h3 : o.pesh = .zero .notRun)
      (hw : ¬ AbsorbsWhole s i) : AbsorbGroups s t i :=
    ⟨hh.trans h1, fun w => absurd w hw, fun _ => ha.trans h2, fun r => absurd r.whole hw, fun _ => hp.trans h3⟩
  by_cases h4 : s.pktLen.toNat < 4
  · rw [absorb_short h4] at h
    cases h
    exact ⟨ended (tshDecode_short h4).symm rfl rfl fun w => by have := w.full; omega, by simp [absorbTurnedAway]⟩
  by_cases hpid : hdrPid (headerWord s.pkt) = (s.inst i).pid
  swap
  · rw [absorb_otherPid (by omega) hpid] at h
    cases h
    exact ⟨ended rfl rfl rfl fun w => hpid w.pid, by simp [absorbTurnedAway]⟩
  by_cases hfull : s.pktLen.toNat < 188
  · rw [absorb_partial (by omega) hpid hfull] at h
    cases h
    exact ⟨ended rfl rfl rfl fun w => by have := w.full; omega, by simp [absorbEnded]⟩
  have hw : AbsorbsWhole s i := ⟨he, by omega, hpid⟩
  have whole (h1 : o.hdr = tshDecode s.pkt s.pktLen.toNat) (h2 : o.af = absorbAf s.pkt (headerWord s.pkt))
      (h3 : ReachesStateMachine s i → o.pesh = if hdrPusi (headerWord s.pkt) then
        peshDecode s.pkt (absorbOffset s.pkt) (absorbSize s.pkt) else .zero .notRun)
      (h4 : ¬ ReachesStateMachine s i → o.pesh = .zero .notRun) : AbsorbGroups s t i := by
    rw [absorbAf_eq] at h2
    refine ⟨hh.trans h1, fun _ f => by rw [ha, h2, if_pos f], fun n => ?_, fun r f => by rw [hp, h3 r, if_pos f],
      fun n => ?_⟩
    · rw [ha, h2, if_neg fun f => n ⟨hw, f⟩]
    · by_cases r : ReachesStateMachine s i
      · rw [hp, h3 r, if_neg fun f => n ⟨r, f⟩]
      · exact hp.trans (h4 r)
  by_cases haf : AfAccepted s.pkt
  swap
  · rw [absorb_badAf (by omega) hpid haf] at h
    cases h
    refine ⟨whole rfl rfl (fun r => absurd r.af haf) fun _ => rfl, ?_⟩
    obtain e | e := absorbAf_rejected haf <;> simp [absorbEnded, e]
  cases hc : ccOk s.params.ccFirst (s.inst i).lastCc (hdrCc (headerWord s.pkt))
  · rw [absorb_lost (by omega) hpid haf hc] at h
    cases h
    refine ⟨whole rfl rfl (fun r => ?_) fun _ => rfl, by simp [absorbEnded]⟩
    simp [ccOk_iff.2 r.counter] at hc
  · rw [absorb_stepped (by omega) hpid haf hc] at h
    obtain ⟨q, hq, rfl⟩ := Option.map_eq_some_iff.1 h
    obtain ⟨e, c⟩ := stateMachine_pesh hq
    exact ⟨whole rfl rfl (fun _ => e) fun n => absurd ⟨hw, haf, ccOk_iff.1 hc⟩ n, c⟩

end Sys2Proof.Machine
end

