-- ==== Sys2Proof/Laws/AdaptationField.lean ====
section
/-! SUPPORT. Each optional sub-field of the adaptation field in one equation: it fits before the field's end or the
field is malformed, and what it writes (41_adaptation_field.md R141, R143). -/

namespace Sys2Proof.Machine

/-! ### What each sub-field writes -/

/-- The group after the PCR sub-field. -/
def pcrRead (p : Packet) (c : AfCursor) : AfGroup :=
  if afPcrf c.grp.flags then
    { c.grp with
      pcrBase := clockBase (p.field c.pos 6 48)
      pcrExt := clockExt (p.field c.pos 6 48)
      pcrTime := clockTime (clockBase (p.field c.pos 6 48)) (clockExt (p.field c.pos 6 48)) }
  else c.grp

/-- The group after the OPCR sub-field. -/
def opcrRead (p : Packet) (c : AfCursor) : AfGroup :=
  if afOpcrf c.grp.flags then
    { c.grp with
      opcrBase := clockBase (p.field c.pos 6 48)
      opcrExt := clockExt (p.field c.pos 6 48)
      opcrTime := clockTime (clockBase (p.field c.pos 6 48)) (clockExt (p.field c.pos 6 48)) }
  else c.grp

/-- The group after the splice countdown. -/
def spliceRead (p : Packet) (c : AfCursor) : AfGroup :=
  if afSpf c.grp.flags then { c.grp with spliceCd := p.byte c.pos } else c.grp

/-- The group after the private data. -/
def privateRead (p : Packet) (c : AfCursor) : AfGroup :=
  if afTpdf c.grp.flags then { c.grp with privLen := p.byte c.pos } else c.grp

/-- The group after the extension. -/
def extensionRead (p : Packet) (c : AfCursor) : AfGroup :=
  if afExtf c.grp.flags then { c.grp with extLen := p.byte c.pos } else c.grp

/-! ### The flags survive every sub-field -/

@[simp] theorem pcrRead_flags (p : Packet) (c : AfCursor) : (pcrRead p c).flags = c.grp.flags := by
  unfold pcrRead; split <;> rfl
@[simp] theorem opcrRead_flags (p : Packet) (c : AfCursor) : (opcrRead p c).flags = c.grp.flags := by
  unfold opcrRead; split <;> rfl
@[simp] theorem spliceRead_flags (p : Packet) (c : AfCursor) : (spliceRead p c).flags = c.grp.flags := by
  unfold spliceRead; split <;> rfl
@[simp] theorem privateRead_flags (p : Packet) (c : AfCursor) : (privateRead p c).flags = c.grp.flags := by
  unfold privateRead; split <;> rfl
@[simp] theorem extensionRead_flags (p : Packet) (c : AfCursor) : (extensionRead p c).flags = c.grp.flags := by
  unfold extensionRead; split <;> rfl

/-! ### The steps -/

theorem takePcr_eq {p : Packet} {fin : Nat} {c : AfCursor} (h : c.pos ≤ fin) :
    takePcr p fin c =
      if fin < c.pos + 6 * (afPcrf c.grp.flags).toNat then none
      else some ⟨c.pos + 6 * (afPcrf c.grp.flags).toNat, pcrRead p c⟩ := by
  unfold takePcr afOptional pcrRead
  cases afPcrf c.grp.flags <;> simp
  · exact h
  · split <;> split <;> first | rfl | omega

theorem takeOpcr_eq {p : Packet} {fin : Nat} {c : AfCursor} (h : c.pos ≤ fin) :
    takeOpcr p fin c =
      if fin < c.pos + 6 * (afOpcrf c.grp.flags).toNat then none
      else some ⟨c.pos + 6 * (afOpcrf c.grp.flags).toNat, opcrRead p c⟩ := by
  unfold takeOpcr afOptional opcrRead
  cases afOpcrf c.grp.flags <;> simp
  · exact h
  · split <;> split <;> first | rfl | omega

theorem takeSplice_eq {p : Packet} {fin : Nat} {c : AfCursor} (h : c.pos ≤ fin) :
    takeSplice p fin c =
      if fin < c.pos + (afSpf c.grp.flags).toNat then none
      else some ⟨c.pos + (afSpf c.grp.flags).toNat, spliceRead p c⟩ := by
  unfold takeSplice afOptional spliceRead
  cases afSpf c.grp.flags <;> simp
  · exact h
  · split <;> split <;> first | rfl | omega

theorem takePrivate_eq {p : Packet} {fin : Nat} {c : AfCursor} (h : c.pos ≤ fin) :
    takePrivate p fin c =
      if fin < c.pos + (1 + (p.byte c.pos).toNat) * (afTpdf c.grp.flags).toNat then none
      else some ⟨c.pos + (1 + (p.byte c.pos).toNat) * (afTpdf c.grp.flags).toNat, privateRead p c⟩ := by
  unfold takePrivate afOptional privateRead
  cases afTpdf c.grp.flags <;> simp
  · exact h
  · split <;> split <;> try split
    all_goals first | rfl | omega

theorem takeExtension_eq {p : Packet} {fin : Nat} {c : AfCursor} (h : c.pos ≤ fin) :
    takeExtension p fin c =
      if fin < c.pos + (1 + (p.byte c.pos).toNat) * (afExtf c.grp.flags).toNat then none
      else some ⟨c.pos + (1 + (p.byte c.pos).toNat) * (afExtf c.grp.flags).toNat, extensionRead p c⟩ := by
  unfold takeExtension afOptional extensionRead
  cases afExtf c.grp.flags <;> simp
  · exact h
  · split <;> split <;> try split
    all_goals first | rfl | omega

end Sys2Proof.Machine
end

