-- ==== Sys2Proof/Laws/PerInstr.lean ====
section
/-! SUPPORT. A statement about every command as syntax, one lemma for each constructor of `Instr`: its encoding fits
its row of R81. -/

namespace Sys2Proof.Laws.EncodeFitsRow

/-- The operation of a command. -/
def opOf : Instr → Op
  | .tshDecode => .tshDecode
  | .afDecode => .afDecode
  | .peshDecode _ => .peshDecode
  | .asmInit _ _ => .asmInit
  | .asmAbsorb _ => .asmAbsorb
  | .asmRelease _ => .asmRelease
  | .pktProcess => .pktProcess

/-- The command's word has its row's match bits under its row's mask (30_encoding.md R81, R82 case 2). -/
def Statement (c : Instr) : Prop :=
  ∃ r ∈ opcodeTable, r.op = opOf c ∧ encode c &&& r.mask = r.matchBits

/-- An assembled word under a mask: bit by bit. -/
theorem assemble_and_eq {opc : BitVec 4} {i : InstId} {ofs : Byte} {pid : Pid} {mask m : Word}
    (h : ∀ k, k < 32 → ((assemble opc i ofs pid).getLsbD k && mask.getLsbD k) = m.getLsbD k) :
    assemble opc i ofs pid &&& mask = m := by
  ext k hk
  rw [← BitVec.getLsbD_eq_getElem hk, ← BitVec.getLsbD_eq_getElem hk, BitVec.getLsbD_and]
  exact h k hk

theorem tshDecode : Statement .tshDecode :=
  ⟨⟨.tshDecode, 0x1, 0x10000000, 0xFFFFFFFF⟩, by decide, rfl, by decide⟩

theorem afDecode : Statement .afDecode :=
  ⟨⟨.afDecode, 0x2, 0x20000000, 0xFFFFFFFF⟩, by decide, rfl, by decide⟩

theorem peshDecode (ofs : Byte) : Statement (.peshDecode ofs) := by
  refine ⟨⟨.peshDecode, 0x3, 0x30000000, 0xFF00FFFF⟩, by decide, rfl, assemble_and_eq fun k hk => ?_⟩
  rw [assemble_getLsbD]
  by_cases h : 16 ≤ k ∧ k < 24
  · have : (0xFF00FFFF : Word).getLsbD k = false ∧ (0x30000000 : Word).getLsbD k = false := by
      obtain ⟨h1, h2⟩ := h
      interval_cases k <;> decide
    rw [this.1, this.2, Bool.and_false]
  · interval_cases k <;> first | rfl | (exfalso; omega)

theorem asmInit (i : InstId) (pid : Pid) : Statement (.asmInit i pid) := by
  refine ⟨⟨.asmInit, 0x4, 0x40000000, 0xF0FFE000⟩, by decide, rfl, assemble_and_eq fun k hk => ?_⟩
  rw [assemble_getLsbD]
  by_cases h : k < 13 ∨ (24 ≤ k ∧ k < 28)
  · have : (0xF0FFE000 : Word).getLsbD k = false ∧ (0x40000000 : Word).getLsbD k = false := by
      interval_cases k <;> first | decide | (exfalso; omega)
    rw [this.1, this.2, Bool.and_false]
  · interval_cases k <;> first | rfl | (exfalso; omega)

/-- ASM_ABSORB and ASM_RELEASE use the `INST` field only. -/
theorem assemble_inst_and {opc : BitVec 4} (i : InstId) :
    assemble opc i 0 0 &&& 0xF0FFFFFF = assemble opc 0 0 0 := by
  refine assemble_and_eq fun k hk => ?_
  rw [assemble_getLsbD, assemble_getLsbD]
  by_cases h : 24 ≤ k ∧ k < 28
  · have hm : (0xF0FFFFFF : Word).getLsbD k = false := by
      obtain ⟨h1, h2⟩ := h
      interval_cases k <;> decide
    simp only [hm, h.2, show ¬ k < 13 by omega, show ¬ k < 16 by omega, show ¬ k < 24 by omega, if_true, if_false,
      Bool.and_false]
    simp
  · have hm : (0xF0FFFFFF : Word).getLsbD k = true := by
      interval_cases k <;> first | decide | (exfalso; omega)
    rw [hm, Bool.and_true]
    by_cases h2 : k < 28
    · simp only [show k < 24 by omega, if_true]
    · simp only [h2, if_false]

theorem asmAbsorb (i : InstId) : Statement (.asmAbsorb i) :=
  ⟨⟨.asmAbsorb, 0x5, 0x50000000, 0xF0FFFFFF⟩, by decide, rfl, (assemble_inst_and i).trans (by decide)⟩

theorem asmRelease (i : InstId) : Statement (.asmRelease i) :=
  ⟨⟨.asmRelease, 0x6, 0x60000000, 0xF0FFFFFF⟩, by decide, rfl, (assemble_inst_and i).trans (by decide)⟩

theorem pktProcess : Statement .pktProcess :=
  ⟨⟨.pktProcess, 0x7, 0x70000000, 0xFFFFFFFF⟩, by decide, rfl, by decide⟩

end Sys2Proof.Laws.EncodeFitsRow
end

