-- ==== Sys2Proof/Machine/StreamText.lean ====
section
/-! DEFINITION. The text of the command-stream notation (30_encoding.md R100): from the characters of a line to the
abstract line of CommandStream.lean. Where R100 does not fix a spelling, log entry 15 says what is read. -/

namespace Sys2Proof.Machine

/-! ### Characters, numbers, fields -/

/-- The value of a hexadecimal digit, in either case. -/
def hexDigit? (c : Char) : Option Nat :=
  let n := c.toNat
  if 48 ≤ n ∧ n ≤ 57 then some (n - 48)
  else if 65 ≤ n ∧ n ≤ 70 then some (n - 55)
  else if 97 ≤ n ∧ n ≤ 102 then some (n - 87)
  else none

/-- Digits of a base read on from a value. -/
def digitsFrom (base : Nat) : Nat → List Char → Option Nat
  | acc, [] => some acc
  | acc, c :: cs =>
    match hexDigit? c with
    | some d => if d < base then digitsFrom base (acc * base + d) cs else none
    | none => none

/-- One digit or more of a base. -/
def digits? (base : Nat) : List Char → Option Nat
  | [] => none
  | cs => digitsFrom base 0 cs

/-- A number: `0x` and hexadecimal digits (00_scope.md R7), or decimal digits. -/
def number? : List Char → Option Nat
  | '0' :: 'x' :: cs => digits? 16 cs
  | cs => digits? 10 cs

/-- A number below a bound. -/
def numberBelow? (bound : Nat) (cs : List Char) : Option Nat :=
  (number? cs).bind fun n => if n < bound then some n else none

/-- One hexadecimal byte `XX` (R100). -/
def byte? : List Char → Option Byte
  | [a, b] => (digits? 16 [a, b]).map (BitVec.ofNat 8)
  | _ => none

/-- The stretches of a text between separators, empty ones included. -/
def fields (sep : Char → Bool) : List Char → List (List Char)
  | [] => [[]]
  | c :: cs =>
    if sep c then [] :: fields sep cs
    else
      match fields sep cs with
      | f :: fs => (c :: f) :: fs
      | [] => [[c]]

/-- Space or tab. -/
def isBlank (c : Char) : Bool :=
  c == ' ' || c == '\t'

/-- The words of a line; `;` starts a comment (R100). -/
def lineWords (cs : List Char) : List (List Char) :=
  (fields isBlank (cs.takeWhile (· != ';'))).filter (· != [])

/-! ### Commands -/

/-- The mnemonics of 30_encoding.md R81. There are no pseudo-instructions (R100). -/
def mnemonics : List (String × Op) :=
  [("TSH_DECODE", .tshDecode), ("AF_DECODE", .afDecode), ("PESH_DECODE", .peshDecode), ("ASM_INIT", .asmInit),
    ("ASM_ABSORB", .asmAbsorb), ("ASM_RELEASE", .asmRelease), ("PKT_PROCESS", .pktProcess)]

/-- What a name stands for in a table. -/
def lookup? {α : Type} (table : List (String × α)) (name : List Char) : Option α :=
  (table.find? fun e => e.1 == String.ofList name).map Prod.snd

/-- The operands a command line has written so far. -/
structure Operands where
  inst : Option InstId
  ofs : Option Byte
  pid : Option Pid
deriving DecidableEq, Repr

/-- One operand `key=value` in R100's ranges. A key stands once. -/
def operand? (ops : Operands) (w : List Char) : Option Operands :=
  match w with
  | 'i' :: 'n' :: 's' :: 't' :: '=' :: v =>
    if ops.inst = none then
      (numberBelow? 16 v).map fun n => { ops with inst := some (Fin.ofNat 16 n) }
    else none
  | 'o' :: 'f' :: 's' :: '=' :: v =>
    if ops.ofs = none then
      (numberBelow? 256 v).map fun n => { ops with ofs := some (BitVec.ofNat 8 n) }
    else none
  | 'p' :: 'i' :: 'd' :: '=' :: v =>
    if ops.pid = none then
      (numberBelow? 0x2000 v).map fun n => { ops with pid := some (BitVec.ofNat 13 n) }
    else none
  | _ => none

/-- The operands of a command line. -/
def operands? : Operands → List (List Char) → Option Operands
  | ops, [] => some ops
  | ops, w :: ws => (operand? ops w).bind fun o => operands? o ws

/-- A command with its operands: an omitted one is 0 (R100), and only those the operation uses (R81) may stand. -/
def commandOf (op : Op) (o : Operands) : Option Instr :=
  let inst := o.inst.getD 0
  match op with
  | .tshDecode => if o = ⟨none, none, none⟩ then some .tshDecode else none
  | .afDecode => if o = ⟨none, none, none⟩ then some .afDecode else none
  | .peshDecode => if o.inst = none ∧ o.pid = none then some (.peshDecode (o.ofs.getD 0)) else none
  | .asmInit => if o.ofs = none then some (.asmInit inst (o.pid.getD 0)) else none
  | .asmAbsorb => if o.ofs = none ∧ o.pid = none then some (.asmAbsorb inst) else none
  | .asmRelease => if o.ofs = none ∧ o.pid = none then some (.asmRelease inst) else none
  | .pktProcess => if o = ⟨none, none, none⟩ then some .pktProcess else none

/-! ### Byte lists -/

/-- One item of a byte list: `XX`, `XX*n` or `SEQ(XX,n)` (R100). -/
def byteItem? (w : List Char) : Option ByteItem :=
  match w with
  | 'S' :: 'E' :: 'Q' :: '(' :: cs =>
    match fields (· == ',') cs.dropLast, cs.getLast? with
    | [b, n], some ')' => (byte? b).bind fun x => (digits? 10 n).map (ByteItem.seq x)
    | _, _ => none
  | _ =>
    match fields (· == '*') w with
    | [b] => (byte? b).map ByteItem.one
    | [b, n] => (byte? b).bind fun x => (digits? 10 n).map (ByteItem.rep x)
    | _ => none

/-- A byte list; `|` stands for nothing (R100). -/
def byteItems? : List (List Char) → Option (List ByteItem)
  | [] => some []
  | w :: ws =>
    if w = ['|'] then byteItems? ws
    else (byteItem? w).bind fun i => (byteItems? ws).map (i :: ·)

/-! ### Registers -/

/-- The registers of 20_memory.md R71 outside the packet and the instance blocks, by name. -/
def registerNames : List (String × StreamLine) :=
  [("CMD", .readCmd), ("RESULT", .read .result), ("PKT_LEN", .read .pktLen), ("CFG", .read .cfg),
    ("CFG_CAPU", .read .cfgCapu), ("HDR_WORD", .read .hdrWord), ("HDR_STAT", .read .hdrStat),
    ("AF_STAT", .read .afStat), ("AF_INFO", .read .afInfo), ("AF_LENS", .read .afLens),
    ("PCR_BASE_LO", .read .pcrBaseLo), ("PCR_BASE_HI", .read .pcrBaseHi), ("PCR_TIME_LO", .read .pcrTimeLo),
    ("PCR_TIME_HI", .read .pcrTimeHi)] ++
  [("OPCR_BASE_LO", .read .opcrBaseLo), ("OPCR_BASE_HI", .read .opcrBaseHi),
    ("OPCR_TIME_LO", .read .opcrTimeLo), ("OPCR_TIME_HI", .read .opcrTimeHi), ("PESH_STAT", .read .peshStat),
    ("PESH_ID", .read .peshId), ("PESH_LEN", .read .peshLen), ("PESH_FLAGS", .read .peshFlags),
    ("PTS_LO", .read .ptsLo), ("PTS_HI", .read .ptsHi), ("DTS_LO", .read .dtsLo), ("DTS_HI", .read .dtsHi)]

/-- The registers of an instance block by name (R71). -/
def instRegisterNames : List (String × InstReg) :=
  [("I_CTRL", .ctrl), ("I_LASTCC", .lastCc), ("I_CAP", .cap), ("I_WOFF", .woff), ("I_HL", .hl), ("I_PHL", .phl),
    ("I_PDL", .pdl), ("I_LRES", .lres)]

/-- The register a `.read` names: `NAME`, `NAME[i]` of an instance block, or `PKT[k]` (R71). -/
def register? (w : List Char) : Option StreamLine :=
  match fields (· == '[') w with
  | [name] => lookup? registerNames name
  | [name, index] =>
    if index.getLast? = some ']' then
      (number? index.dropLast).bind fun k =>
        if name = ['P', 'K', 'T'] then
          if h : k < 188 then some (.readPkt ⟨k, h⟩) else none
        else if k < 16 then (lookup? instRegisterNames name).map fun r => .read (.inst (Fin.ofNat 16 k) r)
        else none
    else none
  | _ => none

/-! ### Lines -/

/-- The line with its check of R100: the byte list of a `.pkt` has exactly `len` bytes. -/
def checkedLine (l : StreamLine) : Option StreamLine :=
  if l.wellFormed then some l else none

/-- A line of the stream that is not blank, by its words. -/
def lineOf? : List (List Char) → Option StreamLine
  | [] => none
  | ['.', 'p', 'k', 't'] :: len :: bytes =>
    (digits? 10 len).bind fun n => (byteItems? bytes).bind fun items => checkedLine (.pkt n items)
  | [['.', 'r', 'e', 'a', 'd'], r] => register? r
  | name :: ops =>
    (lookup? mnemonics name).bind fun op =>
      (operands? ⟨none, none, none⟩ ops).bind fun o => (commandOf op o).map .command

/-- A command stream, line by line: blank lines and comments stand for nothing, and a line R100 does not allow makes
the whole text no command stream. -/
def stream? : List String → Option (List StreamLine)
  | [] => some []
  | t :: ts =>
    match lineWords t.toList with
    | [] => stream? ts
    | ws => (lineOf? ws).bind fun l => (stream? ts).map (l :: ·)

end Sys2Proof.Machine
end

