-- ==== Sys2Proof/WellFormed.lean ====
section
/-! DEFINITION. Which commands are well formed for given parameters: the operand check of 30_encoding.md R82 that
depends on the command word and `N_ASM` alone (case 3). The widths of R80 are in the types of `Instr`. -/

namespace Sys2Proof

/-- The instance a command names, for the three commands with an `INST` operand (R80). -/
def Instr.instOperand : Instr → Option InstId
  | .tshDecode => none
  | .afDecode => none
  | .peshDecode _ => none
  | .asmInit i _ => some i
  | .asmAbsorb i => some i
  | .asmRelease i => some i
  | .pktProcess => none

/-- A command is well formed when the instance it names exists: `INST < N_ASM` (R82 case 3). A command that is not
still runs, and ends with `ILLEGAL_COMMAND` (60_exceptions.md R274). -/
def Instr.wellFormed (p : Params) (c : Instr) : Bool :=
  match c with
  | .tshDecode => true
  | .afDecode => true
  | .peshDecode _ => true
  | .asmInit i _ => decide (i.val < p.nAsm)
  | .asmAbsorb i => decide (i.val < p.nAsm)
  | .asmRelease i => decide (i.val < p.nAsm)
  | .pktProcess => true

end Sys2Proof
end

