-- ==== Sys2Proof/Tests/Slice0.lean ====
section
/-! SUPPORT. The model's own tests, with expected values from spec/95_test_vectors.md, and for each obligation with
hypotheses a witness that they can hold together. -/

namespace Sys2Proof.Tests

open Sys2Proof.Machine

/-! ### Helpers -/

/-- The bytes of a list of small numbers. -/
def hex (l : List Nat) : List ByteItem := l.map fun n => .one (BitVec.ofNat 8 n)

/-- A packet whose first bytes are written. -/
def packetOf (items : List ByteItem) : Packet := ⟨cellsFrom 0 (byteList items), 0⟩

/-- The state after `.pkt` (R100). -/
def place (items : List ByteItem) (s : State) : State :=
  { s with pkt := packetOf items, pktLen := BitVec.ofNat 8 (byteList items).length }

/-- `PKT_LEN` set on its own. -/
def withLen (n : Nat) (s : State) : State := { s with pktLen := BitVec.ofNat 8 n }

/-- The next state, if there is one. -/
def nextOf : Host.Outcome State Fault Refusal → Option State
  | .next s => some s
  | .fault _ => none
  | .refused _ => none

/-- Whether an outcome is a next state. -/
def isNext (o : Host.Outcome State Fault Refusal) : Bool := (nextOf o).isSome

theorem exists_next {o : Host.Outcome State Fault Refusal} (h : isNext o = true) : ∃ t, o = .next t := by
  cases o with
  | next t => exact ⟨t, rfl⟩
  | fault r => cases r
  | refused r => simp [isNext, nextOf] at h

/-- Whether an outcome is the refusal of an append. -/
def isWoffRefusal : Host.Outcome State Fault Refusal → Bool
  | .next _ => false
  | .fault _ => false
  | .refused r => r == .woffOverflow

/-- What a register of the map reads after a command. -/
def reads (c : Instr) (s : State) (r : HostReg) : Option Word := (nextOf (exec c s)).map fun t => r.word t

/-- `hdr(pl)` of the vectors: an audio PES header with no timestamps. -/
def pesHdr (pl : Nat) : List ByteItem := hex [0, 0, 1, 0xC0, pl / 256, pl % 256, 0x80, 0, 0]

/-- Instance 0 tracks PID 0x100 and nothing has been absorbed. -/
def active0 : State := State.reset.setInst 0 (.init 0x100)

/-- An instance with a packet of declared length `pl` in progress, `n` bytes of it stored. -/
def inProgress (pl n : Nat) : Assembler :=
  { Assembler.init 0x100 with
    started := true
    buf := cellsFrom 0 (byteList [.rep 0x55 n])
    cap := startCap Params.ofVectors (BitVec.ofNat 16 pl)
    woff := BitVec.ofNat 32 n
    curHl := 9
    curPl := BitVec.ofNat 16 pl
    lastCc := some 0
    lastResult := ⟨.assemblingStarted, false⟩ }

/-- Instance 0 has such a packet in progress. -/
def started0 (pl n : Nat) : State := State.reset.setInst 0 (inProgress pl n)

/-- ASM1a's packet: PUSI 1, CC 0, `hdr(200)`, 175 payload bytes. -/
def startPkt : List ByteItem := hex [0x47, 0x41, 0x00, 0x10] ++ pesHdr 200 ++ [.seq 0 175]

/-- The same with CC 1. -/
def startPkt1 : List ByteItem := hex [0x47, 0x41, 0x00, 0x11] ++ pesHdr 200 ++ [.seq 0 175]

/-- PUSI 1, CC `cc`, a stuffed field of length 178 and a 5-byte payload (ASM5a). -/
def shortHdrPkt (cc : Nat) : List ByteItem :=
  hex [0x47, 0x41, 0x00, 0x30 + cc, 178, 0] ++ [.rep 0xFF 177] ++ hex [0, 0, 1, 0xC0, 0]

/-- PUSI 0, CC 1, a full payload. -/
def contPkt : List ByteItem := hex [0x47, 0x01, 0x00, 0x11] ++ [.rep 0x11 184]

/-- PUSI 0, CC 1, a stuffed field of length 180 and a 3-byte payload. -/
def cont3Pkt : List ByteItem := hex [0x47, 0x01, 0x00, 0x31, 180, 0] ++ [.rep 0xFF 179] ++ hex [0xD1, 0xD2, 0xD3]

/-! ### Bool forms of the conditions of Safety.lean -/

def enabledB (s : State) (i : InstId) : Bool :=
  decide (s.pktLen.toNat ≤ 188) && decide (i.val < s.params.nAsm) && (s.inst i).active

theorem enabled_of {s : State} {i : InstId} (h : enabledB s i = true) : AbsorbEnabled s i := by
  simp only [enabledB, Bool.and_eq_true, decide_eq_true_eq] at h
  exact ⟨h.1.1, h.1.2, h.2⟩

def wholeB (s : State) (i : InstId) : Bool :=
  enabledB s i && decide (s.pktLen.toNat = 188) && decide (hdrPid (headerWord s.pkt) = (s.inst i).pid)

theorem whole_of {s : State} {i : InstId} (h : wholeB s i = true) : AbsorbsWhole s i := by
  simp only [wholeB, Bool.and_eq_true, decide_eq_true_eq] at h
  exact ⟨enabled_of h.1.1, h.1.2, h.2⟩

def acceptedB (p : Packet) : Bool :=
  !afcHasField (hdrAfc (headerWord p)) || decide ((absorbAf p (headerWord p)).status = .ok)

theorem accepted_of {p : Packet} (h : acceptedB p = true) : AfAccepted p := by
  intro hf
  simpa [acceptedB, hf] using h

def counterB (s : State) (i : InstId) : Bool :=
  ccOk s.params.ccFirst (s.inst i).lastCc (hdrCc (headerWord s.pkt))

def reachesB (s : State) (i : InstId) : Bool := wholeB s i && acceptedB s.pkt && counterB s i

theorem reaches_of {s : State} {i : InstId} (h : reachesB s i = true) : ReachesStateMachine s i := by
  simp only [reachesB, Bool.and_eq_true] at h
  exact ⟨whole_of h.1.1, accepted_of h.1.2, ccOk_iff.1 h.2⟩

def matchesB (s : State) (i : InstId) : Bool :=
  decide (i.val < s.params.nAsm) && (s.inst i).active && decide ((s.inst i).pid = hdrPid (headerWord s.pkt))

theorem matches_of {s : State} {i : InstId} (h : matchesB s i = true) : Matches s i := by
  simp only [matchesB, Bool.and_eq_true, decide_eq_true_eq] at h
  exact ⟨h.1.1, h.1.2, h.2⟩

theorem matches_iff {s : State} {i : InstId} : Matches s i ↔ matchesB s i = true := by
  refine ⟨fun h => ?_, matches_of⟩
  simp [matchesB, h.inst, h.active, h.pid]

/-! ### Well-formedness smoke test (R82 case 3, with N_ASM = 2) -/

theorem test_wellFormed_refuses_asmInit : Instr.wellFormed Params.ofVectors (.asmInit 2 0x100) = false := by decide
theorem test_wellFormed_refuses_asmAbsorb : Instr.wellFormed Params.ofVectors (.asmAbsorb 2) = false := by decide
theorem test_wellFormed_refuses_asmRelease : Instr.wellFormed Params.ofVectors (.asmRelease 15) = false := by decide
theorem test_wellFormed_accepts :
    Instr.wellFormed Params.ofVectors (.asmInit 1 0x1FFF) = true ∧
      Instr.wellFormed Params.ofVectors (.peshDecode 255) = true := by decide
theorem test_stream_refuses_wrong_length : StreamLine.wellFormed (.pkt 5 (hex [0x47, 0x41, 0x00, 0x1A])) = false := by
  decide
theorem test_stream_refuses_long_packet : StreamLine.wellFormed (.pkt 189 [.rep 0 189]) = false := by decide +kernel

/-! ### Command-stream text (R100), lines of 95_test_vectors.md -/

theorem test_text_reads_program :
    stream? ["ASM_INIT inst=1 pid=0x1E1        ; 0x410001E1", "",
      ".pkt 12 47 01 00 31 | B3 00 FF*2 | SEQ(FE,4)", "PESH_DECODE ofs=200", ".read RESULT", ".read I_LRES[1]",
      ".read PKT[187]", "PKT_PROCESS"] =
    some [.command (.asmInit 1 0x1E1),
      .pkt 12 (hex [0x47, 0x01, 0x00, 0x31, 0xB3, 0x00] ++ [.rep 0xFF 2, .seq 0xFE 4]),
      .command (.peshDecode 200), .read .result, .read (.inst 1 .lres), .readPkt 187, .command .pktProcess] := by
  decide
theorem test_text_refuses :
    stream? [".pkt 5 47 41 00 1A"] = none ∧ stream? ["ASM_INIT inst=16 pid=0"] = none ∧
      stream? ["ASM_ABSORB pid=0x100"] = none ∧ stream? ["NOP"] = none := by
  decide
theorem test_seq_wraps : byteList [.seq 0xFE 4] = [0xFE, 0xFF, 0x00, 0x01] := by decide

/-! ### Decoding, one word of each row written out from R80's fields: OPC, INST, OFS, RSV, PIDF -/

theorem test_decode_tshDecode :
    decode (0b0001#4 ++ 0b0000#4 ++ 0b00000000#8 ++ 0b000#3 ++ 0b0000000000000#13) = .ok .tshDecode := by decide
theorem test_decode_afDecode :
    decode (0b0010#4 ++ 0b0000#4 ++ 0b00000000#8 ++ 0b000#3 ++ 0b0000000000000#13) = .ok .afDecode := by decide
theorem test_decode_peshDecode :
    decode (0b0011#4 ++ 0b0000#4 ++ 0b11001000#8 ++ 0b000#3 ++ 0b0000000000000#13) = .ok (.peshDecode 200) := by decide
theorem test_decode_asmInit :
    decode (0b0100#4 ++ 0b0001#4 ++ 0b00000000#8 ++ 0b000#3 ++ 0b0000111100001#13) = .ok (.asmInit 1 0x1E1) := by decide
theorem test_decode_asmAbsorb :
    decode (0b0101#4 ++ 0b1111#4 ++ 0b00000000#8 ++ 0b000#3 ++ 0b0000000000000#13) = .ok (.asmAbsorb 15) := by decide
theorem test_decode_asmRelease :
    decode (0b0110#4 ++ 0b0001#4 ++ 0b00000000#8 ++ 0b000#3 ++ 0b0000000000000#13) = .ok (.asmRelease 1) := by decide
theorem test_decode_pktProcess :
    decode (0b0111#4 ++ 0b0000#4 ++ 0b00000000#8 ++ 0b000#3 ++ 0b0000000000000#13) = .ok .pktProcess := by decide
theorem test_decode_rejects_reserved_bits :
    decode (0b0001#4 ++ 0b0000#4 ++ 0b00000000#8 ++ 0b001#3 ++ 0b0000000000000#13) =
      .error (.unusedFieldNonzero .tshDecode) := by decide
theorem test_decode_rejects_opcode_8 : decode 0x80000000 = .error (.reservedOpcode 8) := by decide

/-! ### Reset and memory -/

theorem test_reset_memory_wf :
    Memory.wf State.reset.pkt.cells ∧ ∀ i, Memory.wf (State.reset.inst i).buf := by decide
theorem test_reset_result : State.reset.hostRead .word 0x004 = 0x00001F0C := by decide +kernel

/-! ### The commands (values of 95_test_vectors.md) -/

/-- Vector TSH5. -/
theorem test_tshDecode_fields :
    (nextOf (exec .tshDecode (place (hex [0x47, 0xA0, 0x21, 0xCF]) State.reset))).map (fun t =>
      ([hdrTei t.hdr.word, hdrPusi t.hdr.word, hdrTp t.hdr.word],
        [(hdrPid t.hdr.word).toNat, (hdrTsc t.hdr.word).toNat, (hdrAfc t.hdr.word).toNat, (hdrCc t.hdr.word).toNat])) =
      some ([true, false, true], [0x0021, 3, 0, 15]) := by decide +kernel
/-- Vector TSH6. -/
theorem test_tshDecode_truncated :
    reads .tshDecode (place (hex [0x47, 0x41, 0x00]) State.reset) .result = some 0x00001F01 := by decide +kernel

/-- Vector AF8. -/
theorem test_afDecode_all_fields :
    (nextOf (exec .afDecode (withLen 188 (place (hex [0x47, 1, 0, 0x30, 0x1E, 0x1F, 0x00, 0x14, 0x99, 0x70, 0x7E, 0x7B,
      0xFF, 0xFF, 0xFF, 0xFF, 0xFF, 0xFF, 0xFD, 0x02, 0xAA, 0xBB, 0x03, 0x01, 0x02, 0x03]) State.reset)))).map (fun t =>
      [t.af.pcrBase.toNat, t.af.pcrExt.toNat, t.af.pcrTime.toNat, t.af.opcrTime.toNat, t.af.spliceCd.toNat,
        t.af.privLen.toNat, t.af.extLen.toNat, t.af.stuffing.toNat, t.af.consumed.toNat]) =
      some [2700000, 123, 810000123, 2576980377811, 0xFD, 2, 3, 9, 31] := by decide +kernel
/-- Vector AF9. -/
theorem test_afDecode_malformed :
    reads .afDecode (withLen 188 (place (hex [0x47, 1, 0, 0x30, 6, 0x10, 0, 0x14, 0x99, 0x70, 0x7E]) State.reset))
      .result = some 0x00001F02 := by decide +kernel

/-- Vector PES2. -/
theorem test_peshDecode_timestamps :
    (nextOf (exec (.peshDecode 4) (place (hex [0x47, 0x41, 0, 0x10, 0, 0, 1, 0xE0, 0, 0, 0x81, 0xC0, 0x0A, 0x39, 0x8D,
      0x15, 0xCF, 0x13, 0x11, 0x00, 0x05, 0xBF, 0x21]) State.reset))).map (fun t =>
      (t.pesh.pts.toNat, t.pesh.dts.toNat, t.pesh.headerLength.toNat, HostReg.word .peshStat t)) =
      some (0x123456789, 90000, 19, 0x70) := by decide +kernel
/-- Vector PES9. -/
theorem test_peshDecode_truncated_timestamp :
    reads (.peshDecode 4) (place (hex [0x47, 0x41, 0, 0x10, 0, 0, 1, 0xC0, 0, 0, 0x80, 0x80, 5, 0x29, 0x8D, 0x15])
      State.reset) .peshStat = some 0x01 := by decide +kernel

/-- Vector INI1. -/
theorem test_asmInit_ctrl : reads (.asmInit 0 0x100) State.reset (.inst 0 .ctrl) = some 0x00010001 := by decide +kernel
/-- Vector INI4. -/
theorem test_asmInit_illegal : reads (.asmInit 2 0x100) State.reset .result = some 0x00000209 := by decide +kernel

/-- Vector REL1: a packet in progress is discarded without a flush. -/
theorem test_asmRelease_no_flush :
    (nextOf (exec (.asmRelease 0) (started0 1000 184))).map (fun t =>
      (t.result.word, HostReg.word (.inst 0 .ctrl) t, HostReg.word (.inst 0 .lres) t, t.sink 0)) =
      some (0x00000000, 0, 0x0C, []) := by decide +kernel
/-- Vector REL2. -/
theorem test_asmRelease_inactive : reads (.asmRelease 1) active0 .result = some 0x00000109 := by decide +kernel

/-- Vector ASM1a. -/
theorem test_asmAbsorb_start :
    (nextOf (exec (.asmAbsorb 0) (place startPkt active0))).map (fun t =>
      (t.result.word, HostReg.word (.inst 0 .lastCc) t, HostReg.word (.inst 0 .woff) t, HostReg.word (.inst 0 .cap) t,
        HostReg.word (.inst 0 .hl) t)) = some (0x00000005, 0, 184, 206, 0x00C80009) := by decide +kernel
/-- Vector ASM2b, on the state ASM2a leaves: the old packet's 175 payload bytes are flushed. -/
theorem test_asmAbsorb_finish_then_start :
    ((nextOf (exec (.asmAbsorb 0) (place (hex [0x47, 0x41, 0x00, 0x10] ++ pesHdr 178 ++ [.seq 0 175]) active0))).bind
      fun s => nextOf (exec (.asmAbsorb 0) (place (hex [0x47, 0x41, 0x00, 0x11] ++ pesHdr 178 ++ [.seq 0 175]) s))).map
      (fun t => (t.result.word, HostReg.word (.inst 0 .phl) t, HostReg.word (.inst 0 .pdl) t,
        decide (t.sink 0 = [byteList [.seq 0 175]]))) = some (0x00000028, 9, 175, true) := by decide +kernel

/-- Vector PP1. -/
theorem test_pktProcess_bad_sync :
    reads .pktProcess (place (hex [0, 0x41, 0xE1, 0x12] ++ [.rep 0 184]) active0) .result = some 0x00001F0A := by
  decide +kernel
/-- Vector PP7: two instances on one PID; `RESULT` is the lower one's, the other starts. -/
theorem test_pktProcess_two_matches :
    (nextOf (exec .pktProcess (place (hex [0x47, 0x41, 0x00, 0x10] ++ pesHdr 0 ++ [.seq 0 175])
      ((started0 1000 184).setInst 1 (.init 0x100))))).map (fun t =>
        (t.result.word, HostReg.word (.inst 0 .lres) t, HostReg.word (.inst 1 .lres) t)) =
      some (0x00000004, 4, 5) := by decide +kernel

/-- R72: a write to `PKT_LEN` takes bits 7:0. -/
theorem test_step_pktLen_low_bits :
    (nextOf (step { State.reset with pending := [.write .word 0x008 0x1BC] })).map (fun t => t.pktLen) = some 0xBC := by
  decide +kernel

/-! ### Witnesses: the hypotheses of each obligation hold together somewhere

The states are small and need not be reached by a run. -/

/-! #### The command word and steps -/

theorem witness_EncodeOfDecodeIsIdentity : ∃ (w : Word) (c : Instr), decode w = .ok c :=
  ⟨0x41001FFF, .asmInit 1 0x1FFF, by decide⟩

theorem witness_IllegalCommandChecksInOrder_reserved :
    ∃ w : Word, ∀ r ∈ opcodeTable, w.extractLsb' 28 4 ≠ r.opc := ⟨0x80000000, by decide⟩

theorem witness_IllegalCommandChecksInOrder_unused :
    ∃ w : Word, ∃ r ∈ opcodeTable, w.extractLsb' 28 4 = r.opc ∧ w &&& r.mask ≠ r.matchBits :=
  ⟨0x50000100, ⟨.asmAbsorb, 0x5, 0x50000000, 0xF0FFFFFF⟩, by decide, by decide, by decide⟩

/-- The word `0x52000000` with `PKT_LEN = 189`: the packet check comes before the index check. -/
theorem witness_IllegalCommandChecksInOrder_tooLong :
    ∃ (s : State) (w : Word), ∃ r ∈ opcodeTable, w.extractLsb' 28 4 = r.opc ∧ w &&& r.mask = r.matchBits ∧
      opReadsPacket r.op = true ∧ 188 < s.pktLen.toNat ∧ s.params.nAsm ≤ (instField w).val :=
  ⟨withLen 189 active0, 0x52000000, ⟨.asmAbsorb, 0x5, 0x50000000, 0xF0FFFFFF⟩, by decide, by decide, by decide,
    by decide, by decide, by decide⟩

theorem witness_IllegalCommandChecksInOrder_index :
    ∃ (s : State) (w : Word), ∃ r ∈ opcodeTable, w.extractLsb' 28 4 = r.opc ∧ w &&& r.mask = r.matchBits ∧
      ¬ (opReadsPacket r.op = true ∧ 188 < s.pktLen.toNat) ∧ opNamesInst r.op = true ∧
      s.params.nAsm ≤ (instField w).val :=
  ⟨withLen 188 active0, 0x52000000, ⟨.asmAbsorb, 0x5, 0x50000000, 0xF0FFFFFF⟩, by decide, by decide, by decide,
    by decide, by decide, by decide⟩

theorem witness_IllegalCommandChecksInOrder_inactive :
    ∃ (s : State) (w : Word), ∃ r ∈ opcodeTable, w.extractLsb' 28 4 = r.opc ∧ w &&& r.mask = r.matchBits ∧
      ¬ (opReadsPacket r.op = true ∧ 188 < s.pktLen.toNat) ∧
      ¬ (opNamesInst r.op = true ∧ s.params.nAsm ≤ (instField w).val) ∧ opNeedsActive r.op = true ∧
      (s.inst (instField w)).active = false :=
  ⟨withLen 188 active0, 0x51000000, ⟨.asmAbsorb, 0x5, 0x50000000, 0xF0FFFFFF⟩, by decide, by decide, by decide,
    by decide, by decide, by decide, by decide⟩

theorem witness_IllegalCommandChecksInOrder_legal :
    ∃ (s : State) (w : Word) (t : State), ∃ r ∈ opcodeTable, w.extractLsb' 28 4 = r.opc ∧
      w &&& r.mask = r.matchBits ∧ ¬ (opReadsPacket r.op = true ∧ 188 < s.pktLen.toNat) ∧
      ¬ (opNamesInst r.op = true ∧ s.params.nAsm ≤ (instField w).val) ∧
      ¬ (opNeedsActive r.op = true ∧ (s.inst (instField w)).active = false) ∧ issue w s = .next t := by
  obtain ⟨t, ht⟩ := exists_next (show isNext (issue 0x50000000 (place startPkt active0)) = true by decide +kernel)
  exact ⟨place startPkt active0, 0x50000000, t, ⟨.asmAbsorb, 0x5, 0x50000000, 0xF0FFFFFF⟩, by decide, by decide,
    by decide, by decide +kernel, by decide +kernel, by decide +kernel, ht⟩

theorem witness_StepRunsTheWrittenCommand :
    ∃ (s : State) (w : Word) (rest : List HostAccess) (c : Instr),
      s.refused = false ∧ s.pending = .write .word 0x000 w :: rest ∧ decode w = .ok c :=
  ⟨{ active0 with pending := [.write .word 0 0x50000000, .read .word 4] }, 0x50000000, [.read .word 4],
    .asmAbsorb 0, rfl, rfl, by decide⟩

theorem witness_FetchedWordRunsNext : ∃ s : State, s.refused = false := ⟨State.reset, rfl⟩

theorem witness_BlockWaitsForTheHost : ∃ s : State, s.refused = false ∧ s.pending = [] := ⟨State.reset, rfl, rfl⟩

/-! #### The decoders -/

theorem witness_TshDecodeCommand :
    (∃ s : State, 188 < s.pktLen.toNat) ∧ (∃ s : State, s.pktLen.toNat = 3) ∧ (∃ s : State, s.pktLen.toNat = 4) ∧
      ∃ s : State, s.pktLen.toNat = 188 :=
  ⟨⟨withLen 189 active0, by decide⟩, ⟨withLen 3 active0, by decide⟩, ⟨withLen 4 active0, by decide⟩,
    ⟨withLen 188 active0, by decide⟩⟩

theorem witness_HeaderFieldsAreTheirBits : ∃ n : Nat, 4 ≤ n := ⟨4, by decide⟩

/-- Headers that differ in every bit but those of one field. -/
theorem witness_HeaderFieldIsolation :
    let p := packetOf (hex [0x47, 0x41, 0x00, 0x1A])
    (4 ≤ 4) ∧ (p.byte 3).toNat % 16 = ((packetOf (hex [0xB8, 0xBE, 0xFF, 0xEA])).byte 3).toNat % 16 ∧
    (p.byte 3).toNat / 16 % 4 = ((packetOf (hex [0xB8, 0xBE, 0xFF, 0xD5])).byte 3).toNat / 16 % 4 ∧
    (p.byte 3).toNat / 64 = ((packetOf (hex [0xB8, 0xBE, 0xFF, 0x25])).byte 3).toNat / 64 ∧
    (p.byte 1).toNat % 32 = ((packetOf (hex [0xB8, 0xA1, 0x00, 0xE5])).byte 1).toNat % 32 ∧
    p.byte 2 = (packetOf (hex [0xB8, 0xA1, 0x00, 0xE5])).byte 2 ∧
    (p.byte 1).toNat / 32 % 2 = ((packetOf (hex [0xB8, 0x9E, 0xFF, 0xE5])).byte 1).toNat / 32 % 2 ∧
    (p.byte 1).toNat / 64 % 2 = ((packetOf (hex [0xB8, 0xFE, 0xFF, 0xE5])).byte 1).toNat / 64 % 2 ∧
    (p.byte 1).toNat / 128 = ((packetOf (hex [0xB8, 0x3E, 0xFF, 0xE5])).byte 1).toNat / 128 ∧
    p.byte 0 = (packetOf (hex [0x47, 0xBE, 0xFF, 0xE5])).byte 0 := by decide +kernel

theorem witness_HeaderRoundTrip : ∃ n : Nat, 4 ≤ n := ⟨188, by decide⟩

theorem witness_AfDecodeCommand : (∃ s : State, 188 < s.pktLen.toNat) ∧ ∃ s : State, s.pktLen.toNat ≤ 188 :=
  ⟨⟨withLen 255 active0, by decide⟩, ⟨withLen 188 active0, by decide⟩⟩

theorem witness_AfPresenceFollowsAfc :
    ∃ p q : Packet, 4 ≤ 4 ∧ (p.byte 3).getLsbD 5 = false ∧ q.byte 3 = p.byte 3 ∧ q ≠ p :=
  ⟨packetOf (hex [0x47, 1, 0, 0x10]), packetOf (hex [0x47, 1, 0, 0x10, 7]), by decide, by decide, by decide, by decide⟩

theorem witness_AfTruncationExactly :
    (∃ p : Packet, (afDecode p 3).status = .truncatedInput) ∧
      ∃ p : Packet, (p.byte 3).getLsbD 5 = true ∧ 184 ≤ (p.byte 4).toNat :=
  ⟨⟨packetOf [], by decide⟩, ⟨packetOf (hex [0x47, 1, 0, 0x20, 184]), by decide +kernel⟩⟩

/-- A field of 183 bytes that fits, one of length 6 that claims 8 (AF9), and one of length 0 (AF2). -/
theorem witness_AfMalformedIffStuffingNegative :
    (∃ p : Packet, (p.byte 3).getLsbD 5 = true ∧ 5 + (p.byte 4).toNat = 188 ∧ (afDecode p 188).status = .ok) ∧
    (∃ p : Packet, (p.byte 3).getLsbD 5 = true ∧ 5 + (p.byte 4).toNat = 11 ∧
      (afDecode p 11).status = .malformedField) ∧
    ∃ p : Packet, (p.byte 3).getLsbD 5 = true ∧ p.byte 4 = 0 ∧ 5 + (p.byte 4).toNat = 5 :=
  ⟨⟨packetOf (hex [0x47, 1, 0, 0x20, 183, 0]), by decide +kernel⟩,
    ⟨packetOf (hex [0x47, 1, 0, 0x30, 6, 0x10]), by decide +kernel⟩,
    ⟨packetOf (hex [0x47, 1, 0, 0x30, 0]), by decide +kernel⟩⟩

theorem witness_AfStuffingCount : ∃ p : Packet, (188 ≤ 188) ∧ (afDecode p 188).status = .ok :=
  ⟨packetOf (hex [0x47, 1, 0, 0x20, 183, 0]), by decide, by decide +kernel⟩

/-- AF8's flags, and none. -/
theorem witness_AfClocksAndConsumed :
    (∃ p : Packet, (afDecode p 188).status = .ok ∧ (p.byte 5).getLsbD 4 = true ∧ (p.byte 5).getLsbD 3 = true) ∧
      ∃ p : Packet, (afDecode p 188).status = .ok ∧ (p.byte 5).getLsbD 4 = false ∧ (p.byte 5).getLsbD 3 = false :=
  ⟨⟨packetOf (hex [0x47, 1, 0, 0x30, 0x0D, 0x18, 0, 0x14, 0x99, 0x70, 0x7E, 0x7B]), by decide +kernel⟩,
    ⟨packetOf (hex [0x47, 1, 0, 0x30, 1, 0]), by decide +kernel⟩⟩

/-- By hand from R86: a field with a splice countdown, 2 bytes of private data and an empty extension, filled to its end: the reported
bytes are those at 6, 7 and 10. -/
theorem test_af_subfields :
    let p := packetOf (hex [0x47, 1, 0, 0x30, 6, 0x07, 0x9C, 2, 0xAA, 0xBB, 0])
    (afDecode p 188).status = .ok ∧ (afDecode p 188).spliceCd = 0x9C ∧ (afDecode p 188).privLen = 2 ∧
      (afDecode p 188).extLen = 0 ∧ (afDecode p 188).stuffing = 0 ∧ afSpliceAt p = 6 ∧ afPrivateAt p = 7 ∧
      afExtensionAt p = 10 := by
  decide +kernel

theorem witness_PeshDecodeCommand :
    (∃ s : State, 188 < s.pktLen.toNat) ∧ (∃ s : State, s.pktLen.toNat ≤ 188) ∧
      ∃ (s : State) (ofs : Byte), s.pktLen.toNat = 188 ∧ ofs = 188 ∧ s.pktLen.toNat ≤ ofs.toNat :=
  ⟨⟨withLen 189 active0, by decide⟩, ⟨withLen 188 active0, by decide⟩, ⟨withLen 188 active0, 188, by decide⟩⟩

/-- PES4 (exempt, with only the 6 bytes it needs) and PES10 (`HEADER_LENGTH` 264). -/
theorem witness_PesHeaderFields :
    (∃ p : Packet, (peshDecode p 4 6).status = .ok ∧
      p.byte 7 ∈ [(0xBC : Byte), 0xBE, 0xBF, 0xF0, 0xF1, 0xF2, 0xF8, 0xFF]) ∧
    ∃ p : Packet, (peshDecode p 4 9).status = .ok ∧ (peshDecode p 4 9).headerLength = 264 ∧
      p.byte 7 ∉ [(0xBC : Byte), 0xBE, 0xBF, 0xF0, 0xF1, 0xF2, 0xF8, 0xFF] :=
  ⟨⟨packetOf (hex [0x47, 0x41, 0, 0x10, 0, 0, 1, 0xBE, 0, 0x20]), by decide +kernel⟩,
    ⟨packetOf (hex [0x47, 0x41, 0, 0x10, 0, 0, 1, 0xE0, 1, 0, 0x80, 0, 0xFF]), by decide +kernel⟩⟩

theorem witness_PesTruncationExactly :
    (∃ p : Packet, (peshDecode p 4 5).status = .truncatedInput) ∧
    (∃ p q : Packet, (peshDecode p 4 9).status ≠ .truncatedInput ∧ q ≠ p ∧
      ∀ k, k < 9 → q.byte (4 + k) = p.byte (4 + k)) :=
  ⟨⟨packetOf [], by decide⟩,
    ⟨packetOf (hex [0x47, 0x41, 0, 0x10, 0, 0, 1, 0xE0, 1, 0, 0x80, 0, 0xFF]),
      packetOf (hex [0x47, 0x41, 0, 0x10, 0, 0, 1, 0xE0, 1, 0, 0x80, 0, 0xFF, 9]), by decide +kernel, by decide +kernel,
      by decide +kernel⟩⟩

/-! #### Instances -/

theorem witness_AsmInitCommand :
    (∃ (s : State) (i : InstId), s.params.nAsm ≤ i.val ∧ i = 2) ∧
      ∃ (s : State) (i : InstId), i.val < s.params.nAsm ∧ i = 1 :=
  ⟨⟨active0, 2, by decide⟩, ⟨active0, 1, by decide⟩⟩

theorem witness_AsmReleaseCommand :
    (∃ (s : State) (i : InstId), s.params.nAsm ≤ i.val) ∧
    (∃ (s : State) (i : InstId), i.val < s.params.nAsm ∧ (s.inst i).active = false) ∧
      ∃ (s : State) (i : InstId), i.val < s.params.nAsm ∧ (s.inst i).active = true :=
  ⟨⟨active0, 2, by decide⟩, ⟨active0, 1, by decide⟩, ⟨active0, 0, by decide⟩⟩

theorem witness_AbsorbTurnsAwayForeignPackets :
    (∃ s : State, AbsorbEnabled s 0 ∧ s.pktLen.toNat < 4) ∧
      ∃ s : State, AbsorbEnabled s 0 ∧ 4 ≤ s.pktLen.toNat ∧ hdrPid (headerWord s.pkt) ≠ (s.inst 0).pid :=
  ⟨⟨place (hex [0x47, 0x41, 0]) active0, enabled_of (by decide +kernel), by decide +kernel⟩,
    ⟨place (hex [0x47, 0x41, 1, 0x10]) active0, enabled_of (by decide +kernel), by decide +kernel⟩⟩

theorem witness_AbsorbNeedsFullPacket :
    ∃ s : State, AbsorbEnabled s 0 ∧ 4 ≤ s.pktLen.toNat ∧ s.pktLen.toNat < 188 ∧
      hdrPid (headerWord s.pkt) = (s.inst 0).pid :=
  ⟨withLen 187 (place startPkt active0), enabled_of (by decide +kernel), by decide +kernel⟩

/-- ASM9b (length 0) and a field of length 184. -/
theorem witness_AbsorbRejectsBadAdaptationField :
    (∃ s : State, AbsorbsWhole s 0 ∧ (s.pkt.byte 3).getLsbD 5 = true ∧
      (afDecode s.pkt 188).status = .malformedField) ∧
    ∃ s : State, AbsorbsWhole s 0 ∧ (s.pkt.byte 3).getLsbD 5 = true ∧
      (afDecode s.pkt 188).status = .truncatedInput :=
  ⟨⟨place (hex [0x47, 0x41, 0, 0x30, 0] ++ [.rep 0 183]) active0, whole_of (by decide +kernel), by decide +kernel⟩,
    ⟨place (hex [0x47, 0x41, 0, 0x30, 184] ++ [.rep 0 183]) active0, whole_of (by decide +kernel), by decide +kernel⟩⟩

/-- ASM11: the first packet has counter 7. -/
theorem witness_AbsorbDropsOnCounterMismatch :
    ∃ s : State, AbsorbsWhole s 0 ∧ AfAccepted s.pkt ∧ ¬ CounterExpected s 0 :=
  ⟨place (hex [0x47, 0x41, 0, 0x17] ++ pesHdr 200 ++ [.seq 0 175]) active0, whole_of (by decide +kernel),
    accepted_of (by decide +kernel), fun h => absurd (ccOk_iff.2 h) (by decide +kernel)⟩

/-- ASM1a, and ASM3's packet, whose field of length 183 leaves no payload (`off` = 188). -/
theorem witness_AbsorbUpdatesCounterOnSuccess :
    (∃ s t : State, ReachesStateMachine s 0 ∧ exec (.asmAbsorb 0) s = .next t ∧
      (s.pkt.byte 3).getLsbD 5 = false) ∧
    ∃ s t : State, ReachesStateMachine s 0 ∧ exec (.asmAbsorb 0) s = .next t ∧ (s.pkt.byte 3).getLsbD 5 = true ∧
      absorbOffset s.pkt = 188 := by
  obtain ⟨t, ht⟩ := exists_next (show isNext (exec (.asmAbsorb 0) (place startPkt active0)) = true by decide +kernel)
  obtain ⟨u, hu⟩ := exists_next (show isNext (exec (.asmAbsorb 0)
    (place (hex [0x47, 1, 0, 0x21, 183, 0] ++ [.rep 0xFF 182]) (started0 178 184))) = true by decide +kernel)
  exact ⟨⟨_, t, reaches_of (by decide +kernel), ht, by decide +kernel⟩,
    ⟨_, u, reaches_of (by decide +kernel), hu, by decide +kernel, by decide +kernel⟩⟩

theorem witness_AbsorbStartsPacket :
    ∃ s : State, ReachesStateMachine s 0 ∧ hdrPusi (headerWord s.pkt) = true ∧ (s.inst 0).started = false ∧
      (peshDecode s.pkt (absorbOffset s.pkt) (absorbSize s.pkt)).status = .ok :=
  ⟨place startPkt active0, reaches_of (by decide +kernel), by decide +kernel⟩

/-- ASM5a in both branches. -/
theorem witness_AbsorbStartFails :
    (∃ s : State, ReachesStateMachine s 0 ∧ hdrPusi (headerWord s.pkt) = true ∧
      (peshDecode s.pkt (absorbOffset s.pkt) (absorbSize s.pkt)).status ≠ .ok ∧ (s.inst 0).started = false) ∧
    ∃ s : State, ReachesStateMachine s 0 ∧ hdrPusi (headerWord s.pkt) = true ∧
      (peshDecode s.pkt (absorbOffset s.pkt) (absorbSize s.pkt)).status ≠ .ok ∧ (s.inst 0).started = true ∧
      (s.inst 0).woff.toNat < 2 ^ 31 :=
  ⟨⟨place (shortHdrPkt 0) active0, reaches_of (by decide +kernel), by decide +kernel⟩,
    ⟨place (shortHdrPkt 1) (started0 1000 184), reaches_of (by decide +kernel), by decide +kernel⟩⟩

/-- A packet with payload to flush and one that ended before its header; a Start that succeeds and one that fails. -/
theorem witness_AbsorbFinishesThenStarts :
    (∃ s : State, ReachesStateMachine s 0 ∧ hdrPusi (headerWord s.pkt) = true ∧ (s.inst 0).started = true ∧
      (s.inst 0).woff.toNat < 2 ^ 31 ∧ (s.inst 0).curHl.toNat < (s.inst 0).woff.toNat ∧
      (peshDecode s.pkt (absorbOffset s.pkt) (absorbSize s.pkt)).status = .ok) ∧
    ∃ s : State, ReachesStateMachine s 0 ∧ hdrPusi (headerWord s.pkt) = true ∧ (s.inst 0).started = true ∧
      (s.inst 0).woff.toNat < 2 ^ 31 ∧ ¬ (s.inst 0).curHl.toNat < (s.inst 0).woff.toNat ∧
      (peshDecode s.pkt (absorbOffset s.pkt) (absorbSize s.pkt)).status ≠ .ok :=
  ⟨⟨place startPkt1 (started0 1000 184), reaches_of (by decide +kernel), by decide +kernel⟩,
    ⟨place (shortHdrPkt 1) (started0 1000 9), reaches_of (by decide +kernel), by decide +kernel⟩⟩

/-- 13 stored bytes of 16 and 3 more: complete; a full payload more: not. -/
theorem witness_AbsorbContinuesPacket :
    (∃ s : State, ReachesStateMachine s 0 ∧ hdrPusi (headerWord s.pkt) = false ∧ (s.inst 0).started = true ∧
      (s.inst 0).woff.toNat + absorbSize s.pkt < 2 ^ 31 ∧ (s.inst 0).curPl ≠ 0 ∧
      (s.inst 0).woff.toNat + absorbSize s.pkt = (s.inst 0).cap.toNat) ∧
    ∃ s : State, ReachesStateMachine s 0 ∧ hdrPusi (headerWord s.pkt) = false ∧ (s.inst 0).started = true ∧
      (s.inst 0).woff.toNat + absorbSize s.pkt < 2 ^ 31 ∧
      ¬ ((s.inst 0).curPl ≠ 0 ∧ (s.inst 0).woff.toNat + absorbSize s.pkt = (s.inst 0).cap.toNat) :=
  ⟨⟨place cont3Pkt (started0 10 13), reaches_of (by decide +kernel), by decide +kernel⟩,
    ⟨place contPkt (started0 10 13), reaches_of (by decide +kernel), by decide +kernel⟩⟩

theorem witness_AbsorbHasNothingToContinue :
    ∃ s : State, ReachesStateMachine s 0 ∧ hdrPusi (headerWord s.pkt) = false ∧ (s.inst 0).started = false :=
  ⟨place (hex [0x47, 1, 0, 0x10] ++ [.rep 0 184]) active0, reaches_of (by decide +kernel), by decide +kernel⟩

/-- An exact fit, one byte too many, and the limit. -/
theorem witness_AppendWritesAllOrNothing :
    (∃ (a b : Assembler), append (packetOf startPkt) 4 3 a = some b ∧ a.woff.toNat + 3 = a.cap.toNat) ∧
    (∃ (a b : Assembler), append (packetOf startPkt) 4 4 a = some b ∧ a.cap.toNat + 1 = a.woff.toNat + 4) ∧
    ∃ a : Assembler, a.woff.toNat + 1 = 2 ^ 31 ∧ append (packetOf startPkt) 4 1 a = none :=
  ⟨⟨inProgress 10 13, _, append_eq (by decide +kernel), by decide +kernel⟩,
    ⟨inProgress 10 13, _, append_eq (by decide +kernel), by decide +kernel⟩,
    ⟨{ inProgress 10 13 with woff := 0x7FFFFFFF }, by decide +kernel, by decide +kernel⟩⟩

/-- 13 stored bytes of 16. -/
theorem inProgress_asmWf : AsmWf Params.ofVectors (inProgress 10 13) where
  bufCanonical := by decide +kernel
  bufBelowCap := by decide +kernel
  bufBelowWoff := by decide +kernel
  woffLimit := by decide +kernel
  capLimit := by decide +kernel
  noOverrunFits := fun _ => by decide +kernel
  noOverrunFull := fun _ => by decide +kernel
  startedCap := fun _ => by decide +kernel
  startedHl := fun _ => by decide +kernel
  curHl := by decide +kernel
  prevHl := by decide +kernel
  prevDl := by decide +kernel
  inactive := fun h => by simp [inProgress, Assembler.init] at h
  lastResult := ⟨by decide, by decide⟩

theorem witness_FlushIsExactWithoutOverrun :
    ∃ (ps : Params) (a : Assembler), AsmWf ps a ∧ a.overrun = false ∧ 0 < a.woff.toNat - a.curHl.toNat :=
  ⟨Params.ofVectors, inProgress 10 13, inProgress_asmWf, by decide +kernel, by decide +kernel⟩

theorem witness_AbsorbCompletes :
    ∃ s : State, AbsorbEnabled s 0 ∧ WoffRoom (s.inst 0) ∧ (s.inst 0).woff.toNat + 185 = 2 ^ 31 :=
  ⟨place contPkt (State.reset.setInst 0 { inProgress 0 13 with woff := 0x7FFFFF47 }), enabled_of (by decide +kernel),
    by decide +kernel⟩

/-- The append reaches exactly `2^31`. -/
theorem witness_AbsorbRefusesExactlyAtLimit :
    ∃ s : State, ReachesStateMachine s 0 ∧ hdrPusi (headerWord s.pkt) = false ∧ (s.inst 0).started = true ∧
      (s.inst 0).woff.toNat + absorbSize s.pkt = 2 ^ 31 ∧ isWoffRefusal (exec (.asmAbsorb 0) s) = true :=
  ⟨place contPkt (State.reset.setInst 0 { inProgress 0 13 with woff := 0x7FFFFF48 }), reaches_of (by decide +kernel),
    by decide +kernel⟩

theorem witness_AbsorbStoresOnlyItsPayload :
    ∃ s t : State, exec (.asmAbsorb 0) s = .next t ∧ hdrPusi (headerWord s.pkt) = false ∧
      (s.inst 0).started = true := by
  obtain ⟨t, ht⟩ := exists_next (show isNext (exec (.asmAbsorb 0) (place cont3Pkt (started0 1000 13))) = true by
    decide +kernel)
  exact ⟨_, t, ht, by decide +kernel⟩

theorem next_of_code {o : Host.Outcome State Fault Refusal} {f : Bool}
    (h : (nextOf o).map (fun t => t.result.flushed) = some f) : ∃ t, o = .next t ∧ t.result.flushed = f := by
  cases o with
  | next t => exact ⟨t, rfl, by simpa [nextOf] using h⟩
  | fault r => cases r
  | refused r => simp [nextOf] at h

/-- A completion, and a Continue that completes nothing. -/
theorem witness_FlushHappensOncePerPacket :
    (∃ s t : State, exec (.asmAbsorb 0) s = .next t ∧ t.result.flushed = true) ∧
      ∃ s t : State, exec (.asmAbsorb 0) s = .next t ∧ t.result.flushed = false := by
  obtain ⟨t, ht⟩ := next_of_code (show (nextOf (exec (.asmAbsorb 0) (place cont3Pkt (started0 10 13)))).map
    (fun t => t.result.flushed) = some true by decide +kernel)
  obtain ⟨u, hu⟩ := next_of_code (show (nextOf (exec (.asmAbsorb 0) (place cont3Pkt (started0 1000 13)))).map
    (fun t => t.result.flushed) = some false by decide +kernel)
  exact ⟨⟨_, t, ht⟩, ⟨_, u, hu⟩⟩

/-! #### Whole packets -/

theorem witness_PktProcessFilters :
    (∃ s : State, s.pktLen.toNat = 3) ∧
    (∃ s : State, s.pktLen.toNat = 188 ∧ s.pkt.byte 0 ≠ 0x47) ∧
    ∃ s : State, s.pktLen.toNat = 4 ∧ s.pkt.byte 0 = 0x47 ∧ ∀ i, ¬ Matches s i :=
  ⟨⟨withLen 3 active0, by decide⟩,
    ⟨place (hex [0, 0x41, 0xE1, 0x12] ++ [.rep 0 184]) active0, by decide +kernel⟩,
    ⟨place (hex [0x47, 0x1F, 0xFF, 0x10]) active0, by decide +kernel, by decide +kernel, by
      intro i; rw [matches_iff]; revert i; decide +kernel⟩⟩

/-- PP7's state: instances 0 and 1 both track PID 0x100. -/
def twoMatches : State :=
  place (hex [0x47, 0x41, 0x00, 0x10] ++ pesHdr 0 ++ [.seq 0 175]) ((started0 1000 184).setInst 1 (.init 0x100))

theorem twoMatches_dispatch : ReachesDispatch twoMatches :=
  ⟨by decide +kernel, by decide +kernel, by decide +kernel⟩

theorem witness_PktProcessDispatches :
    ∃ s t : State, ReachesDispatch s ∧ exec .pktProcess s = .next t ∧ Matches s 0 ∧ Matches s 1 := by
  obtain ⟨t, ht⟩ := exists_next (show isNext (exec .pktProcess twoMatches) = true by decide +kernel)
  exact ⟨twoMatches, t, twoMatches_dispatch, ht, matches_of (by decide +kernel), matches_of (by decide +kernel)⟩

theorem witness_PktProcessReportsLowestMatch :
    ∃ s t : State, ReachesDispatch s ∧ Matches s 0 ∧ (∀ i, Matches s i → 0 ≤ i) ∧ exec .pktProcess s = .next t := by
  obtain ⟨t, ht⟩ := exists_next (show isNext (exec .pktProcess twoMatches) = true by decide +kernel)
  exact ⟨twoMatches, t, twoMatches_dispatch, matches_of (by decide +kernel), fun i _ => Fin.zero_le i, ht⟩

/-- Instance 1 would reach the limit; instance 0 would not. -/
theorem witness_PktProcessRefusesWithAnyMatch :
    ∃ s : State, ReachesDispatch s ∧ Matches s 0 ∧ Matches s 1 ∧ isWoffRefusal (exec .pktProcess s) = true :=
  ⟨place contPkt ((started0 1000 13).setInst 1 { inProgress 0 13 with woff := 0x7FFFFF48 }),
    ⟨by decide +kernel, by decide +kernel, by decide +kernel⟩, matches_of (by decide +kernel),
    matches_of (by decide +kernel), by decide +kernel⟩

theorem witness_PktProcessCompletes : ∃ s : State, s.pktLen.toNat ≤ 188 ∧ ∀ i, WoffRoom (s.inst i) :=
  ⟨twoMatches, by decide +kernel, by decide +kernel⟩

theorem witness_PktProcessWithOneMatchIsAbsorb :
    ∃ s : State, ReachesDispatch s ∧ Matches s 0 ∧ ∀ i, Matches s i → i = 0 :=
  ⟨place contPkt (started0 1000 13), ⟨by decide +kernel, by decide +kernel, by decide +kernel⟩,
    matches_of (by decide +kernel), by intro i; rw [matches_iff]; revert i; decide +kernel⟩

/-! #### The whole machine -/

/-- Every command has a next state, and one of them is illegal. -/
theorem witness_CommandsWriteTheirGroupsOnly :
    (∃ s t : State, exec .tshDecode s = .next t) ∧ (∃ s t : State, exec .afDecode s = .next t) ∧
    (∃ s t : State, exec (.peshDecode 4) s = .next t) ∧ (∃ s t : State, exec (.asmInit 1 0x1E1) s = .next t) ∧
    (∃ s t : State, exec (.asmRelease 0) s = .next t) ∧
    (∃ s t : State, exec (.asmAbsorb 0) s = .next t ∧ t.result.code ≠ .illegalCommand) ∧
    (∃ s t : State, exec .pktProcess s = .next t ∧ t.result.code ≠ .illegalCommand) ∧
    ∃ s t : State, exec .pktProcess s = .next t ∧ t.result.code = .illegalCommand := by
  have code {o : Host.Outcome State Fault Refusal} {c : ResultCode}
      (h : (nextOf o).map (fun t => t.result.code) = some c) : ∃ t, o = .next t ∧ t.result.code = c := by
    cases o with
    | next t => exact ⟨t, rfl, by simpa [nextOf] using h⟩
    | fault r => cases r
    | refused r => simp [nextOf] at h
  obtain ⟨t6, h6, c6⟩ := code (show (nextOf (exec (.asmAbsorb 0) (place startPkt active0))).map
    (fun t => t.result.code) = some .assemblingStarted by decide +kernel)
  obtain ⟨t7, h7, c7⟩ := code (show (nextOf (exec .pktProcess (place startPkt active0))).map
    (fun t => t.result.code) = some .assemblingStarted by decide +kernel)
  obtain ⟨t8, h8, c8⟩ := code (show (nextOf (exec .pktProcess (withLen 189 active0))).map
    (fun t => t.result.code) = some .illegalCommand by decide +kernel)
  exact ⟨⟨active0, exists_next (by decide +kernel)⟩, ⟨active0, exists_next (by decide +kernel)⟩,
    ⟨active0, exists_next (by decide +kernel)⟩, ⟨active0, exists_next (by decide +kernel)⟩,
    ⟨active0, exists_next (by decide +kernel)⟩, ⟨_, t6, h6, by simp [c6]⟩, ⟨_, t7, h7, by simp [c7]⟩,
    ⟨_, t8, h8, c8⟩⟩

/-- The paths on which the groups of an absorb step and of PKT_PROCESS are evaluated, and those on which they are
not. -/
theorem witness_CommandsWriteTheirGroupsOnly_paths :
    (∃ s t : State, exec .pktProcess s = .next t ∧ ¬ ReachesDispatch s) ∧
    (∃ s t : State, exec .pktProcess s = .next t ∧ ReachesDispatch s ∧ ∀ i, ¬ Matches s i) ∧
    (∃ s t : State, exec .pktProcess s = .next t ∧ ReachesDispatch s ∧ Matches s 0 ∧ ∀ i, Matches s i → 0 ≤ i) ∧
    (∃ s : State, AbsorbsWhole s 0 ∧ (s.pkt.byte 3).getLsbD 5 = true) ∧
    (∃ s : State, ¬ (AbsorbsWhole s 0 ∧ (s.pkt.byte 3).getLsbD 5 = true)) ∧
    (∃ s : State, ReachesStateMachine s 0 ∧ hdrPusi (headerWord s.pkt) = true) ∧
    ∃ s : State, ReachesStateMachine s 0 ∧ hdrPusi (headerWord s.pkt) = false := by
  obtain ⟨t1, h1⟩ := exists_next (show isNext (exec .pktProcess (withLen 3 active0)) = true by decide +kernel)
  obtain ⟨t2, h2⟩ := exists_next (show isNext (exec .pktProcess (place startPkt State.reset)) = true by decide +kernel)
  obtain ⟨t3, h3⟩ := exists_next (show isNext (exec .pktProcess (place startPkt active0)) = true by decide +kernel)
  exact ⟨⟨_, t1, h1, fun h => absurd h.header (by decide)⟩,
    ⟨_, t2, h2, ⟨by decide +kernel, by decide +kernel, by decide +kernel⟩,
      by intro i; rw [matches_iff]; revert i; decide +kernel⟩,
    ⟨_, t3, h3, ⟨by decide +kernel, by decide +kernel, by decide +kernel⟩, matches_of (by decide +kernel),
      fun i _ => Fin.zero_le i⟩,
    ⟨place (shortHdrPkt 0) active0, whole_of (by decide +kernel), by decide +kernel⟩,
    ⟨withLen 3 active0, fun h => absurd h.1.full (by decide)⟩,
    ⟨place startPkt active0, reaches_of (by decide +kernel), by decide +kernel⟩,
    ⟨place contPkt (started0 1000 13), reaches_of (by decide +kernel), by decide +kernel⟩⟩

theorem witness_CommandsLeaveHostStateAlone : ∃ (c : Instr) (s t : State), exec c s = .next t := by
  obtain ⟨t, ht⟩ := exists_next (show isNext (exec .tshDecode (place startPkt active0)) = true by decide +kernel)
  exact ⟨_, _, t, ht⟩

/-- Two states with instance 0 alike and instance 1 different. -/
theorem witness_InstancesAreIndependent :
    ∃ s t s' : State, exec (.asmAbsorb 0) s = .next t ∧ s'.params = s.params ∧ s'.pkt = s.pkt ∧
      s'.pktLen = s.pktLen ∧ s'.draws = s.draws ∧ s'.inst 0 = s.inst 0 ∧ s'.inst 1 ≠ s.inst 1 := by
  obtain ⟨t, ht⟩ := exists_next (show isNext (exec (.asmAbsorb 0) (place startPkt active0)) = true by decide +kernel)
  exact ⟨_, t, place startPkt (active0.setInst 1 (.init 0x1E1)), ht, rfl, rfl, rfl, rfl, by decide +kernel,
    by decide +kernel⟩

/-- The bytes from offset 4 on are the same in two packets that share them. -/
theorem byte_after_header {a b c d a' b' c' d' : Byte} {tail : List Byte} {k : Nat} (h : 4 ≤ k) :
    (Packet.mk (cellsFrom 0 (a :: b :: c :: d :: tail)) 0).byte k =
      (Packet.mk (cellsFrom 0 (a' :: b' :: c' :: d' :: tail)) 0).byte k := by
  obtain ⟨j, rfl⟩ := Nat.exists_eq_add_of_le h
  simp [Packet.byte, read?_cellsFrom, Nat.add_comm 4 j]

/-- A header with another sync byte, TEI, TP and TSC (ASM_ABSORB), and with the same sync byte (PKT_PROCESS). -/
theorem witness_UnusedHeaderBitsAreNotActedOn :
    (∃ (s : State) (q : Packet) (t : State), SameActedOn s.pkt q ∧ q.byte 0 ≠ s.pkt.byte 0 ∧
      exec (.asmAbsorb 0) s = .next t) ∧
    ∃ (s : State) (q : Packet) (t : State), SameActedOn s.pkt q ∧ q.byte 3 ≠ s.pkt.byte 3 ∧
      q.byte 0 = s.pkt.byte 0 ∧ exec .pktProcess s = .next t := by
  obtain ⟨t, ht⟩ := exists_next (show isNext (exec (.asmAbsorb 0) (place startPkt active0)) = true by decide +kernel)
  obtain ⟨u, hu⟩ := exists_next (show isNext (exec .pktProcess (place startPkt active0)) = true by decide +kernel)
  exact ⟨⟨_, packetOf (hex [0x00, 0xE1, 0x00, 0xD0] ++ pesHdr 200 ++ [.seq 0 175]), t,
      ⟨fun k hk => byte_after_header hk, by decide +kernel, by decide +kernel, by decide +kernel, by decide +kernel⟩,
      by decide +kernel, ht⟩,
    ⟨_, packetOf (hex [0x47, 0xE1, 0x00, 0xD0] ++ pesHdr 200 ++ [.seq 0 175]), u,
      ⟨fun k hk => byte_after_header hk, by decide +kernel, by decide +kernel, by decide +kernel, by decide +kernel⟩,
      by decide +kernel, by decide +kernel, hu⟩⟩

/-- A step that sends a bulk write. -/
theorem witness_SinksOnlyGrowByWholeWrites :
    ∃ s t : State, step s = .next t ∧ s.sink 0 = [] ∧ t.sink 0 ≠ [] := by
  have h : (nextOf (step { place cont3Pkt (started0 10 13) with pending := [.write .word 0 0x50000000] })).map
      (fun t => (t.sink 0).length) = some 1 := by decide +kernel
  cases ho : step { place cont3Pkt (started0 10 13) with pending := [.write .word 0 0x50000000] } with
  | next t =>
    rw [ho] at h
    refine ⟨_, t, ho, by decide +kernel, fun e => ?_⟩
    simp [nextOf, e] at h
  | fault r => cases r
  | refused r => rw [ho] at h; simp [nextOf] at h

/-- A state with a packet in progress and the command that completes it pending. -/
theorem witness_StepKeepsInvariant : ∃ s t : State, StateWf s ∧ step s = .next t ∧ (s.inst 0).started = true := by
  obtain ⟨t, ht⟩ := exists_next (show isNext (step
    { place cont3Pkt (started0 10 13) with pending := [.write .word 0 0x50000000] }) = true by decide +kernel)
  refine ⟨_, t, ⟨by decide, by decide +kernel, by decide +kernel, by decide, hdrZero_wf _ (.inr rfl),
    afZero_wf (.inr (.inr (.inr rfl))), peshZero_wf (.inr rfl), fun i => ?_, fun i w hw => ?_, fun i hi => ?_⟩, ht,
    by decide +kernel⟩
  · have : State.inst (started0 10 13) i = _ := inst_setInst State.reset 0 i (inProgress 10 13)
    change AsmWf Params.ofVectors (State.inst (started0 10 13) i)
    rw [this]
    split
    · exact inProgress_asmWf
    · rw [State.reset, resetWith_inst]
      exact reset_asmWf _
  · have : State.sink (started0 10 13) i = [] := resetWith_sink Params.ofVectors i
    change w ∈ State.sink (started0 10 13) i at hw
    rw [this] at hw
    simp at hw
  · have hi : 2 ≤ i.val := hi
    have : State.inst (started0 10 13) i = _ := inst_setInst State.reset 0 i (inProgress 10 13)
    refine ⟨?_, resetWith_sink Params.ofVectors i⟩
    change State.inst (started0 10 13) i = _
    rw [this, if_neg (by rintro rfl; simp at hi), State.reset, resetWith_inst]

theorem witness_ResetMeetsInvariant : ∃ p : Params, p.legal ∧ p ≠ Params.ofVectors :=
  ⟨⟨16, 0x7FFFFFFF, .any, true⟩, by decide, by decide⟩

theorem witness_RefusedMarkIsSticky :
    (∃ s : State, s.refused = false ∧ isWoffRefusal (step s) = true) ∧ ∃ s : State, s.refused = true :=
  ⟨⟨{ place contPkt (State.reset.setInst 0 { inProgress 0 13 with woff := 0x7FFFFF48 }) with
      pending := [.write .word 0 0x50000000] }, rfl, by decide +kernel⟩,
    ⟨State.reset.markRefused, rfl⟩⟩

/-! #### The host -/

theorem witness_ResetGivesResetValues :
    ∃ (s : State) (rest : List HostAccess), s.refused = false ∧ s.pending = .reset :: rest ∧
      (s.inst 0).started = true :=
  ⟨{ started0 10 13 with pending := [.reset, .read .word 4] }, [.read .word 4], rfl, rfl, by decide +kernel⟩

theorem witness_ResetRedrawsThePacket :
    ∃ (s : State) (rest : List HostAccess), s.refused = false ∧ s.pending = .reset :: rest ∧ 187 < 188 :=
  ⟨{ State.reset with pending := [.reset] }, [], rfl, rfl, by decide⟩

theorem witness_HostReadsHaveNoEffect :
    ∃ (s : State) (width : Width) (addr : Nat) (rest : List HostAccess),
      s.refused = false ∧ s.pending = .read width addr :: rest :=
  ⟨{ State.reset with pending := [.read .byte 0x100] }, .byte, 0x100, [], rfl, rfl⟩

/-- A read-only register; the first address after `CFG_CAPU` and the first past the map; the bytes just outside
`PKT`. -/
theorem witness_HostAccessRules :
    (∃ r ∈ hostRegs, r ≠ .pktLen) ∧ (0x014 ≠ 0x000 ∧ ∀ r ∈ hostRegs, r.addr ≠ 0x014) ∧
    (0x800 ≠ 0x000 ∧ ∀ r ∈ hostRegs, r.addr ≠ 0x800) ∧
    ¬ (0x100 ≤ 0x0FF ∧ 0x0FF < 0x100 + 188) ∧ ¬ (0x100 ≤ 0x1BC ∧ 0x1BC < 0x100 + 188) :=
  ⟨⟨.result, by decide +kernel, by decide⟩, ⟨by decide, by decide +kernel⟩, ⟨by decide, by decide +kernel⟩, by decide,
    by decide⟩

theorem witness_PacketBytesReadBack : ∃ (s : State) (k : Nat), k < 188 ∧ k = 187 ∧ Memory.wf s.pkt.cells :=
  ⟨place startPkt active0, 187, by decide, rfl, by decide +kernel⟩

theorem witness_RegisterMapIsReadable :
    (∃ (s : State) (i : InstId), i.val < s.params.nAsm ∧ i = 1) ∧
    (∃ (s : State) (i : InstId) (off : Nat), s.params.nAsm ≤ i.val ∧ i = 2 ∧ off < 0x40 ∧ off = 0x3F) ∧
    ∃ s : State, s.params.legal :=
  ⟨⟨State.reset, 1, by decide⟩, ⟨State.reset, 2, 0x3F, by decide⟩, ⟨State.reset, by decide⟩⟩

/-- R71's words of an instance with `LAST_CC` = -1, and of one with a packet in progress. -/
theorem test_read_instance :
    (active0.hostRead .word 0x400).toNat = 0x10001 ∧ active0.hostRead .word 0x404 = 0x1F ∧
      active0.hostRead .word 0x41C = 0x0C ∧ (started0 10 13).hostRead .word 0x410 = 0x000A0009 ∧
      active0.hostRead .half 0x400 = 0 := by
  decide +kernel

/-- Two states that differ in a buffer only. -/
theorem witness_BufferIsHiddenFromTheHost :
    ∃ s t : State, (∀ i, t.inst i = { s.inst i with buf := (t.inst i).buf }) ∧ { t with insts := s.insts } = s ∧
      t ≠ s :=
  ⟨started0 10 13, State.reset.setInst 0 { inProgress 10 13 with buf := [] }, by decide +kernel, rfl,
    by decide +kernel⟩

end Sys2Proof.Tests
end

section
/-! Reset as a step of the block (10_state.md R47, 70_reset_and_hazards.md R300). -/

namespace Sys2Proof.Machine

/-- An unmarked block performs the oldest access of its queue (20_memory.md R72). -/
theorem step_of_pending {s : State} {x : HostAccess} {rest : List HostAccess} (hr : s.refused = false)
    (hp : s.pending = x :: rest) : step s = perform x { s with pending := rest } := by
  simp [step, hostStep, hr, hp]

/-- Reset is a step of its own, with no command in it and so no flush (70_reset_and_hazards.md R300). -/
theorem step_of_pending_reset {s : State} {rest : List HostAccess} (hr : s.refused = false)
    (hp : s.pending = .reset :: rest) : step s = .next (State.hostReset { s with pending := rest }) :=
  step_of_pending hr hp

/-- `NOT_RUN` and no instance, in the layout of `RESULT` (10_state.md R26). -/
@[simp] theorem resetResult_word : Result.reset.word = 0x00001F0C := by decide

/-- Settles O54: the step answers `State.hostReset`, whose registers the `hostReset` laws give one by one. -/
theorem resetGivesResetValues : Obligations.ResetGivesResetValues := by
  intro s rest hr hp
  refine ⟨_, step_of_pending_reset hr hp, hostReset_pktLen _, ?result, hostReset_hdr _, hostReset_af _,
    hostReset_pesh _, hostReset_inst _, hostReset_sinks _, hostReset_refused _, hostReset_params _⟩
  case result => rw [hostReset_result, resetResult_word]

end Sys2Proof.Machine
end

section
/-! What a host read sees of the instances (20_memory.md R71 to R73). -/

namespace Sys2Proof.Machine

/-- `BUF` is in no register of an instance block (20_memory.md R71). -/
@[simp] theorem instReg_word_buf (r : InstReg) (a : Assembler) (buf : Memory) :
    r.word { a with buf := buf } = r.word a := by
  cases r <;> rfl

/-- A register shows of the instances only the words of their blocks. -/
theorem hostReg_word_insts {s : State} {v : Vector Assembler 16}
    (h : ∀ (i : InstId) (r : InstReg), r.word (v.get i) = r.word (s.inst i)) (r : HostReg) :
    r.word { s with insts := v } = r.word s := by
  cases r
  case inst i r => exact congrArg (fun word => if s.hasInst i then word else 0) (h i r)
  all_goals rfl

/-- A host read of any width shows of the instances only the words of their blocks (20_memory.md R72). -/
theorem hostRead_insts {s : State} {v : Vector Assembler 16}
    (h : ∀ (i : InstId) (r : InstReg), r.word (v.get i) = r.word (s.inst i)) (width : Width) (addr : Nat) :
    State.hostRead { s with insts := v } width addr = s.hostRead width addr := by
  cases width
  case word => simp only [State.hostRead, hostReg_word_insts h]
  case byte => rfl
  case half => rfl

/-- Settles O60: a host read shows of the instances only register words, and none of those shows `BUF`. -/
theorem bufferIsHiddenFromTheHost : Obligations.BufferIsHiddenFromTheHost := by
  intro s t hbuf hrest width addr
  obtain ⟨v, rfl⟩ : ∃ v, s = { t with insts := v } := ⟨s.insts, hrest.symm⟩
  have hword (i : InstId) (r : InstReg) : r.word (v.get i) = r.word (t.inst i) := by
    rw [hbuf i, instReg_word_buf]
    rfl
  exact (hostRead_insts hword width addr).symm

end Sys2Proof.Machine
end

section
/-! TSH_DECODE's command word (30_encoding.md R81). -/

namespace Sys2Proof

/-- Only the operation `TSH_DECODE` gives that command, whatever the operands are (30_encoding.md R83). -/
theorem operandsOf_eq_tshDecode {op : Op} {w : Word} : operandsOf op w = .tshDecode ↔ op = .tshDecode := by
  cases op <;> simp [operandsOf]

/-- R81's table has one row for `TSH_DECODE`, and its mask covers the whole word. -/
theorem opcodeTable_row_tshDecode :
    ∀ r ∈ opcodeTable, r.op = .tshDecode → r.matchBits = 0x10000000 ∧ r.mask = BitVec.allOnes 32 := by decide

/-- `TSH_DECODE` has one command word (R81, R82 case 2). -/
theorem decode_tshDecode_iff {w : Word} : decode w = .ok .tshDecode ↔ w = 0x10000000 := by
  constructor
  · intro h
    obtain ⟨r, hr, hm, hop⟩ := decode_ok_iff.1 h
    obtain ⟨hbits, hmask⟩ := opcodeTable_row_tshDecode r hr (operandsOf_eq_tshDecode.1 hop)
    rwa [hbits, hmask, BitVec.and_allOnes] at hm
  · rintro rfl
    decide

end Sys2Proof
end

section
/-! TSH_DECODE (40_ts_header.md R121): the header word as its four bytes, and how the command ends. -/

namespace Sys2Proof.Machine

/-- A big-endian field's last byte is its least significant one (00_scope.md R7). -/
theorem field_succ (p : Packet) (off n w : Nat) :
    p.field off (n + 1) (w + 8) = p.field off n w ++ p.byte (off + n) := by
  apply BitVec.eq_of_toNat_eq
  have hb : (p.byte (off + n)).toNat < 2 ^ 8 := (p.byte (off + n)).isLt
  rw [BitVec.toNat_append, ← Nat.shiftLeft_add_eq_or_of_lt hb, Nat.shiftLeft_eq]
  simp only [Packet.field, Packet.be, BitVec.toNat_ofNat]
  rw [Nat.pow_add, Nat.mul_comm (2 ^ w), Nat.mod_mul,
    show (p.be off n * 256 + (p.byte (off + n)).toNat) / 2 ^ 8 = p.be off n by omega]
  omega

theorem field_one (p : Packet) (off : Nat) : p.field off 1 8 = p.byte off := by
  simp [Packet.field, Packet.be]

/-- `HDR_WORD` is the first four packet bytes, big-endian (R120). -/
theorem headerWord_eq_bytes (p : Packet) :
    headerWord p = p.byte 0 ++ p.byte 1 ++ p.byte 2 ++ p.byte 3 := by
  rw [headerWord, field_succ p 0 3 24, field_succ p 0 2 16, field_succ p 0 1 8, field_one]

/-- The top byte of a word of four bytes. -/
@[simp] theorem hdrSync_append (a b c d : Byte) : hdrSync (a ++ b ++ c ++ d) = a := by
  rw [hdrSync, BitVec.extractLsb'_append_eq_of_le (by decide), BitVec.extractLsb'_append_eq_of_le (by decide)]
  exact BitVec.extractLsb'_append_eq_left

/-- `SYNC_OK` looks at packet byte 0 (R120, R122). -/
theorem syncOkOf_headerWord (p : Packet) : syncOkOf (headerWord p) = decide (p.byte 0 = 0x47) := by
  rw [syncOkOf, headerWord_eq_bytes, hdrSync_append, Bool.beq_eq_decide_eq]

theorem execTshDecode_tooLong {s : State} (h : 188 < s.pktLen.toNat) :
    execTshDecode s = .next (s.raiseIllegal none) := by
  obtain ⟨_, he⟩ | ⟨hle, _⟩ := execTshDecode_cases s
  · exact he
  · omega

/-- With a packet that fits, the command writes the header decode and its status (R121). -/
theorem execTshDecode_decoded {s : State} (h : s.pktLen.toNat ≤ 188) :
    execTshDecode s = .next ({ s with hdr := tshDecode s.pkt s.pktLen.toNat }.setResult
      (tshDecode s.pkt s.pktLen.toNat).status false false none) := by
  obtain ⟨hlt, _⟩ | ⟨_, he⟩ := execTshDecode_cases s
  · omega
  · exact he

/-- Settles O8: the one command word of R81, then the two cases of the packet check and the two of `tsh_decode`. -/
theorem tshDecodeCommand : Obligations.TshDecodeCommand := by
  refine ⟨fun w => decode_tshDecode_iff, fun s => ⟨fun hlong => ?tooLong, fun hshort => ?truncated,
    fun hfull hfits => ?decoded⟩⟩
  case tooLong => exact execTshDecode_tooLong hlong
  case truncated =>
    have he := execTshDecode_decoded (s := s) (by omega)
    rwa [tshDecode_short hshort] at he
  case decoded =>
    have he := execTshDecode_decoded hfits
    rwa [tshDecode_full hfull, syncOkOf_headerWord, ← headerWord, headerWord_eq_bytes] at he

end Sys2Proof.Machine
end

section
/-! Commands whose word has no operand bits (30_encoding.md R81, R82 case 2). -/

namespace Sys2Proof

@[simp] theorem opOf_operandsOf (op : Op) (w : Word) : Laws.EncodeFitsRow.opOf (operandsOf op w) = op := by
  cases op <;> rfl

/-- R81's table has one row for each operation. -/
theorem opcodeTable_op_inj : ∀ r ∈ opcodeTable, ∀ r' ∈ opcodeTable, r.op = r'.op → r = r' := by decide

/-- A row whose mask covers the whole word has one command word. -/
theorem decode_ok_iff_of_fullMask {r : Row} (hr : r ∈ opcodeTable) (hmask : r.mask = BitVec.allOnes 32) {w : Word} :
    decode w = .ok (operandsOf r.op w) ↔ w = r.matchBits := by
  constructor
  · intro h
    obtain ⟨r', hr', hm, hc⟩ := decode_ok_iff.1 h
    have hop : r'.op = r.op := by simpa using congrArg Laws.EncodeFitsRow.opOf hc
    obtain rfl := opcodeTable_op_inj r' hr' r hr hop
    rwa [hmask, BitVec.and_allOnes] at hm
  · intro h
    exact decode_ok_iff.2 ⟨r, hr, by rw [hmask, BitVec.and_allOnes, h], rfl⟩

/-- `AF_DECODE` has one command word (41_adaptation_field.md R149). -/
theorem decode_afDecode_iff {w : Word} : decode w = .ok .afDecode ↔ w = 0x20000000 :=
  decode_ok_iff_of_fullMask (r := ⟨.afDecode, 0x2, 0x20000000, 0xFFFFFFFF⟩) (by decide) (by decide)

end Sys2Proof
end

section
/-! AF_DECODE and the presence of an adaptation field (41_adaptation_field.md R140, R149). -/

namespace Sys2Proof.Machine

/-- `AFC[1]` is bit 5 of packet byte 3 (R141). -/
@[simp] theorem afcHasField_afc (p : Packet) : afcHasField p.afc = (p.byte 3).getLsbD 5 := by
  simp [afcHasField, Packet.afc]

/-- Without byte 3 the AFC cannot be read (R142). -/
theorem afDecode_short {p : Packet} {n : Nat} (h : n < 4) : afDecode p n = .zero .truncatedInput := by
  simp [afDecode, h]

/-- Without a field the decode stops at the AFC (R140). -/
theorem afDecode_absent {p : Packet} {n : Nat} (hn : 4 ≤ n) (hf : (p.byte 3).getLsbD 5 = false) :
    afDecode p n = .zero .notPresent := by
  have hshort : ¬ n < Config.tsHeaderLen := by simpa using hn
  rw [afDecode, if_neg hshort, if_pos (by rw [afcHasField_afc, hf])]

/-- Once the AFC can be read, the decode answers `NOT_PRESENT` exactly when it says so (R140). -/
theorem afDecode_status_notPresent_iff {p : Packet} {n : Nat} (hn : 4 ≤ n) :
    (afDecode p n).status = .notPresent ↔ (p.byte 3).getLsbD 5 = false := by
  cases hf : (p.byte 3).getLsbD 5 with
  | false => simp [afDecode_absent hn hf, AfGroup.zero]
  | true =>
    obtain h | h | h := afDecode_status_present (n := n) ((afcHasField_afc p).trans hf) <;> simp [h]

/-- Settles O13: in two packets with the same byte 3 the field is absent together, and both decodes stop there. -/
theorem afPresenceFollowsAfc : Obligations.AfPresenceFollowsAfc := by
  intro p n hn
  refine ⟨afDecode_status_notPresent_iff hn, fun hp => ⟨afDecode_absent hn hp, fun q hq => ?_⟩⟩
  have hqf : (q.byte 3).getLsbD 5 = false := by rw [hq, hp]
  rw [afDecode_absent hn hp, afDecode_absent hn hqf]

/-- The four result codes R149 lists. -/
theorem afDecode_status_mem (p : Packet) (n : Nat) :
    (afDecode p n).status ∈ [ResultCode.ok, .notPresent, .truncatedInput, .malformedField] := by
  cases hf : (p.byte 3).getLsbD 5 with
  | true =>
    obtain h | h | h := afDecode_status_present (n := n) ((afcHasField_afc p).trans hf) <;> simp [h]
  | false =>
    obtain hn | hn := Nat.lt_or_ge n 4
    · simp [afDecode_short hn, AfGroup.zero]
    · simp [afDecode_absent hn hf, AfGroup.zero]

theorem execAfDecode_tooLong {s : State} (h : 188 < s.pktLen.toNat) :
    execAfDecode s = .next (s.raiseIllegal none) := by
  obtain ⟨_, he⟩ | ⟨hle, _⟩ := execAfDecode_cases s
  · exact he
  · omega

/-- With a packet that fits, the command writes the adaptation-field decode and its status (R149). -/
theorem execAfDecode_decoded {s : State} (h : s.pktLen.toNat ≤ 188) :
    execAfDecode s = .next ({ s with af := afDecode s.pkt s.pktLen.toNat }.setResult
      (afDecode s.pkt s.pktLen.toNat).status false false none) := by
  obtain ⟨hlt, _⟩ | ⟨_, he⟩ := execAfDecode_cases s
  · omega
  · exact he

/-- Settles O12: the one command word of R81, then the two cases of the packet check. -/
theorem afDecodeCommand : Obligations.AfDecodeCommand :=
  ⟨fun _ => decode_afDecode_iff, fun s =>
    ⟨execAfDecode_tooLong, fun hfits => ⟨execAfDecode_decoded hfits, afDecode_status_mem s.pkt s.pktLen.toNat⟩⟩⟩

end Sys2Proof.Machine
end

section
/-! PESH_DECODE's command words (30_encoding.md R81, R82 case 2, R100). -/

namespace Sys2Proof

/-- A command comes from the one row of its operation: the word matches it and has the command's operands (R83). -/
theorem decode_ok_iff_of_row {r : Row} (hr : r ∈ opcodeTable) {c : Instr} (hop : Laws.EncodeFitsRow.opOf c = r.op)
    {w : Word} : decode w = .ok c ↔ w &&& r.mask = r.matchBits ∧ operandsOf r.op w = c := by
  constructor
  · intro h
    obtain ⟨r', hr', hm, rfl⟩ := decode_ok_iff.1 h
    rw [opOf_operandsOf] at hop
    obtain rfl := opcodeTable_op_inj r' hr' r hr hop
    exact ⟨hm, rfl⟩
  · rintro ⟨hm, hc⟩
    exact decode_ok_iff.2 ⟨r, hr, hm, hc⟩

theorem decode_peshDecode_ok_iff {w : Word} {ofs : Byte} :
    decode w = .ok (.peshDecode ofs) ↔ w &&& 0xFF00FFFF#32 = 0x30000000#32 ∧ ofsField w = ofs :=
  (decode_ok_iff_of_row (r := ⟨.peshDecode, 0x3, 0x30000000, 0xFF00FFFF⟩) (by decide) rfl).trans
    (and_congr_right fun _ => by simp [operandsOf])

/-- The bits of a word that `PESH_DECODE` leaves free are its `OFS` field in place (R80). -/
theorem and_ofsMask (w : Word) : w &&& 0x00FF0000#32 = (ofsField w).setWidth 32 <<< 16 := by
  have hmask : ∀ k < 32, (0x00FF0000#32).getLsbD k = decide (16 ≤ k ∧ k < 24) := by decide
  apply BitVec.eq_of_getLsbD_eq
  intro k hk
  rw [BitVec.getLsbD_and, hmask k hk]
  by_cases h : k < 16
  · simp [h]
  · have hpos : 16 + (k - 16) = k := by omega
    have hfield : k - 16 < 8 ↔ 16 ≤ k ∧ k < 24 := by omega
    simp [ofsField, h, hk, hpos, hfield, Bool.and_comm]

/-- A word is the bits `PESH_DECODE` fixes and its `OFS` field. -/
theorem fixedBits_or_ofsField (w : Word) : w &&& 0xFF00FFFF#32 ||| (ofsField w).setWidth 32 <<< 16 = w := by
  rw [← and_ofsMask, ← BitVec.and_or_distrib_left]
  exact BitVec.and_allOnes

/-- The encoder's word decodes back to the command (R100). -/
theorem decode_encode_peshDecode (ofs : Byte) : decode (encode (.peshDecode ofs)) = .ok (.peshDecode ofs) := by
  obtain ⟨r, hr, hop, hm⟩ := Laws.EncodeFitsRow.peshDecode ofs
  exact decode_ok_iff.2 ⟨r, hr, hm, by rw [hop]; exact congrArg Instr.peshDecode (ofsField_assemble ..)⟩

theorem eq_of_decode_peshDecode {w : Word} {ofs : Byte} (h : decode w = .ok (.peshDecode ofs)) :
    w = 0x30000000#32 ||| ofs.setWidth 32 <<< 16 := by
  obtain ⟨hfixed, hofs⟩ := decode_peshDecode_ok_iff.1 h
  rw [← fixedBits_or_ofsField w, hfixed, hofs]

/-- `PESH_DECODE` with `OFS` has one command word, R100's (R81). -/
theorem decode_peshDecode_iff {w : Word} {ofs : Byte} :
    decode w = .ok (.peshDecode ofs) ↔ w = 0x30000000#32 ||| ofs.setWidth 32 <<< 16 := by
  refine ⟨eq_of_decode_peshDecode, fun h => ?_⟩
  have hencode := decode_encode_peshDecode ofs
  rwa [eq_of_decode_peshDecode hencode, ← h] at hencode

end Sys2Proof
end

section
/-! PESH_DECODE (42_pes_header.md R178): how the command ends. -/

namespace Sys2Proof.Machine

/-- Without the 6-byte prefix there is no header (R170). -/
theorem peshDecode_short {p : Packet} {st n : Nat} (h : n < 6) : peshDecode p st n = .zero .truncatedInput := by
  rw [peshDecode, if_pos (show n < Config.pesPrefixLen from h)]

theorem execPeshDecode_tooLong {s : State} (ofs : Byte) (h : 188 < s.pktLen.toNat) :
    execPeshDecode ofs s = .next (s.raiseIllegal none) := by
  obtain ⟨_, he⟩ | ⟨hle, _⟩ := execPeshDecode_cases ofs s
  · exact he
  · omega

/-- With a packet that fits, the command writes the PES header decode at `OFS` and its status (R178). -/
theorem execPeshDecode_decoded {s : State} (ofs : Byte) (h : s.pktLen.toNat ≤ 188) :
    execPeshDecode ofs s =
      .next ({ s with pesh := peshDecode s.pkt ofs.toNat (s.pktLen.toNat - ofs.toNat) }.setResult
        (peshDecode s.pkt ofs.toNat (s.pktLen.toNat - ofs.toNat)).status false false none) := by
  obtain ⟨hlt, _⟩ | ⟨_, he⟩ := execPeshDecode_cases ofs s
  · omega
  · exact he

/-- Settles O18: the one command word of R81 for each `OFS`, then the two cases of the packet check; with `OFS` past
the packet the decode has no byte. -/
theorem peshDecodeCommand : Obligations.PeshDecodeCommand := by
  refine ⟨fun w ofs => decode_peshDecode_iff, fun s ofs => ⟨execPeshDecode_tooLong ofs, execPeshDecode_decoded ofs,
    fun hfits hpast => ?outside⟩⟩
  case outside =>
    have he := execPeshDecode_decoded ofs hfits
    rwa [Nat.sub_eq_zero_of_le hpast, peshDecode_short (by decide)] at he

end Sys2Proof.Machine
end

section
/-! Absorb steps that end before the state machine (43_pes_assembler.md R205 to R208): each step in closed form, the
command from it. -/

namespace Sys2Proof.Machine

/-- A step that ends after the PID check writes `LAST_RESULT` and what its instance has noted, and sends nothing
(R206 to R208). -/
theorem exec_asmAbsorb_ended {s : State} {i : InstId} {c : ResultCode} {h : HdrGroup} {af : AfGroup} {a : Assembler}
    (he : AbsorbEnabled s i) (ho : s.absorb i = some (absorbEnded c h af a)) :
    exec (.asmAbsorb i) s = .next { s.setInst i { a with lastResult := ⟨c, false⟩ } with
      hdr := h, af := af, pesh := .zero .notRun, result := ⟨c, false, false, some i⟩ } :=
  exec_asmAbsorb_noSink he ho rfl rfl

/-- A step that ends before the PID check passes leaves every instance as it is (R205). -/
theorem exec_asmAbsorb_turnedAway {s : State} {i : InstId} {c : ResultCode} {h : HdrGroup} (he : AbsorbEnabled s i)
    (ho : s.absorb i = some (absorbTurnedAway c h (s.inst i))) :
    exec (.asmAbsorb i) s = .next { s with
      hdr := h, af := .zero .notRun, pesh := .zero .notRun, result := ⟨c, false, false, some i⟩ } := by
  have hexec := exec_asmAbsorb_noSink he ho rfl rfl
  rwa [show (absorbTurnedAway c h (s.inst i)).asm = s.inst i from rfl, setInst_inst] at hexec

/-- Settles O24: the first two tests of the absorb step, each of which turns the packet away. -/
theorem absorbTurnsAwayForeignPackets : Obligations.AbsorbTurnsAwayForeignPackets := fun _ _ he =>
  ⟨fun hshort => exec_asmAbsorb_turnedAway he (absorb_short hshort),
    fun hlen hpid => exec_asmAbsorb_turnedAway he (absorb_otherPid hlen hpid)⟩

/-- Settles O25: the third test of the absorb step. -/
theorem absorbNeedsFullPacket : Obligations.AbsorbNeedsFullPacket := fun _ _ he hlen hpart hpid =>
  exec_asmAbsorb_ended he (absorb_partial hlen hpid hpart)

/-- A packet that says it has an adaptation field is accepted when the field decodes (R207). -/
theorem afAccepted_iff_of_present {p : Packet} (hf : (p.byte 3).getLsbD 5 = true) :
    AfAccepted p ↔ (afDecode p 188).status = .ok := by
  simp [AfAccepted, absorbAf_eq, hasField_header, hf]

/-- Settles O26: the fourth test of the absorb step, with the field's own status as the step's. -/
theorem absorbRejectsBadAdaptationField : Obligations.AbsorbRejectsBadAdaptationField := by
  intro s i hw hf hbad
  have haf : absorbAf s.pkt (headerWord s.pkt) = afDecode s.pkt 188 := by rw [absorbAf_eq, if_pos hf]
  have hrej : ¬ AfAccepted s.pkt := mt (afAccepted_iff_of_present hf).1 hbad
  have hstep : s.absorb i = some (absorbEnded (afDecode s.pkt 188).status (tshDecode s.pkt 188) (afDecode s.pkt 188)
      (s.inst i)) := by
    rw [State.absorb, absorb_badAf hw.full.ge hw.pid hrej, hw.full, haf]
  refine ⟨exec_asmAbsorb_ended hw.enabled hstep, ?_⟩
  have hstatus := absorbAf_rejected hrej
  rwa [haf] at hstatus

/-- A loss changes `LAST_CC` at most, as the parameter `CC_ADVANCE_ON_LOSS` says (R208). -/
theorem noteLoss_eq (ps : Params) (cc : BitVec 4) (a : Assembler) :
    noteLoss ps cc a = { a with lastCc := if ps.ccAdvanceOnLoss then some cc else a.lastCc } := by
  unfold noteLoss
  split <;> rfl

/-- Settles O27: the last test of the absorb step, which comes before PUSI and AFC are looked at. -/
theorem absorbDropsOnCounterMismatch : Obligations.AbsorbDropsOnCounterMismatch := by
  intro s i hw haf hcc
  have hlost : ccOk s.params.ccFirst (s.inst i).lastCc (hdrCc (headerWord s.pkt)) = false :=
    Bool.eq_false_iff.2 (mt ccOk_iff.1 hcc)
  have hstep : s.absorb i = some (absorbEnded .streamPacketLost (tshDecode s.pkt 188)
      (absorbAf s.pkt (headerWord s.pkt)) (noteLoss s.params (hdrCc (headerWord s.pkt)) (s.inst i))) := by
    rw [State.absorb, absorb_lost hw.full.ge hw.pid haf hlost, hw.full]
  rw [noteLoss_eq] at hstep
  exact exec_asmAbsorb_ended hw.enabled hstep

end Sys2Proof.Machine
end

section
/-! The state machine with nothing to continue, and the bounded append (43_pes_assembler.md R216, R217). -/

namespace Sys2Proof.Machine

/-- Settles O33: the state machine's branch for PUSI = 0 and not started. -/
theorem absorbHasNothingToContinue : Obligations.AbsorbHasNothingToContinue := by
  intro s i hr hpusi hstarted
  have hstep := absorb_of_reaches hr
  rw [hpusi, stateMachine_nothing (a := { s.inst i with lastCc := some (hdrCc (headerWord s.pkt)) }) hstarted] at hstep
  exact exec_asmAbsorb_noSink hr.whole.enabled hstep rfl rfl

/-- A run of packet bytes in a buffer, cell by cell (R217). -/
theorem read?_writeRun_bytes (m : Memory) (lo : Nat) (p : Packet) (off size k : Nat) :
    (m.writeRun lo (p.bytes off size)).read? k =
      if lo ≤ k ∧ k < lo + size then some (p.byte (off + (k - lo))) else m.read? k := by
  rw [read?_writeRun, bytes_length]
  split
  · rw [bytes_getElem?, if_pos (by omega)]
  · rfl

/-- Settles O34: `append_cases` has one case for a payload that fits and one for a payload that does not. -/
theorem appendWritesAllOrNothing : Obligations.AppendWritesAllOrNothing := by
  intro p off size a
  refine ⟨append_none_iff, fun b hb => ?_⟩
  have hframe : { b with buf := a.buf, woff := a.woff, overrun := a.overrun } = a := by rw [append_frame hb]
  obtain ⟨-, hwoff, ⟨hfits, hstored⟩ | ⟨hover, hkept⟩⟩ := append_cases hb
  · refine ⟨hwoff, hframe, fun _ => ⟨by rw [hstored], fun k => ?_⟩, fun hover => by omega⟩
    rw [hstored]
    exact read?_writeRun_bytes a.buf a.woff.toNat p off size k
  · exact ⟨hwoff, hframe, fun hfits => by omega, fun _ => by rw [hkept]; exact ⟨rfl, rfl⟩⟩

end Sys2Proof.Machine
end

section
/-! The command words of ASM_INIT and ASM_RELEASE (30_encoding.md R80 to R83, R100). -/

namespace Sys2Proof

/-- Two words that agree under a mask and on the bits it leaves free are one word. -/
theorem eq_of_and_eq {w w' mask : Word} (hm : w &&& mask = w' &&& mask)
    (hfree : ∀ k < 32, mask.getLsbD k = false → w.getLsbD k = w'.getLsbD k) : w = w' := by
  apply BitVec.eq_of_getLsbD_eq
  intro k hk
  cases hb : mask.getLsbD k with
  | false => exact hfree k hk hb
  | true =>
    have hbit := congrArg (·.getLsbD k) hm
    simpa [hb] using hbit

/-- `INST` is bits 27:24 (R80). -/
theorem getLsbD_of_instField_eq {w w' : Word} (h : instField w = instField w') {k : Nat} (hk : 24 ≤ k ∧ k < 28) :
    w.getLsbD k = w'.getLsbD k := by
  have hfield : w.extractLsb' 24 4 = w'.extractLsb' 24 4 := by
    have hval := congrArg Fin.val h
    simp only [instField, Fin.val_ofNat] at hval
    apply BitVec.eq_of_toNat_eq
    omega
  have hbit := congrArg (·.getLsbD (k - 24)) hfield
  simpa [show 24 + (k - 24) = k by omega, show k - 24 < 4 by omega] using hbit

/-- `PIDF` is bits 12:0 (R80). -/
theorem getLsbD_of_pidField_eq {w w' : Word} (h : pidField w = pidField w') {k : Nat} (hk : k < 13) :
    w.getLsbD k = w'.getLsbD k := by
  have hbit := congrArg (·.getLsbD k) h
  simpa [pidField, hk] using hbit

/-- The decoder reads an encoding that fits its row as its operands (R83, R100). -/
theorem decode_encode_of_fits {c : Instr} (hfit : Laws.EncodeFitsRow.Statement c)
    (hop : operandsOf (Laws.EncodeFitsRow.opOf c) (encode c) = c) : decode (encode c) = .ok c := by
  obtain ⟨r, hr, hrow, hm⟩ := hfit
  exact decode_ok_iff.2 ⟨r, hr, hm, by rw [hrow, hop]⟩

theorem decode_asmInit_ok_iff {w : Word} {i : InstId} {pid : Pid} :
    decode w = .ok (.asmInit i pid) ↔
      w &&& 0xF0FFE000#32 = 0x40000000#32 ∧ instField w = i ∧ pidField w = pid :=
  (decode_ok_iff_of_row (r := ⟨.asmInit, 0x4, 0x40000000, 0xF0FFE000⟩) (by decide) rfl).trans
    (and_congr_right fun _ => by simp [operandsOf])

theorem decode_asmRelease_ok_iff {w : Word} {i : InstId} :
    decode w = .ok (.asmRelease i) ↔ w &&& 0xF0FFFFFF#32 = 0x60000000#32 ∧ instField w = i :=
  (decode_ok_iff_of_row (r := ⟨.asmRelease, 0x6, 0x60000000, 0xF0FFFFFF⟩) (by decide) rfl).trans
    (and_congr_right fun _ => by simp [operandsOf])

/-- The row's mask leaves `INST` and `PIDF` free, so a command has one word. -/
theorem eq_of_decode_asmInit {w w' : Word} {i : InstId} {pid : Pid} (h : decode w = .ok (.asmInit i pid))
    (h' : decode w' = .ok (.asmInit i pid)) : w = w' := by
  obtain ⟨hm, hi, hp⟩ := decode_asmInit_ok_iff.1 h
  obtain ⟨hm', hi', hp'⟩ := decode_asmInit_ok_iff.1 h'
  have hmask : ∀ k < 32, (0xF0FFE000#32).getLsbD k = false → k < 13 ∨ 24 ≤ k ∧ k < 28 := by decide
  refine eq_of_and_eq (hm.trans hm'.symm) fun k hk hfree => ?_
  obtain hpid | hinst := hmask k hk hfree
  · exact getLsbD_of_pidField_eq (hp.trans hp'.symm) hpid
  · exact getLsbD_of_instField_eq (hi.trans hi'.symm) hinst

/-- The row's mask leaves only `INST` free. -/
theorem eq_of_decode_asmRelease {w w' : Word} {i : InstId} (h : decode w = .ok (.asmRelease i))
    (h' : decode w' = .ok (.asmRelease i)) : w = w' := by
  obtain ⟨hm, hi⟩ := decode_asmRelease_ok_iff.1 h
  obtain ⟨hm', hi'⟩ := decode_asmRelease_ok_iff.1 h'
  have hmask : ∀ k < 32, (0xF0FFFFFF#32).getLsbD k = false → 24 ≤ k ∧ k < 28 := by decide
  exact eq_of_and_eq (hm.trans hm'.symm) fun k hk hfree =>
    getLsbD_of_instField_eq (hi.trans hi'.symm) (hmask k hk hfree)

/-- `PIDF` stands in the low bits of the word (R80). -/
theorem assemble_pid (opc : BitVec 4) (i : InstId) (ofs : Byte) (pid : Pid) :
    assemble opc i ofs pid = assemble opc i ofs 0 ||| pid.setWidth 32 := by
  apply BitVec.eq_of_getLsbD_eq
  intro k hk
  rw [BitVec.getLsbD_or, assemble_getLsbD, assemble_getLsbD, BitVec.getLsbD_setWidth]
  by_cases hpid : k < 13
  · simp [hpid, hk]
  · simp [hpid, BitVec.getLsbD_of_ge pid k (by omega)]

theorem encode_asmInit (i : InstId) (pid : Pid) :
    encode (.asmInit i pid) = 0x40000000#32 ||| BitVec.ofNat 32 i.val <<< 24 ||| pid.setWidth 32 := by
  have hinst : ∀ j : InstId, assemble 0x4 j 0 0 = 0x40000000#32 ||| BitVec.ofNat 32 j.val <<< 24 := by decide
  rw [encode, assemble_pid, hinst]

theorem encode_asmRelease :
    ∀ i : InstId, encode (.asmRelease i) = 0x60000000#32 ||| BitVec.ofNat 32 i.val <<< 24 := by decide

/-- `ASM_INIT` with `INST` and `PIDF` has one command word, R100's (R81). -/
theorem decode_asmInit_iff {w : Word} {i : InstId} {pid : Pid} :
    decode w = .ok (.asmInit i pid) ↔
      w = 0x40000000#32 ||| BitVec.ofNat 32 i.val <<< 24 ||| pid.setWidth 32 := by
  have hdec : decode (encode (.asmInit i pid)) = .ok (.asmInit i pid) :=
    decode_encode_of_fits (Laws.EncodeFitsRow.asmInit i pid)
      (congrArg₂ Instr.asmInit (instField_assemble ..) (pidField_assemble ..))
  rw [← encode_asmInit]
  exact ⟨fun h => eq_of_decode_asmInit h hdec, fun h => h ▸ hdec⟩

/-- `ASM_RELEASE` with `INST` has one command word, R100's (R81). -/
theorem decode_asmRelease_iff {w : Word} {i : InstId} :
    decode w = .ok (.asmRelease i) ↔ w = 0x60000000#32 ||| BitVec.ofNat 32 i.val <<< 24 := by
  have hdec : decode (encode (.asmRelease i)) = .ok (.asmRelease i) :=
    decode_encode_of_fits (Laws.EncodeFitsRow.asmRelease i) (congrArg Instr.asmRelease (instField_assemble ..))
  rw [← encode_asmRelease]
  exact ⟨fun h => eq_of_decode_asmRelease h hdec, fun h => h ▸ hdec⟩

end Sys2Proof
end

section
/-! ASM_INIT and ASM_RELEASE (43_pes_assembler.md R201, R202): how the commands end. -/

namespace Sys2Proof.Machine

theorem execAsmInit_noInstance {s : State} {i : InstId} (pid : Pid) (h : s.params.nAsm ≤ i.val) :
    execAsmInit i pid s = .next (s.raiseIllegal (some i)) := by
  obtain ⟨_, he⟩ | ⟨hlt, _⟩ := execAsmInit_cases i pid s
  · exact he
  · omega

/-- An instance that exists gets the creation values, whatever it held (R201). -/
theorem execAsmInit_created {s : State} {i : InstId} (pid : Pid) (h : i.val < s.params.nAsm) :
    execAsmInit i pid s = .next ((s.setInst i (.init pid)).setResult .ok false false (some i)) := by
  obtain ⟨hle, _⟩ | ⟨_, he⟩ := execAsmInit_cases i pid s
  · omega
  · exact he

/-- Settles O22: the one command word for each `INST` and `PIDF`, then the two cases of the index check. -/
theorem asmInitCommand : Obligations.AsmInitCommand :=
  ⟨fun _ _ _ => decode_asmInit_iff, fun _ _ pid => ⟨execAsmInit_noInstance pid, execAsmInit_created pid⟩⟩

theorem execAsmRelease_illegal {s : State} {i : InstId} (h : s.params.nAsm ≤ i.val ∨ (s.inst i).active = false) :
    execAsmRelease i s = .next (s.raiseIllegal (some i)) := by
  obtain ⟨_, he⟩ | ⟨hlt, hactive, _⟩ := execAsmRelease_cases i s
  · exact he
  · obtain hle | hinactive := h
    · omega
    · simp [hactive] at hinactive

/-- An active instance gets its reset values, with no flush (R202). -/
theorem execAsmRelease_released {s : State} {i : InstId} (h : i.val < s.params.nAsm)
    (hactive : (s.inst i).active = true) :
    execAsmRelease i s = .next ((s.setInst i .reset).setResult .ok false false (some i)) := by
  obtain ⟨hle | hinactive, _⟩ | ⟨_, _, he⟩ := execAsmRelease_cases i s
  · omega
  · simp [hactive] at hinactive
  · exact he

/-- Settles O23: the one command word for each `INST`, then the checks of the index and of `ACTIVE`. -/
theorem asmReleaseCommand : Obligations.AsmReleaseCommand :=
  ⟨fun _ _ => decode_asmRelease_iff, fun _ _ => ⟨execAsmRelease_illegal, execAsmRelease_released⟩⟩

end Sys2Proof.Machine
end

section
/-! PKT_PROCESS before and at the dispatch (44_packet_process.md R251, R253, R256): the filters, and the refusal. -/

namespace Sys2Proof.Machine

/-- Without its four bytes the header is the reason PKT_PROCESS ends (R250). -/
theorem execPktProcess_short {s : State} (h : s.pktLen.toNat < 4) :
    execPktProcess s = .next (s.packetDropped (tshDecode s.pkt s.pktLen.toNat) .truncatedInput) := by
  rw [tshDecode_short h]
  obtain ⟨hlong, -⟩ | ⟨-, he⟩ | ⟨hfull, -⟩ | ⟨hfull, -⟩ | ⟨hfull, -⟩ := execPktProcess_cases s
  · omega
  · exact he
  all_goals omega

/-- PKT_PROCESS, unlike TSH_DECODE, enforces the sync byte (R251). -/
theorem execPktProcess_badSync {s : State} (hfits : s.pktLen.toNat ≤ 188) (hfull : 4 ≤ s.pktLen.toNat)
    (hsync : syncOkOf (headerWord s.pkt) = false) :
    execPktProcess s = .next (s.packetDropped (tshDecode s.pkt s.pktLen.toNat) .invalidSync) := by
  obtain ⟨hlong, -⟩ | ⟨hshort, -⟩ | ⟨-, -, -, he⟩ | ⟨-, -, hok, -⟩ | ⟨-, -, hok, -⟩ := execPktProcess_cases s
  · omega
  · omega
  · exact he
  all_goals simp [hsync] at hok

theorem ReachesDispatch.syncOk {s : State} (h : ReachesDispatch s) : syncOkOf (headerWord s.pkt) = true := by
  rw [syncOkOf_headerWord, decide_eq_true h.sync]

theorem reachesDispatch_of_syncOk {s : State} (hfits : s.pktLen.toNat ≤ 188) (hfull : 4 ≤ s.pktLen.toNat)
    (hsync : syncOkOf (headerWord s.pkt) = true) : ReachesDispatch s :=
  ⟨hfits, hfull, of_decide_eq_true (syncOkOf_headerWord s.pkt ▸ hsync)⟩

/-- What PKT_PROCESS can do once the packet has passed the header checks (R250): no instance tracks the PID, or all
matching instances absorb the packet, or one of them refuses. -/
theorem execPktProcess_dispatch_cases {s : State} (h : ReachesDispatch s) :
    (s.matching (hdrPid (headerWord s.pkt)) = [] ∧
      execPktProcess s = .next (s.packetDropped (tshDecode s.pkt s.pktLen.toNat) .unexpectedPid)) ∨
    ∃ j rest, s.matching (hdrPid (headerWord s.pkt)) = j :: rest ∧
      ((s.absorbEach (j :: rest) = none ∧ execPktProcess s = .refused .woffOverflow) ∨
       ∃ o t, s.absorb j = some o ∧ s.absorbEach (j :: rest) = some t ∧
        execPktProcess s = .next ((t.setGroups o).setResult o.code o.ntc o.flushed (some j))) := by
  obtain ⟨hlong, -⟩ | ⟨hshort, -⟩ | ⟨-, -, hbad, -⟩ | ⟨-, -, -, hnil⟩ | ⟨-, -, -, hcons⟩ := execPktProcess_cases s
  · exact absurd h.pktLen (by omega)
  · exact absurd h.header (by omega)
  · simp [h.syncOk] at hbad
  · exact .inl hnil
  · exact .inr hcons

theorem matching_header_eq_nil_iff {s : State} :
    s.matching (hdrPid (headerWord s.pkt)) = [] ↔ ∀ i, ¬ Matches s i :=
  List.eq_nil_iff_forall_not_mem.trans (forall_congr' fun _ => not_congr mem_matching_header)

theorem execPktProcess_untracked {s : State} (h : ReachesDispatch s) (hnone : ∀ i, ¬ Matches s i) :
    execPktProcess s = .next (s.packetDropped (tshDecode s.pkt s.pktLen.toNat) .unexpectedPid) := by
  obtain ⟨-, he⟩ | ⟨j, rest, hcons, -⟩ := execPktProcess_dispatch_cases h
  · exact he
  · simp [matching_header_eq_nil_iff.2 hnone] at hcons

/-- Settles O40: the three checks before the first absorb step, each of which drops the packet. -/
theorem pktProcessFilters : Obligations.PktProcessFilters := by
  refine fun s hfits => ⟨execPktProcess_short, fun hfull hsync => ?badSync,
    fun hfull hsync => execPktProcess_untracked ⟨hfits, hfull, hsync⟩⟩
  case badSync =>
    have hbad : syncOkOf (headerWord s.pkt) = false := by rw [syncOkOf_headerWord, decide_eq_false hsync]
    exact ⟨execPktProcess_badSync hfits hfull hbad, by rw [tshDecode_full hfull, hbad]⟩

/-- A refusal comes from the absorb steps, and so only from a packet that got to the dispatch. -/
theorem reachesDispatch_of_refused {s : State} {r : Refusal} (h : execPktProcess s = .refused r) :
    ReachesDispatch s := by
  obtain ⟨-, he⟩ | ⟨-, he⟩ | ⟨-, -, -, he⟩ | ⟨-, -, -, -, he⟩ | ⟨hfull, hfits, hsync, -⟩ := execPktProcess_cases s
  case inr.inr.inr.inr => exact reachesDispatch_of_syncOk hfits hfull hsync
  all_goals simp [he] at h

/-- At the dispatch PKT_PROCESS refuses exactly when the absorb steps do (R256). -/
theorem execPktProcess_refused_iff {s : State} {r : Refusal} (h : ReachesDispatch s) :
    execPktProcess s = .refused r ↔
      r = .woffOverflow ∧ s.absorbEach (s.matching (hdrPid (headerWord s.pkt))) = none := by
  obtain ⟨hnil, he⟩ | ⟨j, rest, hcons, ⟨hnone, he⟩ | ⟨o, t, -, hsome, he⟩⟩ := execPktProcess_dispatch_cases h
  · simp [he, hnil, State.absorbEach]
  · simp [he, hcons, hnone, eq_comm]
  · simp [he, hcons, hsome]

/-- Whether the matching instances refuse together, each asked on its own and with any draw number (R256). -/
theorem absorbEach_matching_none_iff {s : State} :
    s.absorbEach (s.matching (hdrPid (headerWord s.pkt))) = none ↔
      ∃ i, Matches s i ∧ ∀ draw, absorb s.params s.pkt s.pktLen.toNat draw (s.inst i) = none := by
  rw [absorbEach_none_iff (matching_ascending s _)]
  refine exists_congr fun i => and_congr mem_matching_header ?_
  exact ⟨fun h draw => (absorb_none_draw draw).1 h, fun h => h s.draws⟩

/-- Settles O43: a refusal is one of the matching instances' absorb steps, taken together at the dispatch. -/
theorem pktProcessRefusesWithAnyMatch : Obligations.PktProcessRefusesWithAnyMatch := by
  intro s r
  rw [← absorbEach_matching_none_iff]
  constructor
  · intro h
    have hd := reachesDispatch_of_refused h
    obtain ⟨hr, hnone⟩ := (execPktProcess_refused_iff hd).1 h
    exact ⟨hr, hd, hnone⟩
  · rintro ⟨hr, hd, hnone⟩
    exact (execPktProcess_refused_iff hd).2 ⟨hr, hnone⟩

end Sys2Proof.Machine
end

section
/-! R274's first two checks (60_exceptions.md): a word that matches no row of R81, and a word that matches one. -/

namespace Sys2Proof.Machine

theorem unmatched_of_reservedOpcode {w : Word} (h : ∀ r ∈ opcodeTable, opcField w ≠ r.opc) :
    ∀ r ∈ opcodeTable, w &&& r.mask ≠ r.matchBits :=
  fun r hr hm => h r hr (opcField_of_match hr hm)

/-- A word that misses the row of its opcode matches no other row, for another row has another opcode. -/
theorem unmatched_of_unusedField {w : Word} {r : Row} (hr : r ∈ opcodeTable) (hopc : opcField w = r.opc)
    (hunused : w &&& r.mask ≠ r.matchBits) : ∀ r' ∈ opcodeTable, w &&& r'.mask ≠ r'.matchBits := by
  intro r' hr' hm
  have hsame : r'.opc = r.opc := (opcField_of_match hr' hm).symm.trans hopc
  have hfound := rowOf_opc r' hr'
  rw [hsame, rowOf_opc r hr] at hfound
  obtain rfl := Option.some.inj hfound
  exact hunused hm

theorem issue_of_unmatched {w : Word} {s : State} (h : ∀ r ∈ opcodeTable, w &&& r.mask ≠ r.matchBits) :
    issue w s = .next (s.raiseIllegal none) := by
  obtain ⟨_, _, he⟩ | ⟨c, hc, _⟩ := issue_cases w s
  · exact he
  · obtain ⟨r, hr, hm, _⟩ := decode_ok_iff.1 hc
    exact absurd hm (h r hr)

theorem issue_of_match {w : Word} {s : State} {r : Row} (hr : r ∈ opcodeTable) (hm : w &&& r.mask = r.matchBits) :
    issue w s = exec (operandsOf r.op w) s := by
  have hdec : decode w = .ok (operandsOf r.op w) := decode_ok_iff.2 ⟨r, hr, hm, rfl⟩
  obtain ⟨e, hd, _⟩ | ⟨c, hd, he⟩ := issue_cases w s
  · simp [hdec] at hd
  · rw [hdec] at hd
    cases hd
    exact he

end Sys2Proof.Machine
end

section
/-! R274's last three checks (60_exceptions.md), for a command with its operands taken from the word. -/

namespace Sys2Proof.Machine

theorem execAsmAbsorb_tooLong {s : State} {i : InstId} (h : 188 < s.pktLen.toNat) :
    execAsmAbsorb i s = .next (s.raiseIllegal none) := by
  obtain ⟨-, he⟩ | ⟨hfits, -⟩ | ⟨henabled, -⟩ | ⟨henabled, -⟩ := execAsmAbsorb_cases i s
  · exact he
  · omega
  all_goals exact absurd henabled.pktLen (by omega)

theorem execAsmAbsorb_illegal {s : State} {i : InstId} (hfits : s.pktLen.toNat ≤ 188)
    (h : s.params.nAsm ≤ i.val ∨ (s.inst i).active = false) :
    execAsmAbsorb i s = .next (s.raiseIllegal (some i)) := by
  have hdisabled : ¬ AbsorbEnabled s i := fun henabled =>
    h.elim (Nat.not_le_of_lt henabled.inst) (by simp [henabled.active])
  obtain ⟨hlong, -⟩ | ⟨-, -, he⟩ | ⟨henabled, -⟩ | ⟨henabled, -⟩ := execAsmAbsorb_cases i s
  · omega
  · exact he
  all_goals exact absurd henabled hdisabled

theorem execPktProcess_tooLong {s : State} (h : 188 < s.pktLen.toNat) :
    execPktProcess s = .next (s.raiseIllegal none) := by
  obtain ⟨-, he⟩ | ⟨hshort, -⟩ | ⟨-, hfits, -⟩ | ⟨-, hfits, -⟩ | ⟨-, hfits, -⟩ := execPktProcess_cases s
  · exact he
  all_goals omega

/-- The third check: the operations that read the packet turn away one that is too long, and name no instance. -/
theorem exec_operandsOf_tooLong {op : Op} {w : Word} {s : State} (hreads : opReadsPacket op = true)
    (hlong : 188 < s.pktLen.toNat) : exec (operandsOf op w) s = .next (s.raiseIllegal none) := by
  cases op with
  | tshDecode => exact execTshDecode_tooLong hlong
  | afDecode => exact execAfDecode_tooLong hlong
  | peshDecode => exact execPeshDecode_tooLong _ hlong
  | asmAbsorb => exact execAsmAbsorb_tooLong hlong
  | pktProcess => exact execPktProcess_tooLong hlong
  | asmInit | asmRelease => nomatch hreads

/-- The fourth check: an index at or above `N_ASM`. -/
theorem exec_operandsOf_noInstance {op : Op} {w : Word} {s : State}
    (hfits : opReadsPacket op = true → s.pktLen.toNat ≤ 188) (hnames : opNamesInst op = true)
    (habsent : s.params.nAsm ≤ (instField w).val) :
    exec (operandsOf op w) s = .next (s.raiseIllegal (some (instField w))) := by
  cases op with
  | asmInit => exact execAsmInit_noInstance _ habsent
  | asmAbsorb => exact execAsmAbsorb_illegal (hfits rfl) (.inl habsent)
  | asmRelease => exact execAsmRelease_illegal (.inl habsent)
  | tshDecode | afDecode | peshDecode | pktProcess => nomatch hnames

/-- The fifth check: an instance that is not active. -/
theorem exec_operandsOf_inactive {op : Op} {w : Word} {s : State}
    (hfits : opReadsPacket op = true → s.pktLen.toNat ≤ 188) (hneeds : opNeedsActive op = true)
    (hinactive : (s.inst (instField w)).active = false) :
    exec (operandsOf op w) s = .next (s.raiseIllegal (some (instField w))) := by
  cases op with
  | asmAbsorb => exact execAsmAbsorb_illegal (hfits rfl) (.inr hinactive)
  | asmRelease => exact execAsmRelease_illegal (.inr hinactive)
  | tshDecode | afDecode | peshDecode | asmInit | pktProcess => nomatch hneeds

end Sys2Proof.Machine
end

section
/-! A command that passes R274's checks (60_exceptions.md) does not end with `ILLEGAL_COMMAND`. -/

namespace Sys2Proof.Machine

theorem execTshDecode_code_ne_illegal {s t : State} (hfits : s.pktLen.toNat ≤ 188) (he : execTshDecode s = .next t) :
    t.result.code ≠ .illegalCommand := by
  rw [execTshDecode_decoded hfits] at he
  cases he
  obtain h | h | h := (tshDecode_wf s.pkt s.pktLen.toNat).status <;> simp [h, HdrGroup.zero]

theorem execAfDecode_code_ne_illegal {s t : State} (hfits : s.pktLen.toNat ≤ 188) (he : execAfDecode s = .next t) :
    t.result.code ≠ .illegalCommand := by
  rw [execAfDecode_decoded hfits] at he
  cases he
  intro (h : (afDecode s.pkt s.pktLen.toNat).status = .illegalCommand)
  simpa [h] using afDecode_status_mem s.pkt s.pktLen.toNat

theorem execPeshDecode_code_ne_illegal {s t : State} {ofs : Byte} (hfits : s.pktLen.toNat ≤ 188)
    (he : execPeshDecode ofs s = .next t) : t.result.code ≠ .illegalCommand := by
  rw [execPeshDecode_decoded ofs hfits] at he
  cases he
  obtain h | h := peshDecode_status s.pkt ofs.toNat (s.pktLen.toNat - ofs.toNat) <;> simp [h]

theorem execAsmInit_code_ne_illegal {s t : State} {i : InstId} {pid : Pid} (h : i.val < s.params.nAsm)
    (he : execAsmInit i pid s = .next t) : t.result.code ≠ .illegalCommand := by
  rw [execAsmInit_created pid h] at he
  cases he
  simp

theorem execAsmRelease_code_ne_illegal {s t : State} {i : InstId} (h : i.val < s.params.nAsm)
    (hactive : (s.inst i).active = true) (he : execAsmRelease i s = .next t) :
    t.result.code ≠ .illegalCommand := by
  rw [execAsmRelease_released h hactive] at he
  cases he
  simp

theorem absorb_code_ne_illegal {s : State} {i : InstId} {o : AbsorbOut} (henabled : AbsorbEnabled s i)
    (ho : s.absorb i = some o) : o.code ≠ .illegalCommand :=
  (absorb_groups (t := s.setGroups o) henabled ho rfl rfl rfl).2

theorem execAsmAbsorb_code_ne_illegal {s t : State} {i : InstId} (henabled : AbsorbEnabled s i)
    (he : execAsmAbsorb i s = .next t) : t.result.code ≠ .illegalCommand := by
  obtain ⟨hlong, -⟩ | ⟨-, hdisabled, -⟩ | ⟨-, -, hrefused⟩ | ⟨-, o, ho, hnext⟩ := execAsmAbsorb_cases i s
  · exact absurd henabled.pktLen (by omega)
  · exact hdisabled.elim (fun hle => absurd henabled.inst (by omega)) (by simp [henabled.active])
  · simp [hrefused] at he
  · rw [hnext] at he
    cases he
    exact absorb_code_ne_illegal henabled ho

/-- At the dispatch `RESULT` is the lowest match's, which is an active instance (R250, R254). -/
theorem execPktProcess_code_ne_illegal {s t : State} (hfits : s.pktLen.toNat ≤ 188)
    (he : execPktProcess s = .next t) : t.result.code ≠ .illegalCommand := by
  obtain ⟨hlong, -⟩ | ⟨-, hdropped⟩ | ⟨-, -, -, hdropped⟩ | ⟨-, -, -, -, hdropped⟩ |
    ⟨-, -, -, j, rest, hmatching, ⟨-, hrefused⟩ | ⟨o, u, ho, -, hnext⟩⟩ := execPktProcess_cases s
  · omega
  case inr.inr.inr.inr.inl => simp [hrefused] at he
  case inr.inr.inr.inr.inr =>
    have hj : Matches s j := mem_matching_header.1 (by simp [hmatching])
    rw [hnext] at he
    cases he
    exact absorb_code_ne_illegal ⟨hfits, hj.inst, hj.active⟩ ho
  all_goals
    rw [hdropped] at he
    cases he
    simp [State.packetDropped]

theorem exec_operandsOf_code_ne_illegal {op : Op} {w : Word} {s t : State}
    (hfits : opReadsPacket op = true → s.pktLen.toNat ≤ 188)
    (hinst : opNamesInst op = true → (instField w).val < s.params.nAsm)
    (hactive : opNeedsActive op = true → (s.inst (instField w)).active = true)
    (he : exec (operandsOf op w) s = .next t) : t.result.code ≠ .illegalCommand := by
  cases op with
  | tshDecode => exact execTshDecode_code_ne_illegal (hfits rfl) he
  | afDecode => exact execAfDecode_code_ne_illegal (hfits rfl) he
  | peshDecode => exact execPeshDecode_code_ne_illegal (hfits rfl) he
  | asmInit => exact execAsmInit_code_ne_illegal (hinst rfl) he
  | asmAbsorb => exact execAsmAbsorb_code_ne_illegal ⟨hfits rfl, hinst rfl, hactive rfl⟩ he
  | asmRelease => exact execAsmRelease_code_ne_illegal (hinst rfl) (hactive rfl) he
  | pktProcess => exact execPktProcess_code_ne_illegal (hfits rfl) he

/-- Settles O4: one case for each of R274's five checks, and one for a command that passes them all. -/
theorem illegalCommandChecksInOrder : Obligations.IllegalCommandChecksInOrder := by
  refine fun s w => ⟨fun hreserved => issue_of_unmatched (unmatched_of_reservedOpcode hreserved), fun r hr hopc =>
    ⟨fun hunused => issue_of_unmatched (unmatched_of_unusedField hr hopc hunused), fun hm => ?_⟩⟩
  rw [issue_of_match hr hm]
  refine ⟨fun ⟨hreads, hlong⟩ => exec_operandsOf_tooLong hreads hlong, fun hpacket => ?_⟩
  have hfits (hreads : opReadsPacket r.op = true) : s.pktLen.toNat ≤ 188 :=
    Nat.le_of_not_lt fun hlong => hpacket ⟨hreads, hlong⟩
  refine ⟨fun ⟨hnames, habsent⟩ => exec_operandsOf_noInstance hfits hnames habsent, fun hindex =>
    ⟨fun ⟨hneeds, hinactive⟩ => exec_operandsOf_inactive hfits hneeds hinactive, fun hstate => ⟨rfl, fun t he => ?_⟩⟩⟩
  refine exec_operandsOf_code_ne_illegal hfits (fun hnames => ?inst) (fun hneeds => ?active) he
  case inst => exact Nat.lt_of_not_le fun habsent => hindex ⟨hnames, habsent⟩
  case active => exact Bool.eq_true_of_not_eq_false fun hinactive => hstate ⟨hneeds, hinactive⟩

end Sys2Proof.Machine
end

section
/-! Encoder and decoder are inverse to each other (30_encoding.md R80 to R83, R100). -/

namespace Sys2Proof

/-- Settles O1: each command's encoding fits its row of R81, and the decoder reads the operands back from their
fields. -/
theorem decodeOfEncodeIsIdentity : Obligations.DecodeOfEncodeIsIdentity := by
  intro c
  cases c with
  | tshDecode => exact decode_encode_of_fits Laws.EncodeFitsRow.tshDecode rfl
  | afDecode => exact decode_encode_of_fits Laws.EncodeFitsRow.afDecode rfl
  | peshDecode ofs => exact decode_encode_peshDecode ofs
  | asmInit i pid =>
    exact decode_encode_of_fits (Laws.EncodeFitsRow.asmInit i pid)
      (congrArg₂ Instr.asmInit (instField_assemble ..) (pidField_assemble ..))
  | asmAbsorb i =>
    exact decode_encode_of_fits (Laws.EncodeFitsRow.asmAbsorb i) (congrArg Instr.asmAbsorb (instField_assemble ..))
  | asmRelease i =>
    exact decode_encode_of_fits (Laws.EncodeFitsRow.asmRelease i) (congrArg Instr.asmRelease (instField_assemble ..))
  | pktProcess => exact decode_encode_of_fits Laws.EncodeFitsRow.pktProcess rfl

theorem decode_asmAbsorb_ok_iff {w : Word} {i : InstId} :
    decode w = .ok (.asmAbsorb i) ↔ w &&& 0xF0FFFFFF#32 = 0x50000000#32 ∧ instField w = i :=
  (decode_ok_iff_of_row (r := ⟨.asmAbsorb, 0x5, 0x50000000, 0xF0FFFFFF⟩) (by decide) rfl).trans
    (and_congr_right fun _ => by simp [operandsOf])

theorem decode_pktProcess_iff {w : Word} : decode w = .ok .pktProcess ↔ w = 0x70000000 :=
  decode_ok_iff_of_fullMask (r := ⟨.pktProcess, 0x7, 0x70000000, 0xFFFFFFFF⟩) (by decide) (by decide)

/-- `ASM_ABSORB` leaves only `INST` free. -/
theorem eq_of_decode_asmAbsorb {w w' : Word} {i : InstId} (h : decode w = .ok (.asmAbsorb i))
    (h' : decode w' = .ok (.asmAbsorb i)) : w = w' := by
  obtain ⟨hm, hi⟩ := decode_asmAbsorb_ok_iff.1 h
  obtain ⟨hm', hi'⟩ := decode_asmAbsorb_ok_iff.1 h'
  have hmask : ∀ k < 32, (0xF0FFFFFF#32).getLsbD k = false → 24 ≤ k ∧ k < 28 := by decide
  exact eq_of_and_eq (hm.trans hm'.symm) fun k hk hfree =>
    getLsbD_of_instField_eq (hi.trans hi'.symm) (hmask k hk hfree)

/-- No two words are one command (R82 case 2). -/
theorem eq_of_decode_eq_ok {w w' : Word} {c : Instr} (h : decode w = .ok c) (h' : decode w' = .ok c) : w = w' := by
  cases c with
  | tshDecode => exact (decode_tshDecode_iff.1 h).trans (decode_tshDecode_iff.1 h').symm
  | afDecode => exact (decode_afDecode_iff.1 h).trans (decode_afDecode_iff.1 h').symm
  | peshDecode ofs => exact (eq_of_decode_peshDecode h).trans (eq_of_decode_peshDecode h').symm
  | asmInit i pid => exact eq_of_decode_asmInit h h'
  | asmAbsorb i => exact eq_of_decode_asmAbsorb h h'
  | asmRelease i => exact eq_of_decode_asmRelease h h'
  | pktProcess => exact (decode_pktProcess_iff.1 h).trans (decode_pktProcess_iff.1 h').symm

/-- Settles O2: the word and the encoding of its command decode to one command. -/
theorem encodeOfDecodeIsIdentity : Obligations.EncodeOfDecodeIsIdentity :=
  fun _ c h => eq_of_decode_eq_ok (decodeOfEncodeIsIdentity c) h

/-- Settles O3: the decoder evaluated on the words that 95_test_vectors.md writes out. -/
theorem wordsOfTheVectorsDecode : Obligations.WordsOfTheVectorsDecode := by
  refine ⟨?_, ?_, ?_, ?_, ?_, ?_, ?_, ?_, ?_, ?_, ?_, ?_, ?_, ?_⟩ <;> decide

end Sys2Proof
end

section
/-! Steps of an unmarked block: a written command word, and an empty queue (00_scope.md R9, 20_memory.md R72). -/

namespace Sys2Proof.Machine

/-- A word that decodes, written to `CMD`, runs its command (30_encoding.md R83). -/
theorem perform_command {w : Word} {c : Instr} (h : decode w = .ok c) (s : State) :
    perform (.write .word cmdAddr w) s = exec c s := by
  simp [perform, issue, h]

/-- Settles O5: the step performs the write, which issues the word. -/
theorem stepRunsTheWrittenCommand : Obligations.StepRunsTheWrittenCommand := by
  intro s w rest c hr hp hd
  rw [step_of_pending hr hp, perform_command hd]

/-- Settles O6: `withFetchWord` queues the encoded word first, which decodes to the command (O1). -/
theorem fetchedWordRunsNext : Obligations.FetchedWordRunsNext := by
  intro s c hr
  have hword : BitVec.ofNat 32 ((encode c).toNat % 2 ^ 32) = encode c := by
    rw [Nat.mod_eq_of_lt (encode c).isLt, BitVec.ofNat_toNat, BitVec.setWidth_eq]
  have hpending : (s.withFetchWord 32 (encode c).toNat).pending = .write .word cmdAddr (encode c) :: s.pending := by
    rw [State.withFetchWord, hword]
  rw [step_of_pending (s := s.withFetchWord 32 (encode c).toNat) hr hpending,
    perform_command (decodeOfEncodeIsIdentity c)]
  rfl

/-- Settles O7: with an empty queue the step performs no access. -/
theorem blockWaitsForTheHost : Obligations.BlockWaitsForTheHost := by
  intro s hr hp
  obtain ⟨hm, -⟩ | ⟨-, -, he⟩ | ⟨-, x, rest, hq, -⟩ := step_cases s
  · simp [hr] at hm
  · exact he
  · simp [hp] at hq

end Sys2Proof.Machine
end

section
/-! Every command and every host access keeps the state invariant (10_state.md R20 to R45). -/

namespace Sys2Proof.Machine

/-! ### Fields the invariant does not speak of, and the result groups -/

/-- `RESULT`, `PKT_LEN`, the queue and the value last read are not in the invariant. -/
theorem StateWf.withHostFields {s : State} (h : StateWf s) (r : Result) (len : Byte) (q : List HostAccess)
    (d : Word) : StateWf { s with result := r, pktLen := len, pending := q, readData := d } :=
  { h with }

theorem StateWf.setResult {s : State} (h : StateWf s) (c : ResultCode) (n f : Bool) (i : Option InstId) :
    StateWf (s.setResult c n f i) :=
  h.withHostFields _ s.pktLen s.pending s.readData

theorem StateWf.raiseIllegal {s : State} (h : StateWf s) (i : Option InstId) : StateWf (s.raiseIllegal i) :=
  h.setResult ..

theorem StateWf.withGroups {s : State} (h : StateWf s) {g : HdrGroup} {a : AfGroup} {q : PeshGroup} (hg : HdrWf g)
    (ha : AfWf a) (hq : PeshWf q) : StateWf { s with hdr := g, af := a, pesh := q } :=
  { h with hdr := hg, af := ha, pesh := hq }

theorem notRun_afWf : AfWf (.zero .notRun) := afZero_wf (by simp)

theorem notRun_peshWf : PeshWf (.zero .notRun) := peshZero_wf (by simp)

theorem StateWf.packetDropped {s : State} (h : StateWf s) {g : HdrGroup} (hg : HdrWf g) (c : ResultCode) :
    StateWf (s.packetDropped g c) :=
  (h.withGroups hg notRun_afWf notRun_peshWf).setResult ..

/-! ### Instances and sinks -/

theorem StateWf.setInst {s : State} (h : StateWf s) {i : InstId} (hi : i.val < s.params.nAsm) {a : Assembler}
    (ha : AsmWf s.params a) : StateWf (s.setInst i a) where
  params := h.params
  pktCanonical := h.pktCanonical
  pktBound := h.pktBound
  pktDraws := h.pktDraws
  hdr := h.hdr
  af := h.af
  pesh := h.pesh
  sinks := h.sinks
  insts j := by
    rw [inst_setInst]
    split
    · exact ha
    · exact h.insts j
  absent j hj := by
    have hij : i ≠ j := by
      rintro rfl
      exact absurd hi (Nat.not_lt_of_le hj)
    rw [inst_setInst_ne s hij]
    exact h.absent j hj

theorem sinkWrite_sinkWf {s : State} (h : StateWf s) (i : InstId) {bytes : List Byte}
    (hb : bytes.length < Config.woffLimit) (j : InstId) :
    ∀ w ∈ (s.sinkWrite i bytes).sink j, 1 ≤ w.length ∧ w.length < Config.woffLimit := by
  rw [sink_sinkWrite]
  split
  · next hij =>
    intro w hw
    obtain hw | hw := List.mem_append.1 hw
    · exact h.sinks j w hw
    · rw [List.mem_singleton.1 hw]
      exact ⟨List.length_pos_of_ne_nil hij.2, hb⟩
  · exact h.sinks j

theorem StateWf.sinkWrite {s : State} (h : StateWf s) {i : InstId} (hi : i.val < s.params.nAsm)
    {bytes : List Byte} (hb : bytes.length < Config.woffLimit) : StateWf (s.sinkWrite i bytes) where
  params := by simpa using h.params
  pktCanonical := by simpa using h.pktCanonical
  pktBound := by simpa using h.pktBound
  pktDraws := by simpa using h.pktDraws
  hdr := by simpa using h.hdr
  af := by simpa using h.af
  pesh := by simpa using h.pesh
  insts j := by simpa [inst_ext (sinkWrite_insts s i bytes)] using h.insts j
  sinks := sinkWrite_sinkWf h i hb
  absent j hj := by
    rw [sinkWrite_params] at hj
    have hij : i ≠ j := by
      rintro rfl
      exact absurd hi (Nat.not_lt_of_le hj)
    rw [inst_ext (sinkWrite_insts s i bytes), sink_sinkWrite, if_neg fun hx => hij hx.1]
    exact h.absent j hj

/-- Draws are only ever taken, so the packet's stay taken (20_memory.md R64, R65). -/
theorem StateWf.withDraws {s : State} (h : StateWf s) {d : Nat} (hd : s.draws ≤ d) : StateWf { s with draws := d } :=
  { h with pktDraws := h.pktDraws.trans hd }

/-- One absorb step of an active instance keeps the invariant (43_pes_assembler.md R204, R220). -/
theorem StateWf.commit {s : State} (h : StateWf s) {i : InstId} (hi : i.val < s.params.nAsm)
    (ha : (s.inst i).active = true) {o : AbsorbOut} (ho : s.absorb i = some o) : StateWf (s.commit i o) := by
  have hw := absorb_wf (h.insts i) ha ho
  have hset := (h.setInst hi hw.asm).sinkWrite (i := i) hi (bytes := o.sink) hw.sink
  exact hset.withDraws (by simp)

/-- The absorb steps of the instances in an ascending list keep it together (44_packet_process.md R252). -/
theorem StateWf.absorbEach {s t : State} (h : StateWf s) {L : List InstId} (hL : L.Pairwise (· < ·))
    (hm : ∀ i ∈ L, i.val < s.params.nAsm ∧ (s.inst i).active = true) (ht : s.absorbEach L = some t) : StateWf t :=
  absorbEach_induct (P := StateWf) (fun _ _ _ hs hi ha ho => hs.commit hi ha ho) hL h hm ht

/-- Writing the groups and `RESULT` of an absorb step (R204). -/
theorem StateWf.reported {s : State} (h : StateWf s) {p : Params} {a : Assembler} {o : AbsorbOut}
    (ho : AbsorbOutWf p a o) (i : InstId) :
    StateWf ((s.setGroups o).setResult o.code o.ntc o.flushed (some i)) :=
  (h.withGroups ho.hdr ho.af ho.pesh).setResult ..

/-! ### The commands -/

theorem execTshDecode_wf {s t : State} (h : StateWf s) (he : execTshDecode s = .next t) : StateWf t := by
  obtain ⟨-, e⟩ | ⟨-, e⟩ := execTshDecode_cases s <;> rw [e] at he <;> cases he
  · exact h.raiseIllegal none
  · exact (h.withGroups (tshDecode_wf ..) h.af h.pesh).setResult ..

theorem execAfDecode_wf {s t : State} (h : StateWf s) (he : execAfDecode s = .next t) : StateWf t := by
  obtain ⟨-, e⟩ | ⟨hfits, e⟩ := execAfDecode_cases s <;> rw [e] at he <;> cases he
  · exact h.raiseIllegal none
  · exact (h.withGroups h.hdr (afDecode_wf _ hfits) h.pesh).setResult ..

theorem execPeshDecode_wf {s t : State} {ofs : Byte} (h : StateWf s) (he : execPeshDecode ofs s = .next t) :
    StateWf t := by
  obtain ⟨-, e⟩ | ⟨-, e⟩ := execPeshDecode_cases ofs s <;> rw [e] at he <;> cases he
  · exact h.raiseIllegal none
  · exact (h.withGroups h.hdr h.af (peshDecode_wf ..)).setResult ..

theorem execAsmInit_wf {s t : State} {i : InstId} {pid : Pid} (h : StateWf s) (he : execAsmInit i pid s = .next t) :
    StateWf t := by
  obtain ⟨-, e⟩ | ⟨hi, e⟩ := execAsmInit_cases i pid s <;> rw [e] at he <;> cases he
  · exact h.raiseIllegal _
  · exact (h.setInst hi (init_asmWf _ _)).setResult ..

theorem execAsmRelease_wf {s t : State} {i : InstId} (h : StateWf s) (he : execAsmRelease i s = .next t) :
    StateWf t := by
  obtain ⟨-, e⟩ | ⟨hi, -, e⟩ := execAsmRelease_cases i s <;> rw [e] at he <;> cases he
  · exact h.raiseIllegal _
  · exact (h.setInst hi (reset_asmWf _)).setResult ..

theorem execAsmAbsorb_wf {s t : State} {i : InstId} (h : StateWf s) (he : execAsmAbsorb i s = .next t) :
    StateWf t := by
  obtain ⟨-, e⟩ | ⟨-, -, e⟩ | ⟨-, -, e⟩ | ⟨hen, o, ho, e⟩ := execAsmAbsorb_cases i s <;> rw [e] at he <;> cases he
  · exact h.raiseIllegal _
  · exact h.raiseIllegal _
  · exact (h.commit hen.inst hen.active ho).reported (absorb_wf (h.insts i) hen.active ho) i

/-- The matching instances exist and are active, so their absorb steps keep the invariant (R250). -/
theorem absorbEach_matching_wf {s t : State} (h : StateWf s) {pid : Pid}
    (ht : s.absorbEach (s.matching pid) = some t) : StateWf t :=
  h.absorbEach (matching_ascending s pid)
    (fun _ hi => ⟨(mem_matching.1 hi).1, (mem_matching.1 hi).2.1⟩) ht

theorem execPktProcess_wf {s t : State} (h : StateWf s) (he : execPktProcess s = .next t) : StateWf t := by
  obtain ⟨-, e⟩ | ⟨-, e⟩ | ⟨-, -, -, e⟩ | ⟨-, -, -, -, e⟩ |
    ⟨-, -, -, j, rest, hm, ⟨-, e⟩ | ⟨o, u, ho, hu, e⟩⟩ := execPktProcess_cases s <;> rw [e] at he <;> cases he
  · exact h.raiseIllegal _
  · exact h.packetDropped (hdrZero_wf _ (.inl rfl)) _
  · exact h.packetDropped (tshDecode_wf ..) _
  · exact h.packetDropped (tshDecode_wf ..) _
  · have hj : Matches s j := mem_matching_header.1 (by simp [hm])
    exact (absorbEach_matching_wf h (hm ▸ hu)).reported (absorb_wf (h.insts j) hj.active ho) j

theorem exec_wf {c : Instr} {s t : State} (h : StateWf s) (he : exec c s = .next t) : StateWf t := by
  cases c with
  | tshDecode => exact execTshDecode_wf h he
  | afDecode => exact execAfDecode_wf h he
  | peshDecode ofs => exact execPeshDecode_wf h he
  | asmInit i pid => exact execAsmInit_wf h he
  | asmAbsorb i => exact execAsmAbsorb_wf h he
  | asmRelease i => exact execAsmRelease_wf h he
  | pktProcess => exact execPktProcess_wf h he

/-! ### Host accesses and reset -/

theorem StateWf.writePkt {s : State} (h : StateWf s) {k : Nat} (hk : k < 188) (b : Byte) : StateWf (s.writePkt k b) :=
  { h with
    pktCanonical := write_wf h.pktCanonical k b
    pktBound := writeRun_below h.pktBound hk }

theorem StateWf.hostStore {s : State} (h : StateWf s) (width : Width) (addr : Nat) (data : Word) :
    StateWf (s.hostStore width addr data) := by
  obtain e | ⟨-, -, e⟩ | ⟨-, k, hk, -, e⟩ := hostStore_cases s width addr data <;> rw [e]
  · exact h
  · exact h.withHostFields s.result _ s.pending s.readData
  · exact h.writePkt hk _

/-- The registers reset leaves, with any parameters, sinks and draws that meet the invariant (R47, R300). -/
theorem StateWf.hostReset {s : State} (h : StateWf s) : StateWf s.hostReset where
  params := h.params
  pktCanonical := List.Pairwise.nil
  pktBound := by simp [Memory.below]
  pktDraws := by simp
  hdr := hdrZero_wf _ (.inr rfl)
  af := notRun_afWf
  pesh := notRun_peshWf
  insts i := by
    rw [hostReset_inst]
    exact reset_asmWf _
  sinks := h.sinks
  absent i hi := ⟨hostReset_inst s i, (h.absent i hi).2⟩

theorem issue_wf {w : Word} {s t : State} (h : StateWf s) (he : issue w s = .next t) : StateWf t := by
  obtain ⟨_, -, e⟩ | ⟨c, -, e⟩ := issue_cases w s <;> rw [e] at he
  · cases he
    exact h.raiseIllegal none
  · exact exec_wf h he

theorem perform_wf {x : HostAccess} {s t : State} (h : StateWf s) (he : perform x s = .next t) : StateWf t := by
  obtain ⟨w, -, e⟩ | ⟨width, addr, data, -, -, e⟩ | ⟨width, addr, -, e⟩ | ⟨-, e⟩ := perform_cases x s <;> rw [e] at he
  · exact issue_wf h he
  · cases he
    exact h.hostStore width addr data
  · cases he
    exact h.withHostFields s.result s.pktLen s.pending _
  · cases he
    exact h.hostReset

/-- Settles O51: the block waits, or performs the oldest access on the state with it taken off the queue. -/
theorem stepKeepsInvariant : Obligations.StepKeepsInvariant := by
  intro s t h he
  obtain ⟨-, e⟩ | ⟨-, -, e⟩ | ⟨-, x, rest, -, e⟩ := step_cases s <;> rw [e] at he
  · cases he
  · cases he
    exact h
  · exact perform_wf (h.withHostFields s.result s.pktLen rest s.readData) he

/-- Reset with legal parameters meets the invariant (R47). -/
theorem resetWith_wf {p : Params} (hp : p.legal) : StateWf (State.resetWith p) where
  params := hp
  pktCanonical := List.Pairwise.nil
  pktBound := by simp [State.resetWith, Memory.below]
  pktDraws := by simp [State.resetWith]
  hdr := hdrZero_wf _ (.inr rfl)
  af := notRun_afWf
  pesh := notRun_peshWf
  insts i := by
    rw [resetWith_inst]
    exact reset_asmWf _
  sinks i w hw := by simp at hw
  absent i _ := ⟨resetWith_inst p i, resetWith_sink p i⟩

/-- Settles O52: `State.reset` is the case of log entry 1's parameters. -/
theorem resetMeetsInvariant : Obligations.ResetMeetsInvariant := by
  have hgood (p : Params) (hp : p.legal) : Good (State.resetWith p) := ⟨resetWith_wf hp, rfl⟩
  exact ⟨hgood, hgood Params.ofVectors (by decide)⟩

end Sys2Proof.Machine
end

section
/-! The header fields as bits of the four header bytes (30_encoding.md R84, 40_ts_header.md R123, R124). -/

namespace Sys2Proof.Machine

theorem tshDecode_word {p : Packet} {n : Nat} (h : 4 ≤ n) :
    (tshDecode p n).word = p.byte 0 ++ p.byte 1 ++ p.byte 2 ++ p.byte 3 :=
  (hdrPid_after_tshDecode h).trans (headerWord_eq_bytes p)

/-- Where bit `k` of four bytes, one after the other, comes from. -/
theorem getLsbD_fourBytes (a b c d : Byte) (k : Nat) :
    (a ++ b ++ c ++ d).getLsbD k =
      if k < 8 then d.getLsbD k
      else if k < 16 then c.getLsbD (k - 8)
      else if k < 24 then b.getLsbD (k - 16)
      else a.getLsbD (k - 24) := by
  rw [BitVec.getLsbD_append, BitVec.getLsbD_append, BitVec.getLsbD_append, Nat.sub_sub, Nat.sub_sub]
  by_cases h0 : k < 8
  · simp [h0]
  by_cases h1 : k < 16
  · simp [h0, h1, show k - 8 < 8 by omega]
  by_cases h2 : k < 24
  · simp [h0, h1, h2, show ¬ k - 8 < 8 by omega, show k - 16 < 8 by omega]
  · simp [h0, h1, h2, show ¬ k - 8 < 8 by omega, show ¬ k - 16 < 8 by omega]

@[simp] theorem hdrTei_append (a b c d : Byte) : hdrTei (a ++ b ++ c ++ d) = b.getLsbD 7 := by
  rw [hdrTei, getLsbD_fourBytes]
  rfl

@[simp] theorem hdrPusi_append (a b c d : Byte) : hdrPusi (a ++ b ++ c ++ d) = b.getLsbD 6 := by
  rw [hdrPusi, getLsbD_fourBytes]
  rfl

@[simp] theorem hdrTp_append (a b c d : Byte) : hdrTp (a ++ b ++ c ++ d) = b.getLsbD 5 := by
  rw [hdrTp, getLsbD_fourBytes]
  rfl

@[simp] theorem hdrPid_append (a b c d : Byte) : hdrPid (a ++ b ++ c ++ d) = b.extractLsb' 0 5 ++ c := by
  apply BitVec.eq_of_getLsbD_eq
  intro k hk
  rw [hdrPid, BitVec.getLsbD_extractLsb', getLsbD_fourBytes, BitVec.getLsbD_append, BitVec.getLsbD_extractLsb']
  by_cases h : k < 8
  · simp [h, hk, show 8 + k < 16 by omega]
  · simp [h, hk, show ¬ 8 + k < 16 by omega, show 8 + k < 24 by omega, show k - 8 < 5 by omega,
      show 8 + k - 16 = k - 8 by omega]

/-- A field inside the last byte. -/
theorem extractLsb'_fourBytes_low (a b c d : Byte) {lo len : Nat} (h : lo + len ≤ 8) :
    (a ++ b ++ c ++ d).extractLsb' lo len = d.extractLsb' lo len :=
  BitVec.extractLsb'_append_eq_of_add_le h

@[simp] theorem hdrTsc_append (a b c d : Byte) : hdrTsc (a ++ b ++ c ++ d) = d.extractLsb' 6 2 :=
  extractLsb'_fourBytes_low a b c d (by decide)

@[simp] theorem hdrAfc_append (a b c d : Byte) : hdrAfc (a ++ b ++ c ++ d) = d.extractLsb' 4 2 :=
  extractLsb'_fourBytes_low a b c d (by decide)

@[simp] theorem hdrCc_append (a b c d : Byte) : hdrCc (a ++ b ++ c ++ d) = d.extractLsb' 0 4 :=
  extractLsb'_fourBytes_low a b c d (by decide)

/-- Settles O9: the word is the four bytes, and each field of four bytes is R84's bits of them. -/
theorem headerFieldsAreTheirBits : Obligations.HeaderFieldsAreTheirBits := by
  intro p n hn
  refine ⟨?word, ?_⟩
  case word => rw [hdrPid_after_tshDecode hn, field_header_toNat]
  simp only [tshDecode_word hn]
  exact ⟨hdrSync_append .., hdrTei_append .., hdrPusi_append .., hdrTp_append .., hdrPid_append ..,
    hdrTsc_append .., hdrAfc_append .., hdrCc_append ..⟩

/-- Bits `lo` to `lo + len - 1` of a byte are a number. -/
theorem extractLsb'_eq_of_toNat {x y : Byte} {lo len : Nat}
    (h : x.toNat / 2 ^ lo % 2 ^ len = y.toNat / 2 ^ lo % 2 ^ len) : x.extractLsb' lo len = y.extractLsb' lo len := by
  apply BitVec.eq_of_toNat_eq
  simpa [BitVec.extractLsb'_toNat, Nat.shiftRight_eq_div_pow] using h

theorem getLsbD_eq_of_toNat {x y : Byte} {k : Nat} (h : x.toNat / 2 ^ k % 2 = y.toNat / 2 ^ k % 2) :
    x.getLsbD k = y.getLsbD k := by
  simp [BitVec.getLsbD, Nat.testBit_eq_decide_div_mod_eq, h]

/-- Settles O10: each field, as its own bits of the bytes, is the same when those bits are. -/
theorem headerFieldIsolation : Obligations.HeaderFieldIsolation := by
  intro p q n hn
  simp only [tshDecode_word hn, hdrCc_append, hdrAfc_append, hdrTsc_append, hdrPid_append, hdrTp_append,
    hdrPusi_append, hdrTei_append, hdrSync_append]
  refine ⟨fun h => extractLsb'_eq_of_toNat ?_, fun h => extractLsb'_eq_of_toNat h,
    fun h => extractLsb'_eq_of_toNat ?_, fun h hb => ?_, fun h => getLsbD_eq_of_toNat h,
    fun h => getLsbD_eq_of_toNat h, fun h => getLsbD_eq_of_toNat ?_, id⟩
  · omega
  · omega
  · rw [hb, extractLsb'_eq_of_toNat (x := p.byte 1) (y := q.byte 1) (by omega)]
  · omega

/-- A word cut into R84's eight fields and put together again (R124). -/
theorem packHdr_fields (w : Word) :
    packHdr (hdrSync w) (hdrTei w) (hdrPusi w) (hdrTp w) (hdrPid w) (hdrTsc w) (hdrAfc w) (hdrCc w) = w := by
  apply BitVec.eq_of_getLsbD_eq
  intro k hk
  simp only [packHdr, hdrSync, hdrTei, hdrPusi, hdrTp, hdrPid, hdrTsc, hdrAfc, hdrCc, BitVec.getLsbD_append,
    BitVec.getLsbD_extractLsb', BitVec.getLsbD_ofBool]
  interval_cases k <;> simp

theorem shifted_fields_or (sync : Byte) (tei pusi tp : Bool) (pid : Pid) (tsc afc : BitVec 2) (cc : BitVec 4) :
    sync.setWidth 32 <<< 24 ||| (BitVec.ofBool tei).setWidth 32 <<< 23 |||
      (BitVec.ofBool pusi).setWidth 32 <<< 22 ||| (BitVec.ofBool tp).setWidth 32 <<< 21 |||
      pid.setWidth 32 <<< 8 ||| tsc.setWidth 32 <<< 6 ||| afc.setWidth 32 <<< 4 ||| cc.setWidth 32 =
    packHdr sync tei pusi tp pid tsc afc cc := by
  apply BitVec.eq_of_getLsbD_eq
  intro k hk
  simp only [packHdr, BitVec.getLsbD_append, BitVec.getLsbD_or, BitVec.getLsbD_shiftLeft, BitVec.getLsbD_setWidth,
    BitVec.getLsbD_ofBool]
  interval_cases k <;> simp

/-- Settles O11: shifting into place is packing, and packing the fields of a word gives the word. -/
theorem headerRoundTrip : Obligations.HeaderRoundTrip := fun _ _ hn =>
  ⟨(shifted_fields_or ..).trans (packHdr_fields _), packHdr_fields _, tshDecode_word hn⟩

end Sys2Proof.Machine
end

section
/-! The adaptation-field decode in closed form (41_adaptation_field.md R141 to R147). -/

namespace Sys2Proof.Machine

/-! ### Truncation (R142) -/

theorem afBody_status {p : Packet} {len : Byte} {g : AfGroup} (h : afBody p len = some g) : g.status = .ok := by
  obtain ⟨c, hc, rfl⟩ := afBody_eq_some h
  exact hc.status

/-- Past the truncation checks the decode succeeds or is malformed (R143). -/
theorem afDecode_body {p : Packet} {n : Nat} (hf : (p.byte 3).getLsbD 5 = true) (hn : 5 + (p.byte 4).toNat ≤ n) :
    afDecode p n = (afBody p (p.byte 4)).getD (.zero .malformedField) := by
  obtain ⟨hshort, -⟩ | ⟨-, hno, -⟩ | ⟨-, -, hcut, -⟩ | ⟨-, -, e⟩ := afDecode_cases p n
  · omega
  · simp only [afcHasField_afc, hf, Bool.true_eq_false] at hno
  · omega
  · exact e

theorem afDecode_truncated {p : Packet} {n : Nat}
    (h : n < 4 ∨ (p.byte 3).getLsbD 5 = true ∧ n < 5 + (p.byte 4).toNat) :
    afDecode p n = .zero .truncatedInput := by
  obtain ⟨-, e⟩ | ⟨hle, hno, -⟩ | ⟨-, -, -, e⟩ | ⟨-, hle, -⟩ := afDecode_cases p n
  · exact e
  · rw [afcHasField_afc] at hno
    obtain h | ⟨hf, -⟩ := h
    · omega
    · exact absurd hf (by rw [hno]; decide)
  · exact e
  · omega

/-- The status says which check ended the decode (R140, R142, R143). -/
theorem afDecode_status_truncated_iff {p : Packet} {n : Nat} :
    (afDecode p n).status = .truncatedInput ↔
      n < 4 ∨ (p.byte 3).getLsbD 5 = true ∧ n < 5 + (p.byte 4).toNat := by
  refine ⟨fun h => ?_, fun h => by rw [afDecode_truncated h]; rfl⟩
  obtain ⟨hshort, -⟩ | ⟨-, -, e⟩ | ⟨-, hf, hcut, -⟩ | ⟨-, -, e⟩ := afDecode_cases p n
  · exact .inl hshort
  · rw [e] at h
    cases h
  · exact .inr ⟨by rwa [afcHasField_afc] at hf, hcut⟩
  · rw [e] at h
    cases hb : afBody p (p.byte 4) with
    | none => simp [hb, AfGroup.zero] at h
    | some g => simp [hb, afBody_status hb] at h

/-- Settles O14: R142's second case is part of its third, as a length byte is at least 0. -/
theorem afTruncationExactly : Obligations.AfTruncationExactly := by
  intro p n
  refine ⟨afDecode_status_truncated_iff.trans ?cases,
    fun h => afDecode_truncated (afDecode_status_truncated_iff.1 h), fun hf => ?full⟩
  case cases => exact or_congr_right (and_congr_right fun _ => by omega)
  case full =>
    rw [afDecode_status_truncated_iff]
    simp only [hf, true_and]
    omega

/-! ### Where the sub-fields stand (30_encoding.md R86) -/

/-- Where the present sub-fields end: R144's claim, which counts from the length byte at offset 4 less its own byte. -/
theorem afClaimed_add_four (p : Packet) :
    afClaimed p + 4 =
      afExtensionAt p + (1 + (p.byte (afExtensionAt p)).toNat) * ((p.byte 5).getLsbD 0).toNat := by
  simp only [afClaimed, afExtensionAt, afPrivateAt, afSpliceAt]
  omega

/-- The offset of OPCR, after a PCR (R86). -/
def afOpcrAt (p : Packet) : Nat := 6 + 6 * ((p.byte 5).getLsbD 4).toNat

theorem afOpcrAt_eq (p : Packet) : afOpcrAt p = if (p.byte 5).getLsbD 4 then 12 else 6 := by
  unfold afOpcrAt
  cases (p.byte 5).getLsbD 4 <;> rfl

/-- The group R141 reads from a field whose sub-fields all fit. -/
def afReported (p : Packet) (len : Byte) : AfGroup :=
  let f := p.byte 5
  let v := p.field 6 6 48
  let o := p.field (afOpcrAt p) 6 48
  { status := .ok
    length := len
    flags := f
    pcrBase := if f.getLsbD 4 then clockBase v else 0
    pcrExt := if f.getLsbD 4 then clockExt v else 0
    pcrTime := if f.getLsbD 4 then clockTime (clockBase v) (clockExt v) else 0
    opcrBase := if f.getLsbD 3 then clockBase o else 0
    opcrExt := if f.getLsbD 3 then clockExt o else 0
    opcrTime := if f.getLsbD 3 then clockTime (clockBase o) (clockExt o) else 0
    spliceCd := if f.getLsbD 2 then p.byte (afSpliceAt p) else 0
    privLen := if f.getLsbD 1 then p.byte (afPrivateAt p) else 0
    extLen := if f.getLsbD 0 then p.byte (afExtensionAt p) else 0
    stuffing := BitVec.ofNat 8 (len.toNat + 1 - afClaimed p)
    consumed := BitVec.ofNat 9 (len.toNat + 1) }

/-! ### The sub-fields one after the other (R141) -/

theorem pcrRead_eq (p : Packet) (c : AfCursor) :
    pcrRead p c =
      let v := p.field c.pos 6 48
      { c.grp with
        pcrBase := if afPcrf c.grp.flags then clockBase v else c.grp.pcrBase
        pcrExt := if afPcrf c.grp.flags then clockExt v else c.grp.pcrExt
        pcrTime := if afPcrf c.grp.flags then clockTime (clockBase v) (clockExt v) else c.grp.pcrTime } := by
  unfold pcrRead
  cases afPcrf c.grp.flags <;> rfl

theorem opcrRead_eq (p : Packet) (c : AfCursor) :
    opcrRead p c =
      let v := p.field c.pos 6 48
      { c.grp with
        opcrBase := if afOpcrf c.grp.flags then clockBase v else c.grp.opcrBase
        opcrExt := if afOpcrf c.grp.flags then clockExt v else c.grp.opcrExt
        opcrTime := if afOpcrf c.grp.flags then clockTime (clockBase v) (clockExt v) else c.grp.opcrTime } := by
  unfold opcrRead
  cases afOpcrf c.grp.flags <;> rfl

theorem spliceRead_eq (p : Packet) (c : AfCursor) :
    spliceRead p c =
      { c.grp with spliceCd := if afSpf c.grp.flags then p.byte c.pos else c.grp.spliceCd } := by
  unfold spliceRead
  cases afSpf c.grp.flags <;> rfl

theorem privateRead_eq (p : Packet) (c : AfCursor) :
    privateRead p c = { c.grp with privLen := if afTpdf c.grp.flags then p.byte c.pos else c.grp.privLen } := by
  unfold privateRead
  cases afTpdf c.grp.flags <;> rfl

theorem extensionRead_eq (p : Packet) (c : AfCursor) :
    extensionRead p c = { c.grp with extLen := if afExtf c.grp.flags then p.byte c.pos else c.grp.extLen } := by
  unfold extensionRead
  cases afExtf c.grp.flags <;> rfl

/-- The cursor after the flags byte. -/
def afterFlags (p : Packet) (len : Byte) : AfCursor := ⟨6, { AfGroup.zero .ok with length := len, flags := p.byte 5 }⟩

/-- The cursor after the PCR. -/
def afterPcr (p : Packet) (len : Byte) : AfCursor := ⟨afOpcrAt p, pcrRead p (afterFlags p len)⟩

/-- The cursor after the OPCR. -/
def afterOpcr (p : Packet) (len : Byte) : AfCursor := ⟨afSpliceAt p, opcrRead p (afterPcr p len)⟩

/-- The cursor after the splice countdown. -/
def afterSplice (p : Packet) (len : Byte) : AfCursor := ⟨afPrivateAt p, spliceRead p (afterOpcr p len)⟩

/-- The cursor after the private data. -/
def afterPrivate (p : Packet) (len : Byte) : AfCursor := ⟨afExtensionAt p, privateRead p (afterSplice p len)⟩

/-- The cursor after the extension, where the stuffing begins. -/
def afterExtension (p : Packet) (len : Byte) : AfCursor :=
  ⟨afClaimed p + 4, extensionRead p (afterPrivate p len)⟩

theorem afterExtension_reported (p : Packet) (len : Byte) :
    { (afterExtension p len).grp with
      stuffing := BitVec.ofNat 8 (len.toNat + 1 - afClaimed p)
      consumed := BitVec.ofNat 9 (len.toNat + 1) } = afReported p len := by
  simp only [afterExtension, extensionRead_eq, afterPrivate, privateRead_eq, afterSplice, spliceRead_eq, afterOpcr,
    opcrRead_eq, afterPcr, pcrRead_eq, afterFlags]
  rfl

@[simp] theorem afterFlags_flags (p : Packet) (len : Byte) : (afterFlags p len).grp.flags = p.byte 5 := rfl
@[simp] theorem afterPcr_flags (p : Packet) (len : Byte) : (afterPcr p len).grp.flags = p.byte 5 := by simp [afterPcr]
@[simp] theorem afterOpcr_flags (p : Packet) (len : Byte) : (afterOpcr p len).grp.flags = p.byte 5 := by
  simp [afterOpcr]
@[simp] theorem afterSplice_flags (p : Packet) (len : Byte) : (afterSplice p len).grp.flags = p.byte 5 := by
  simp [afterSplice]
@[simp] theorem afterPrivate_flags (p : Packet) (len : Byte) : (afterPrivate p len).grp.flags = p.byte 5 := by
  simp [afterPrivate]

theorem takeFlags_eq (p : Packet) (len : Byte) :
    takeFlags p len = if 5 + len.toNat < 6 then none else some (afterFlags p len) := by
  unfold takeFlags
  by_cases h : 1 ≤ len.toNat
  · rw [if_pos h, if_neg (by omega)]
    rfl
  · rw [if_neg h, if_pos (by omega)]

theorem takePcr_afterFlags {p : Packet} {len : Byte} {fin : Nat} (h : 6 ≤ fin) :
    takePcr p fin (afterFlags p len) = if fin < afOpcrAt p then none else some (afterPcr p len) :=
  takePcr_eq h

theorem takeOpcr_afterPcr {p : Packet} {len : Byte} {fin : Nat} (h : afOpcrAt p ≤ fin) :
    takeOpcr p fin (afterPcr p len) = if fin < afSpliceAt p then none else some (afterOpcr p len) := by
  rw [takeOpcr_eq h, afterPcr_flags]
  rfl

theorem takeSplice_afterOpcr {p : Packet} {len : Byte} {fin : Nat} (h : afSpliceAt p ≤ fin) :
    takeSplice p fin (afterOpcr p len) = if fin < afPrivateAt p then none else some (afterSplice p len) := by
  rw [takeSplice_eq h, afterOpcr_flags]
  rfl

theorem takePrivate_afterSplice {p : Packet} {len : Byte} {fin : Nat} (h : afPrivateAt p ≤ fin) :
    takePrivate p fin (afterSplice p len) = if fin < afExtensionAt p then none else some (afterPrivate p len) := by
  rw [takePrivate_eq h, afterSplice_flags]
  rfl

theorem takeExtension_afterPrivate {p : Packet} {len : Byte} {fin : Nat} (h : afExtensionAt p ≤ fin) :
    takeExtension p fin (afterPrivate p len) =
      if fin < afClaimed p + 4 then none else some (afterExtension p len) := by
  rw [takeExtension_eq h, afterPrivate_flags, afterExtension, afClaimed_add_four]
  rfl

/-- A sub-field read after one that has to fit: both fit when the later one ends in time. -/
theorem bind_fits {α β : Type} {fin a b : Nat} {c : α} {d : β} {f : α → Option β} (hab : a ≤ b)
    (hf : a ≤ fin → f c = if fin < b then none else some d) :
    (if fin < a then none else some c).bind f = if fin < b then none else some d := by
  by_cases h : fin < a
  · rw [if_pos h, if_pos (by omega)]
    rfl
  · rw [if_neg h]
    exact hf (by omega)

/-- A field decodes exactly when its sub-fields' claim fits its length (R143, R144). -/
theorem afBody_eq (p : Packet) (len : Byte) :
    afBody p len = if len.toNat + 1 < afClaimed p then none else some (afReported p len) := by
  have hpcr : 6 ≤ afOpcrAt p := Nat.le_add_right ..
  have hopcr : afOpcrAt p ≤ afSpliceAt p := Nat.le_add_right ..
  have hsplice : afSpliceAt p ≤ afPrivateAt p := Nat.le_add_right ..
  have hprivate : afPrivateAt p ≤ afExtensionAt p := Nat.le_add_right ..
  have hend : afExtensionAt p ≤ afClaimed p + 4 := by rw [afClaimed_add_four]; exact Nat.le_add_right ..
  unfold afBody
  simp only []
  rw [takeFlags_eq, bind_fits hpcr takePcr_afterFlags, bind_fits hopcr takeOpcr_afterPcr,
    bind_fits hsplice takeSplice_afterOpcr, bind_fits hprivate takePrivate_afterSplice,
    bind_fits hend takeExtension_afterPrivate]
  by_cases h : len.toNat + 1 < afClaimed p
  · rw [if_pos h, if_pos (by omega)]
    rfl
  · rw [if_neg h, if_neg (by omega), Option.map_some, ← afterExtension_reported,
      show 5 + len.toNat - (afterExtension p len).pos = len.toNat + 1 - afClaimed p by
        simp only [afterExtension]; omega]

/-- The length and flags bytes are always claimed (R144). -/
theorem two_le_afClaimed (p : Packet) : 2 ≤ afClaimed p := by
  simp only [afClaimed]
  omega

/-! ### Settled statements -/

/-- Settles O15: the field decodes exactly when its claim fits, and the flags byte alone claims two bytes. -/
theorem afMalformedIffStuffingNegative : Obligations.AfMalformedIffStuffingNegative := by
  intro p n _ hf hn
  have hdecode := afDecode_body hf hn
  rw [afBody_eq] at hdecode
  by_cases h : (p.byte 4).toNat + 1 < afClaimed p
  · rw [if_pos h] at hdecode
    rw [hdecode]
    exact ⟨iff_of_true rfl h, fun _ => rfl, fun hne => absurd rfl hne, fun _ => rfl⟩
  · rw [if_neg h] at hdecode
    rw [hdecode]
    refine ⟨iff_of_false (by simp [afReported]) h, by simp [afReported], fun _ => rfl, fun hzero => absurd ?empty h⟩
    case empty =>
      rw [hzero]
      exact two_le_afClaimed p

/-- A decode that succeeds reports the sub-fields of R141 and claims no more than the field has (R143). -/
theorem afDecode_of_ok {p : Packet} {n : Nat} (h : (afDecode p n).status = .ok) :
    afDecode p n = afReported p (p.byte 4) ∧ 5 + (p.byte 4).toNat ≤ n ∧ afClaimed p ≤ (p.byte 4).toNat + 1 := by
  obtain ⟨hf, -, hn, -⟩ := afDecode_ok h
  have hdecode := afDecode_body (by rwa [afcHasField_afc] at hf) hn
  rw [afBody_eq] at hdecode
  by_cases hbad : (p.byte 4).toNat + 1 < afClaimed p
  · rw [hdecode, if_pos hbad] at h
    cases h
  · rw [if_neg hbad] at hdecode
    exact ⟨hdecode, hn, by omega⟩

/-- A length that is reported only with its flag, counted with it. -/
theorem flagged_length {f : Bool} {b : Byte} :
    (1 + (if f then b else 0).toNat) * f.toNat = (1 + b.toNat) * f.toNat := by
  cases f <;> simp

/-- R144's sum over the reported fields is the claim read from the packet. -/
theorem afReported_claimed (p : Packet) (len : Byte) :
    let g := afReported p len
    2 + 6 * (g.flags.getLsbD 4).toNat + 6 * (g.flags.getLsbD 3).toNat + (g.flags.getLsbD 2).toNat +
        (1 + g.privLen.toNat) * (g.flags.getLsbD 1).toNat + (1 + g.extLen.toNat) * (g.flags.getLsbD 0).toNat =
      afClaimed p := by
  simp only [afReported, flagged_length, afClaimed]

/-- Settles O16: the bytes left over are the field's less those its sub-fields claim, the flags byte among them. -/
theorem afStuffingCount : Obligations.AfStuffingCount := by
  intro p n hn hok
  obtain ⟨hdecode, hfits, hclaim⟩ := afDecode_of_ok hok
  have hsum := afReported_claimed p (p.byte 4)
  have hstuffing : (afReported p (p.byte 4)).stuffing.toNat = (p.byte 4).toNat + 1 - afClaimed p := by
    simp only [afReported, BitVec.toNat_ofNat]
    omega
  have hlength : (afReported p (p.byte 4)).length = p.byte 4 := rfl
  have htwo := two_le_afClaimed p
  simp only [hdecode, hlength, hstuffing]
  refine ⟨?_, by omega⟩
  rw [Nat.cast_sub hclaim, ← hsum]
  push_cast
  rfl

theorem clockBase_field_toNat (p : Packet) (off : Nat) :
    (clockBase (p.field off 6 48)).toNat = p.be off 6 / 2 ^ 15 := by
  have hlt := be_lt p off 6
  rw [clockBase, BitVec.extractLsb'_toNat, field_toNat (by decide), Nat.shiftRight_eq_div_pow]
  omega

theorem clockExt_field_toNat (p : Packet) (off : Nat) :
    (clockExt (p.field off 6 48)).toNat = p.be off 6 % 2 ^ 9 := by
  rw [clockExt, BitVec.extractLsb'_toNat, field_toNat (by decide), Nat.shiftRight_zero]

/-- Settles O17: the reported group field by field; its clocks are R89's bits of the six bytes, converted by R90. -/
theorem afClocksAndConsumed : Obligations.AfClocksAndConsumed := by
  intro p n hn hok
  obtain ⟨hdecode, hfits, -⟩ := afDecode_of_ok hok
  have hconsumed : (afReported p (p.byte 4)).consumed.toNat = (p.byte 4).toNat + 1 := by
    simp only [afReported, BitVec.toNat_ofNat]
    omega
  simp only [hdecode, ← afOpcrAt_eq]
  refine ⟨rfl, rfl, hconsumed, ?payload, fun hf => ?pcr, fun hf => ?noPcr, fun hf => ?opcr, fun hf => ?noOpcr, rfl,
    rfl, rfl⟩
  case payload =>
    rw [hconsumed, Nat.add_comm _ 1]
    rfl
  case pcr | opcr =>
    simp only [afReported, hf, if_true, clockTime_toNat, clockBase_field_toNat, clockExt_field_toNat, and_self]
  case noPcr | noOpcr => simp only [afReported, hf, Bool.false_eq_true, if_false, and_self]

end Sys2Proof.Machine
end

section
/-! The PES header decode: what it reports, where it is truncated, and timestamps in bytes (42_pes_header.md R170 to
R177, 30_encoding.md R91 to R95). -/

namespace Sys2Proof.Machine

theorem isExempt_eq_true_iff {b : Byte} :
    isExempt b = true ↔ b ∈ [(0xBC : Byte), 0xBE, 0xBF, 0xF0, 0xF1, 0xF2, 0xF8, 0xFF] :=
  List.contains_iff_mem

theorem isExempt_eq_false_iff {b : Byte} :
    isExempt b = false ↔ b ∉ [(0xBC : Byte), 0xBE, 0xBF, 0xF0, 0xF1, 0xF2, 0xF8, 0xFF] := by
  rw [← isExempt_eq_true_iff, Bool.not_eq_true]

/-! ### The decode by its cases (R170) -/

/-- An exempt stream id needs the prefix only (R172). -/
theorem peshDecode_exempt {p : Packet} {st n : Nat} (hn : 6 ≤ n) (he : isExempt (p.byte (st + 3)) = true) :
    peshDecode p st n = pesPrefix p st := by
  have hlong : ¬ n < Config.pesPrefixLen := Nat.not_lt_of_le hn
  rw [peshDecode, if_neg hlong, if_pos he]

theorem peshDecode_noFlags {p : Packet} {st n : Nat} (hn : n < 9) (he : isExempt (p.byte (st + 3)) = false) :
    peshDecode p st n = .zero .truncatedInput := by
  obtain h6 | h6 := Nat.lt_or_ge n 6
  · exact peshDecode_short h6
  · have hlong : ¬ n < Config.pesPrefixLen := Nat.not_lt_of_le h6
    rw [peshDecode, if_neg hlong, he, if_neg Bool.false_ne_true, if_pos hn]

/-- With the flags there, the decode needs the flagged timestamps, DTS after PTS (R173, R174). -/
theorem peshDecode_flagged {p : Packet} {st n : Nat} (hn : 9 ≤ n) (he : isExempt (p.byte (st + 3)) = false) :
    let flags2 := p.byte (st + 7)
    peshDecode p st n =
      ((timestamp p st n (ptsFlag flags2) 9).bind fun pts =>
        (timestamp p st n (dtsFlag flags2) (dtsOffset (ptsFlag flags2))).map fun dts =>
          pesOptional p st pts dts).getD (.zero .truncatedInput) := by
  have hlong : ¬ n < Config.pesPrefixLen := by simp only [Config.pesPrefixLen]; omega
  simp only [peshDecode, if_neg hlong, he, if_neg Bool.false_ne_true, if_neg (Nat.not_lt_of_le hn)]
  cases timestamp p st n (ptsFlag (p.byte (st + 7))) 9 with
  | none => rfl
  | some pts => cases timestamp p st n (dtsFlag (p.byte (st + 7))) (dtsOffset (ptsFlag (p.byte (st + 7)))) <;> rfl

theorem dtsOffset_eq (ptsF : Bool) : dtsOffset ptsF = 9 + 5 * ptsF.toNat := by
  cases ptsF <;> rfl

/-- The flagged decode misses a timestamp byte (R177). -/
theorem peshDecode_flagged_truncated_iff {p : Packet} {st n : Nat} (hn : 9 ≤ n)
    (he : isExempt (p.byte (st + 3)) = false) :
    (peshDecode p st n).status = .truncatedInput ↔
      ptsFlag (p.byte (st + 7)) = true ∧ n < 14 ∨
        dtsFlag (p.byte (st + 7)) = true ∧ n < 9 + 5 * (ptsFlag (p.byte (st + 7))).toNat + 5 := by
  rw [peshDecode_flagged hn he, ← dtsOffset_eq, ← timestamp_none_iff (p := p) (st := st) (q := 9),
    ← timestamp_none_iff (p := p) (st := st) (flag := dtsFlag _)]
  cases timestamp p st n (ptsFlag (p.byte (st + 7))) 9 with
  | none => simp [PeshGroup.zero]
  | some pts =>
    cases timestamp p st n (dtsFlag (p.byte (st + 7))) (dtsOffset (ptsFlag (p.byte (st + 7)))) with
    | none => simp [PeshGroup.zero]
    | some dts => simp [pesOptional, pesPrefix, PeshGroup.zero]

theorem peshDecode_truncated_iff {p : Packet} {st n : Nat} :
    (peshDecode p st n).status = .truncatedInput ↔
      n < 6 ∨ isExempt (p.byte (st + 3)) = false ∧
        (n < 9 ∨ ptsFlag (p.byte (st + 7)) = true ∧ n < 14 ∨
          dtsFlag (p.byte (st + 7)) = true ∧ n < 9 + 5 * (ptsFlag (p.byte (st + 7))).toNat + 5) := by
  obtain h6 | h6 := Nat.lt_or_ge n 6
  · simp [peshDecode_short h6, PeshGroup.zero, h6]
  cases he : isExempt (p.byte (st + 3)) with
  | true => simp [peshDecode_exempt h6 he, pesPrefix, PeshGroup.zero, Nat.not_lt_of_le h6]
  | false =>
    obtain h9 | h9 := Nat.lt_or_ge n 9
    · simp [peshDecode_noFlags h9 he, PeshGroup.zero, h9]
    · rw [peshDecode_flagged_truncated_iff h9 he]
      simp [Nat.not_lt_of_le h6, Nat.not_lt_of_le h9]

/-! ### The bytes the decode depends on (R177) -/

section

variable {p q : Packet} {st n : Nat} (hbytes : ∀ k, k < n → q.byte (st + k) = p.byte (st + k))
include hbytes

theorem field_congr {off len w : Nat} (hle : off + len ≤ n) : q.field (st + off) len w = p.field (st + off) len w := by
  have hbe : q.be (st + off) len = p.be (st + off) len :=
    be_congr fun k hk => by rw [Nat.add_assoc]; exact hbytes (off + k) (by omega)
  rw [Packet.field, hbe, Packet.field]

theorem timestamp_congr (flag : Bool) (off : Nat) : timestamp q st n flag off = timestamp p st n flag off := by
  unfold timestamp
  by_cases h : n < off + 5
  · simp only [h, if_true]
  · rw [field_congr hbytes (by omega)]

theorem pesPrefix_congr (hn : 6 ≤ n) : pesPrefix q st = pesPrefix p st := by
  have hcode : q.field st 3 24 = p.field st 3 24 := field_congr hbytes (off := 0) (by omega)
  rw [pesPrefix, hcode, hbytes 3 (by omega), field_congr hbytes (by omega), pesPrefix]

theorem pesOptional_congr (hn : 9 ≤ n) (pts dts : BitVec 33) : pesOptional q st pts dts = pesOptional p st pts dts := by
  rw [pesOptional, pesPrefix_congr hbytes (by omega), hbytes 6 (by omega), hbytes 7 (by omega), hbytes 8 (by omega),
    pesOptional]

theorem peshDecode_congr : peshDecode q st n = peshDecode p st n := by
  obtain h6 | h6 := Nat.lt_or_ge n 6
  · rw [peshDecode_short h6, peshDecode_short h6]
  have hid := hbytes 3 (by omega)
  cases he : isExempt (p.byte (st + 3)) with
  | true => rw [peshDecode_exempt h6 (hid ▸ he), peshDecode_exempt h6 he, pesPrefix_congr hbytes h6]
  | false =>
    obtain h9 | h9 := Nat.lt_or_ge n 9
    · rw [peshDecode_noFlags h9 (hid ▸ he), peshDecode_noFlags h9 he]
    · rw [peshDecode_flagged h9 (hid ▸ he), peshDecode_flagged h9 he]
      simp only [hbytes 7 (by omega), timestamp_congr hbytes, pesOptional_congr hbytes h9]

end

/-- Settles O20: the four truncation cases of R177, and bytes at or past `n` that no case reads. -/
theorem pesTruncationExactly : Obligations.PesTruncationExactly := by
  intro p st n
  refine ⟨?cases, fun h => peshDecode_eq_zero (by simp [h]),
    fun h => (peshDecode_status p st n).resolve_right h, fun q hq => peshDecode_congr hq⟩
  case cases =>
    rw [← isExempt_eq_false_iff]
    exact peshDecode_truncated_iff

/-! ### What the decode reports (R171 to R174) -/

theorem pesPrefix_fields (p : Packet) (st : Nat) :
    (pesPrefix p st).startCode.toNat = p.be st 3 ∧ (pesPrefix p st).startOk = decide (p.be st 3 = 1) ∧
      (pesPrefix p st).pktLen.toNat = p.be (st + 4) 2 := by
  have hcode : (p.field st 3 24).toNat = p.be st 3 := field_toNat (by decide)
  refine ⟨hcode, ?_, field_toNat (by decide)⟩
  simp only [pesPrefix, startOkOf, Bool.beq_eq_decide_eq, ← BitVec.toNat_inj, hcode]
  rfl

/-- A flag as R174's mask test. -/
theorem getLsbD_eq_mask {b : Byte} {k : Nat} (hk : k < 8) : b.getLsbD k = decide (b &&& BitVec.twoPow 8 k ≠ 0) := by
  have hpow : BitVec.twoPow 8 k ≠ 0 := by
    intro h
    have hbit := congrArg (·.getLsbD k) h
    simp [hk] at hbit
  rw [BitVec.and_twoPow]
  cases b.getLsbD k <;> simp_all

/-- Settles O19: the prefix in both cases, and by the stream id the prefix alone or the optional fields. -/
theorem pesHeaderFields : Obligations.PesHeaderFields := by
  intro p st n hok
  obtain ⟨hcode, hstart, hlen⟩ := pesPrefix_fields p st
  obtain h | ⟨hn, he, h⟩ | ⟨hn, he, h⟩ := peshDecode_cases p st n
  · rw [h] at hok
    cases hok
  · simp only [h]
    refine ⟨hcode, hstart, rfl, hlen, fun _ => ?_, fun hother => absurd (isExempt_eq_true_iff.1 he) hother⟩
    exact ⟨rfl, rfl, rfl, rfl, rfl, rfl, rfl, rfl, fun m hm => peshDecode_exempt hm he⟩
  · have hhl : (pesOptional p st 0 0).headerLength.toNat = 6 + 3 + (p.byte (st + 8)).toNat := by
      have hb := (p.byte (st + 8)).isLt
      simp only [pesOptional, BitVec.toNat_ofNat]
      omega
    simp only [h]
    refine ⟨hcode, hstart, rfl, hlen, fun hexempt => absurd hexempt (isExempt_eq_false_iff.1 he), fun _ => ?_⟩
    refine ⟨hhl, ?_, ?_, rfl, rfl, rfl, getLsbD_eq_mask (k := 7) (by decide), getLsbD_eq_mask (k := 6) (by decide),
      rfl, ?dts⟩
    case dts =>
      simp only [pesOptional, dtsOffset_eq, ← Nat.add_assoc]
      rfl
    all_goals
      have hb := (p.byte (st + 8)).isLt
      rw [show ∀ pts dts, (pesOptional p st pts dts).headerLength = (pesOptional p st 0 0).headerLength from
        fun _ _ => rfl, hhl]
      omega

/-! ### Timestamps (R175, R95) -/

/-- Two bit fields next to each other, or-ed, are one number. -/
theorem shiftLeft_or_shiftLeft {a b i : Nat} (hb : b < 2 ^ i) (j : Nat) :
    a <<< (i + j) ||| b <<< j = (a * 2 ^ i + b) <<< j := by
  rw [Nat.shiftLeft_add, ← Nat.shiftLeft_or_distrib, ← Nat.shiftLeft_add_eq_or_of_lt hb, Nat.shiftLeft_eq a]

/-- The five fields of a timestamp next to each other. -/
theorem timestamp_fields_or {a b c d e : Nat} (hb : b < 2 ^ 8) (hc : c < 2 ^ 7) (hd : d < 2 ^ 8) (he : e < 2 ^ 7) :
    a <<< 30 ||| b <<< 22 ||| c <<< 15 ||| d <<< 7 ||| e =
      (((a * 2 ^ 8 + b) * 2 ^ 7 + c) * 2 ^ 8 + d) * 2 ^ 7 + e := by
  rw [shiftLeft_or_shiftLeft hb 22, shiftLeft_or_shiftLeft hc 15, shiftLeft_or_shiftLeft hd 7]
  exact shiftLeft_or_shiftLeft he 0

theorem ts33_toNat (u : BitVec 40) :
    (ts33 u).toNat = u.toNat / 2 ^ 33 % 2 ^ 3 * 2 ^ 30 + u.toNat / 2 ^ 17 % 2 ^ 15 * 2 ^ 15 + u.toNat / 2 % 2 ^ 15 := by
  simp only [ts33, append_toNat, BitVec.extractLsb'_toNat, Nat.shiftRight_eq_div_pow]
  omega

/-- A timestamp's three groups of bits as parts of its five bytes. -/
theorem ts33_be_toNat (p : Packet) (off : Nat) :
    (ts33 (BitVec.ofNat 40 (p.be off 5))).toNat =
      (p.byte off).toNat / 2 % 8 * 2 ^ 30 + ((p.byte (off + 1)).toNat * 2 ^ 7 + (p.byte (off + 2)).toNat / 2) * 2 ^ 15 +
        ((p.byte (off + 3)).toNat * 2 ^ 7 + (p.byte (off + 4)).toNat / 2) := by
  have hbe : (BitVec.ofNat 40 (p.be off 5)).toNat = p.be off 5 := field_toNat (p := p) (w := 40) (by decide)
  rw [ts33_toNat, hbe]
  simp only [Packet.be, Nat.add_zero, Nat.zero_mul, Nat.zero_add]
  have h1 := (p.byte (off + 1)).isLt
  have h2 := (p.byte (off + 2)).isLt
  have h3 := (p.byte (off + 3)).isLt
  have h4 := (p.byte (off + 4)).isLt
  generalize (p.byte off).toNat = a at *
  generalize (p.byte (off + 1)).toNat = b at *
  generalize (p.byte (off + 2)).toNat = c at *
  generalize (p.byte (off + 3)).toNat = d at *
  generalize (p.byte (off + 4)).toNat = e at *
  have high : ((((a * 256 + b) * 256 + c) * 256 + d) * 256 + e) / 2 ^ 33 = a / 2 := by omega
  have mid : ((((a * 256 + b) * 256 + c) * 256 + d) * 256 + e) / 2 ^ 17 = (a * 256 + b) * 128 + c / 2 := by omega
  have low : ((((a * 256 + b) * 256 + c) * 256 + d) * 256 + e) / 2 =
      ((a * 256 + b) * 256 + c) * 32768 + (d * 128 + e / 2) := by omega
  rw [high, mid, low]
  omega

/-- Settles O21: both sides as sums of the five bytes' parts. -/
theorem timestampInBytes : Obligations.TimestampInBytes := by
  intro p off
  have h1 := (p.byte (off + 1)).isLt
  have h2 := (p.byte (off + 2)).isLt
  have h3 := (p.byte (off + 3)).isLt
  have h4 := (p.byte (off + 4)).isLt
  rw [timestamp_fields_or h1 (by omega) h3 (by omega), ts33_be_toNat, show (7 : Nat) = 2 ^ 3 - 1 from rfl,
    Nat.and_two_pow_sub_one_eq_mod]
  simp only [Nat.shiftRight_eq_div_pow]
  omega

end Sys2Proof.Machine
end

section
/-! What an absorb step can answer, once: the branches of the state machine, the absorb step, and ASM_ABSORB from it
(43_pes_assembler.md R203 to R218). -/

namespace Sys2Proof.Machine

/-! ### The branches of the state machine (R211) -/

/-- What Start answers as a branch (R212, R213). -/
def startedOut (o : StartOut) : StepOut := ⟨o.code, false, false, o.pesh, o.asm, [], 0⟩

/-- What Finish-then-Start answers, for a Start that gave `o` on the registers `b` (R214). -/
def finishStartOut (b : Assembler) (draw : Nat) (o : StartOut) : StepOut where
  code := if o.code = .assemblingStarted then .assemblingFinishedAndStarted else o.code
  ntc := false
  flushed := true
  pesh := o.pesh
  asm := o.asm
  sink := flushBytes b b.prevHl.toNat (finishEnd b) draw
  drawn := finishEnd b - b.prevHl.toNat

/-- What Continue answers when the packet is exactly full (R215). -/
def finishedOut (b : Assembler) (draw : Nat) : StepOut where
  code := .assemblingFinished
  ntc := false
  flushed := true
  pesh := .zero .notRun
  asm := { b with started := false }
  sink := flushBytes b b.curHl.toNat b.woff.toNat draw
  drawn := b.woff.toNat - b.curHl.toNat

/-- What Continue answers when the packet goes on (R215). -/
def continuedOut (b : Assembler) : StepOut := ⟨.assemblingContinue, false, false, .zero .notRun, b, [], 0⟩

theorem stepContinue_eq (p : Packet) (off size draw : Nat) (a : Assembler) :
    stepContinue p off size draw a =
      (append p off size a).map fun b => if isComplete b then finishedOut b draw else continuedOut b := rfl

/-- Everything the state machine can answer (R211). -/
theorem stateMachine_cases {ps : Params} {p : Packet} {pusi : Bool} {off size d : Nat} {a : Assembler} {o : StepOut}
    (h : stateMachine ps p pusi off size d a = some o) :
    (pusi = false ∧ a.started = false ∧ o = stepNothing a) ∨
    (pusi = false ∧ a.started = true ∧ ∃ b, append p off size a = some b ∧
      (isComplete b = true ∧ o = finishedOut b d ∨ isComplete b = false ∧ o = continuedOut b)) ∨
    (pusi = true ∧ a.started = false ∧ ∃ st, start ps p off size a = some st ∧ o = startedOut st) ∨
    (pusi = true ∧ a.started = true ∧ ∃ st, start ps p off size (notePrevious a) = some st ∧
      o = finishStartOut (notePrevious a) d st) := by
  cases pusi <;> cases hs : a.started
  · rw [stateMachine_nothing hs] at h
    exact .inl ⟨rfl, rfl, (Option.some.inj h).symm⟩
  · rw [stateMachine_continue hs, stepContinue_eq] at h
    obtain ⟨b, hb, ho⟩ := Option.map_eq_some_iff.1 h
    refine .inr (.inl ⟨rfl, rfl, b, hb, ?_⟩)
    cases hc : isComplete b
    · exact .inr ⟨rfl, by simp [← ho, hc]⟩
    · exact .inl ⟨rfl, by simp [← ho, hc]⟩
  · rw [stateMachine_start hs] at h
    obtain ⟨st, hst, ho⟩ := Option.map_eq_some_iff.1 h
    exact .inr (.inr (.inl ⟨rfl, rfl, st, hst, ho.symm⟩))
  · rw [stateMachine_finishStart hs] at h
    obtain ⟨st, hst, ho⟩ := Option.map_eq_some_iff.1 h
    exact .inr (.inr (.inr ⟨rfl, rfl, st, hst, ho.symm⟩))

theorem append_lastCc {p : Packet} {off size : Nat} {a b : Assembler} (h : append p off size a = some b) :
    b.lastCc = a.lastCc := by
  rw [append_frame h]

/-- Start leaves the counter (R212, R213). -/
theorem start_lastCc {ps : Params} {p : Packet} {off size : Nat} {a : Assembler} {o : StartOut}
    (h : start ps p off size a = some o) : o.asm.lastCc = a.lastCc := by
  obtain ⟨-, ⟨-, -, b, hb, e⟩ | ⟨-, -, e⟩⟩ := start_cases h <;> rw [e]
  · exact (append_lastCc hb :)
  · rfl

theorem start_code {ps : Params} {p : Packet} {off size : Nat} {a : Assembler} {o : StartOut}
    (h : start ps p off size a = some o) : o.code = .assemblingStarted ∨ o.code = .truncatedInput := by
  obtain ⟨-, ⟨-, hc, -⟩ | ⟨-, hc, -⟩⟩ := start_cases h
  · exact .inl hc
  · exact .inr hc

/-- No branch changes the counter: the absorb step has written it before (R209). -/
theorem stateMachine_lastCc {ps : Params} {p : Packet} {pusi : Bool} {off size d : Nat} {a : Assembler} {o : StepOut}
    (h : stateMachine ps p pusi off size d a = some o) : o.asm.lastCc = a.lastCc := by
  obtain ⟨-, -, rfl⟩ | ⟨-, -, b, hb, ⟨-, rfl⟩ | ⟨-, rfl⟩⟩ | ⟨-, -, st, hst, rfl⟩ | ⟨-, -, st, hst, rfl⟩ :=
    stateMachine_cases h
  · rfl
  · exact (append_lastCc hb :)
  · exact (append_lastCc hb :)
  · exact start_lastCc hst
  · exact start_lastCc (a := notePrevious a) hst

/-- The result codes of an absorb step (R203). -/
def absorbCodes : List ResultCode :=
  [.truncatedInput, .malformedField, .unexpectedPid, .streamPacketLost, .assemblingStarted, .assemblingContinue,
    .assemblingFinished, .assemblingFinishedAndStarted]

theorem stateMachine_code_mem {ps : Params} {p : Packet} {pusi : Bool} {off size d : Nat} {a : Assembler}
    {o : StepOut} (h : stateMachine ps p pusi off size d a = some o) : o.code ∈ absorbCodes := by
  obtain ⟨-, -, rfl⟩ | ⟨-, -, b, -, ⟨-, rfl⟩ | ⟨-, rfl⟩⟩ | ⟨-, -, st, hst, rfl⟩ | ⟨-, -, st, hst, rfl⟩ :=
    stateMachine_cases h
  · simp [stepNothing, absorbCodes]
  · simp [finishedOut, absorbCodes]
  · simp [continuedOut, absorbCodes]
  · obtain hc | hc := start_code hst <;> simp [startedOut, hc, absorbCodes]
  · obtain hc | hc := start_code hst <;> simp [finishStartOut, hc, absorbCodes]

/-- A branch that does not flush sends nothing and takes no draw (R46, R218). -/
theorem stateMachine_noFlush {ps : Params} {p : Packet} {pusi : Bool} {off size d : Nat} {a : Assembler}
    {o : StepOut} (h : stateMachine ps p pusi off size d a = some o) (hf : o.flushed = false) : o.sink = [] := by
  obtain ⟨-, -, rfl⟩ | ⟨-, -, b, -, ⟨-, rfl⟩ | ⟨-, rfl⟩⟩ | ⟨-, -, st, -, rfl⟩ | ⟨-, -, st, -, rfl⟩ :=
    stateMachine_cases h
  · rfl
  · cases hf
  · rfl
  · rfl
  · cases hf

/-! ### The absorb step (R204) -/

/-- An absorb step that did not get to the state machine (R205 to R208). -/
structure AbsorbEndedEarly (a : Assembler) (o : AbsorbOut) : Prop where
  code : o.code ∈ absorbCodes
  flushed : o.flushed = false
  sink : o.sink = []
  buf : o.asm.buf = a.buf

theorem absorbTurnedAway_early {c : ResultCode} (hc : c ∈ absorbCodes) (h : HdrGroup) (a : Assembler) :
    AbsorbEndedEarly a (absorbTurnedAway c h a) :=
  ⟨hc, rfl, rfl, rfl⟩

theorem absorbEnded_early {c : ResultCode} (hc : c ∈ absorbCodes) (h : HdrGroup) (af : AfGroup) {a b : Assembler}
    (hb : b.buf = a.buf) : AbsorbEndedEarly a (absorbEnded c h af b) :=
  ⟨hc, rfl, rfl, hb⟩

theorem noteLoss_buf (ps : Params) (cc : BitVec 4) (a : Assembler) : (noteLoss ps cc a).buf = a.buf := by
  rw [noteLoss_eq]

/-- An absorb step ends early, or is a branch of the state machine (60_exceptions.md R273). -/
theorem absorb_some_cases {ps : Params} {p : Packet} {n d : Nat} {a : Assembler} {o : AbsorbOut}
    (h : absorb ps p n d a = some o) :
    AbsorbEndedEarly a o ∨
    ∃ so, stateMachine ps p (hdrPusi (headerWord p)) (absorbOffset p) (absorbSize p) d
        { a with lastCc := some (hdrCc (headerWord p)) } = some so ∧
      o = absorbStepped (tshDecode p n) (absorbAf p (headerWord p)) so := by
  obtain ⟨-, e⟩ | ⟨-, -, e⟩ | ⟨-, -, -, e⟩ | ⟨-, -, hbad, e⟩ | ⟨-, -, -, -, e⟩ | ⟨-, -, -, -, e⟩ :=
    absorb_cases ps p n d a <;> rw [e] at h
  case inr.inr.inr.inr.inr =>
    obtain ⟨so, hso, ho⟩ := Option.map_eq_some_iff.1 h
    exact .inr ⟨so, hso, ho.symm⟩
  all_goals cases h; left
  · exact absorbTurnedAway_early (by decide) _ _
  · exact absorbTurnedAway_early (by decide) _ _
  · exact absorbEnded_early (by decide) _ _ rfl
  · obtain hs | hs := absorbAf_rejected hbad <;> rw [hs] <;> exact absorbEnded_early (by decide) _ _ rfl
  · exact absorbEnded_early (by decide) _ _ (noteLoss_buf ..)

theorem absorb_code_mem {ps : Params} {p : Packet} {n d : Nat} {a : Assembler} {o : AbsorbOut}
    (h : absorb ps p n d a = some o) : o.code ∈ absorbCodes := by
  obtain he | ⟨so, hso, rfl⟩ := absorb_some_cases h
  · exact he.code
  · exact stateMachine_code_mem hso

theorem absorb_noFlush {ps : Params} {p : Packet} {n d : Nat} {a : Assembler} {o : AbsorbOut}
    (h : absorb ps p n d a = some o) (hf : o.flushed = false) : o.sink = [] := by
  obtain he | ⟨so, hso, rfl⟩ := absorb_some_cases h
  · exact he.sink
  · exact stateMachine_noFlush hso hf

theorem absorb_isSome_of_room {ps : Params} {p : Packet} (n d : Nat) {a : Assembler} (h : WoffRoom a) :
    ∃ o, absorb ps p n d a = some o := by
  cases ho : absorb ps p n d a with
  | some o => exact ⟨o, rfl⟩
  | none =>
    obtain ⟨-, hlimit⟩ := absorb_none ho
    have hsize := absorbSize_le p
    have hroom : a.woff.toNat + 184 < 2 ^ 31 := h
    omega

/-! ### ASM_ABSORB from its absorb step (R203) -/

/-- The state an ASM_ABSORB on instance `i` leaves whose absorb step gave `o`. -/
def State.absorbed (s : State) (i : InstId) (o : AbsorbOut) : State :=
  ((s.commit i o).setGroups o).setResult o.code o.ntc o.flushed (some i)

@[simp] theorem absorbed_pkt (s : State) (i : InstId) (o : AbsorbOut) : (s.absorbed i o).pkt = s.pkt := by
  simp [State.absorbed]

theorem absorbed_inst (s : State) (i j : InstId) (o : AbsorbOut) :
    (s.absorbed i o).inst j = if i = j then o.asm else s.inst j :=
  inst_commit s i j o

@[simp] theorem absorbed_inst_self (s : State) (i : InstId) (o : AbsorbOut) : (s.absorbed i o).inst i = o.asm := by
  rw [absorbed_inst, if_pos rfl]

theorem absorbed_sink (s : State) (i j : InstId) (o : AbsorbOut) :
    (s.absorbed i o).sink j = if i = j ∧ o.sink ≠ [] then s.sink j ++ [o.sink] else s.sink j :=
  sink_commit s i j o

theorem absorbed_frame (s : State) (i : InstId) (o : AbsorbOut) : InstanceFrame i s (s.absorbed i o) :=
  instanceFrame_absorb s i o o.code o.ntc o.flushed

/-- A flush of `[lo, hi)` is one write, and none for an empty range (R218). -/
theorem absorbed_sink_of_length {s : State} {i : InstId} {o : AbsorbOut} {lo hi : Nat}
    (h : o.sink.length = hi - lo) :
    (s.absorbed i o).sink i = if lo < hi then s.sink i ++ [o.sink] else s.sink i := by
  have hempty : o.sink ≠ [] ↔ lo < hi := by
    rw [← List.length_pos_iff_ne_nil, h]
    omega
  simp only [absorbed_sink, true_and, hempty]

theorem exec_asmAbsorb_refused {s : State} {i : InstId} (he : AbsorbEnabled s i) (ho : s.absorb i = none) :
    exec (.asmAbsorb i) s = .refused .woffOverflow := by
  obtain ⟨hlong, -⟩ | ⟨-, hdisabled, -⟩ | ⟨-, -, e⟩ | ⟨-, o, hsome, -⟩ := execAsmAbsorb_cases i s
  · exact absurd he.pktLen (by omega)
  · exact hdisabled.elim (fun hle => absurd he.inst (by omega)) (by simp [he.active])
  · exact e
  · simp [ho] at hsome

/-- An enabled ASM_ABSORB that answers a next state leaves what its absorb step says. -/
theorem exec_asmAbsorb_next_of_enabled {s t : State} {i : InstId} (he : AbsorbEnabled s i)
    (h : exec (.asmAbsorb i) s = .next t) : ∃ o, s.absorb i = some o ∧ t = s.absorbed i o := by
  cases ho : s.absorb i with
  | none =>
    rw [exec_asmAbsorb_refused he ho] at h
    cases h
  | some o => exact ⟨o, rfl, (Host.Outcome.next.inj ((exec_asmAbsorb he ho).symm.trans h)).symm⟩

/-- What ASM_ABSORB leaves when it answers a next state: it is illegal, or it is its absorb step's. -/
theorem exec_asmAbsorb_next {s t : State} {i : InstId} (h : exec (.asmAbsorb i) s = .next t) :
    (∃ info, t = s.raiseIllegal info) ∨
    AbsorbEnabled s i ∧ ∃ o, s.absorb i = some o ∧ t = s.absorbed i o := by
  obtain ⟨-, e⟩ | ⟨-, -, e⟩ | ⟨he, -, -⟩ | ⟨he, -⟩ := execAsmAbsorb_cases i s
  · exact .inl ⟨none, (Host.Outcome.next.inj (e.symm.trans h)).symm⟩
  · exact .inl ⟨some i, (Host.Outcome.next.inj (e.symm.trans h)).symm⟩
  · exact .inr ⟨he, exec_asmAbsorb_next_of_enabled he h⟩
  · exact .inr ⟨he, exec_asmAbsorb_next_of_enabled he h⟩

/-- The registers the state machine finds (R209). -/
def counted (s : State) (i : InstId) : Assembler :=
  { s.inst i with lastCc := some (hdrCc (headerWord s.pkt)) }

/-- Past the counter check an absorb step is a branch of the state machine (R209, R211). -/
theorem absorb_reached {s : State} {i : InstId} {so : StepOut} (h : ReachesStateMachine s i)
    (hso : stateMachine s.params s.pkt (hdrPusi (headerWord s.pkt)) (absorbOffset s.pkt) (absorbSize s.pkt) s.draws
      (counted s i) = some so) :
    s.absorb i = some (absorbStepped (tshDecode s.pkt 188) (absorbAf s.pkt (headerWord s.pkt)) so) :=
  (absorb_of_reaches h).trans (congrArg (Option.map _) hso)

theorem reachesStateMachine_iff {s : State} {i : InstId} (he : AbsorbEnabled s i) :
    ReachesStateMachine s i ↔
      188 ≤ s.pktLen.toNat ∧ hdrPid (headerWord s.pkt) = (s.inst i).pid ∧ AfAccepted s.pkt ∧
        ccOk s.params.ccFirst (s.inst i).lastCc (hdrCc (headerWord s.pkt)) = true := by
  rw [ccOk_iff]
  constructor
  · rintro ⟨⟨-, hfull, hpid⟩, haf, hcc⟩
    exact ⟨hfull.ge, hpid, haf, hcc⟩
  · rintro ⟨hlen, hpid, haf, hcc⟩
    exact ⟨⟨he, Nat.le_antisymm he.pktLen hlen, hpid⟩, haf, hcc⟩

/-- Settles O37: ASM_ABSORB refuses when its absorb step does, which `absorb_none_iff` says of R223. -/
theorem absorbRefusesExactlyAtLimit : Obligations.AbsorbRefusesExactlyAtLimit := by
  intro s i r
  constructor
  · intro h
    obtain ⟨-, e⟩ | ⟨-, -, e⟩ | ⟨he, ho, e⟩ | ⟨-, o, -, e⟩ := execAsmAbsorb_cases i s
    all_goals replace h := e.symm.trans h; cases h
    obtain ⟨hlen, hpid, haf, hcc, hpusi, hstarted, hlimit⟩ := absorb_none_iff.1 ho
    exact ⟨rfl, (reachesStateMachine_iff he).2 ⟨hlen, hpid, haf, hcc⟩, hpusi, hstarted, hlimit⟩
  · rintro ⟨rfl, hr, hpusi, hstarted, hlimit⟩
    obtain ⟨hlen, hpid, haf, hcc⟩ := (reachesStateMachine_iff hr.whole.enabled).1 hr
    have hnone : s.absorb i = none := absorb_none_iff.2 ⟨hlen, hpid, haf, hcc, hpusi, hstarted, hlimit⟩
    exact exec_asmAbsorb_refused hr.whole.enabled hnone

/-- Settles O36: without a refusal the command ends with its absorb step. -/
theorem absorbCompletes : Obligations.AbsorbCompletes := by
  intro s i he hroom
  obtain ⟨o, ho⟩ := absorb_isSome_of_room s.pktLen.toNat s.draws (ps := s.params) (p := s.pkt) hroom
  exact ⟨s.absorbed i o, exec_asmAbsorb he ho, absorbed_frame s i o, rfl, absorb_code_mem ho⟩

/-! ### Where the payload lies (R210) -/

/-- An accepted field's length is the byte at offset 4, and the field ends inside the packet (R207, R142). -/
theorem absorbAf_length {p : Packet} (h : AfAccepted p) (hf : (p.byte 3).getLsbD 5 = true) :
    (absorbAf p (headerWord p)).length = p.byte 4 ∧ 5 + (p.byte 4).toNat ≤ 188 := by
  obtain ⟨-, hlen, hfits, -⟩ := afDecode_ok ((afAccepted_iff_of_present hf).1 h)
  rw [absorbAf_eq, if_pos hf]
  exact ⟨hlen, hfits⟩

theorem absorbOffset_of_field {p : Packet} (h : AfAccepted p) (hf : (p.byte 3).getLsbD 5 = true) :
    absorbOffset p = 4 + (1 + (p.byte 4).toNat) := by
  rw [absorbOffset, hasField_header, hf, (absorbAf_length h hf).1]
  rfl

theorem absorbOffset_of_noField {p : Packet} (hf : (p.byte 3).getLsbD 5 = false) : absorbOffset p = 4 := by
  rw [absorbOffset, hasField_header, hf]
  rfl

theorem hasPayload_header (p : Packet) : afcHasPayload (hdrAfc (headerWord p)) = (p.byte 3).getLsbD 4 := by
  rw [hdrAfc_field]
  simp [afcHasPayload, Packet.afc]

/-- Settles O28: the counter is written before the state machine, which keeps it; the offset is R210's sum. -/
theorem absorbUpdatesCounterOnSuccess : Obligations.AbsorbUpdatesCounterOnSuccess := by
  intro s t i hr ht
  refine ⟨?counter, ?offset, ?size, fun hf => ?range, absorbSize_le s.pkt⟩
  case counter =>
    obtain ⟨o, ho, rfl⟩ := exec_asmAbsorb_next_of_enabled hr.whole.enabled ht
    rw [absorb_of_reaches hr] at ho
    obtain ⟨so, hso, rfl⟩ := Option.map_eq_some_iff.1 ho
    rw [absorbed_inst_self]
    exact stateMachine_lastCc hso
  case offset =>
    cases hf : (s.pkt.byte 3).getLsbD 5
    · exact absorbOffset_of_noField hf
    · exact absorbOffset_of_field hr.af hf
  case size => rw [absorbSize, hasPayload_header, payloadSize]
  case range =>
    have hfits := (absorbAf_length hr.af hf).2
    rw [absorbOffset_of_field hr.af hf]
    omega

end Sys2Proof.Machine
end

section
/-! The branches of the state machine in full: Start, Finish-then-Start and Continue (43_pes_assembler.md R212 to
R215), and what they flush (R218, R219). -/

namespace Sys2Proof.Machine

/-- A TS payload never brings a fresh buffer near `WOFF_LIMIT` (R223). -/
theorem absorbSize_lt (p : Packet) : absorbSize p < 2 ^ 31 :=
  Nat.lt_of_le_of_lt (absorbSize_le p) (by decide)

/-! ### Start (R212, R213) -/

/-- The absorb step in the Start branch. -/
theorem absorb_start {s : State} {i : InstId} {st : StartOut} (hr : ReachesStateMachine s i)
    (hpusi : hdrPusi (headerWord s.pkt) = true) (hstarted : (s.inst i).started = false)
    (hst : start s.params s.pkt (absorbOffset s.pkt) (absorbSize s.pkt) (counted s i) = some st) :
    s.absorb i = some (absorbStepped (tshDecode s.pkt 188) (absorbAf s.pkt (headerWord s.pkt)) (startedOut st)) := by
  refine absorb_reached hr ?_
  rw [hpusi, stateMachine_start (a := counted s i) hstarted]
  exact congrArg (Option.map startedOut) hst

/-- Settles O29: the Start branch, with `start_eq` for a header that decodes. -/
theorem absorbStartsPacket : Obligations.AbsorbStartsPacket := fun _ _ hr hpusi hstarted hok =>
  exec_asmAbsorb_noSink hr.whole.enabled (absorb_start hr hpusi hstarted (start_eq (absorbSize_lt _) hok)) rfl rfl

/-! ### Finish-then-Start (R214) -/

/-- The flush of a packet in progress reads its own buffer and the state's draws (R218). -/
theorem flushBytes_notePrevious {s : State} {i : InstId} (hw : (s.inst i).woff.toNat < 2 ^ 31) :
    flushBytes (notePrevious (counted s i)) (notePrevious (counted s i)).prevHl.toNat
      (finishEnd (notePrevious (counted s i))) s.draws =
    flushedBytes s i (s.inst i).curHl.toNat (s.inst i).woff.toNat := by
  rw [finishEnd_notePrevious (a := counted s i) hw]
  rfl

theorem flushedBytes_length (s : State) (i : InstId) (lo hi : Nat) : (flushedBytes s i lo hi).length = hi - lo := by
  simp [flushedBytes]

/-- ASM_ABSORB in Finish-then-Start, for the Start that runs on the noted registers. -/
theorem exec_asmAbsorb_finishStart {s : State} {i : InstId} {st : StartOut} (hr : ReachesStateMachine s i)
    (hpusi : hdrPusi (headerWord s.pkt) = true) (hstarted : (s.inst i).started = true)
    (hst : start s.params s.pkt (absorbOffset s.pkt) (absorbSize s.pkt) (notePrevious (counted s i)) = some st) :
    exec (.asmAbsorb i) s = .next (s.absorbed i (absorbStepped (tshDecode s.pkt 188)
      (absorbAf s.pkt (headerWord s.pkt)) (finishStartOut (notePrevious (counted s i)) s.draws st))) := by
  refine exec_asmAbsorb hr.whole.enabled (absorb_reached hr ?_)
  rw [hpusi, stateMachine_finishStart (a := counted s i) hstarted]
  exact congrArg (Option.map (finishStartOut (notePrevious (counted s i)) s.draws)) hst

/-- The old packet's bytes are one write to the instance's sink, whatever the Start does (R213, R214). -/
theorem finishStart_sink {s : State} {i : InstId} (st : StartOut) (h : HdrGroup) (af : AfGroup)
    (hw : (s.inst i).woff.toNat < 2 ^ 31) :
    (s.absorbed i (absorbStepped h af (finishStartOut (notePrevious (counted s i)) s.draws st))).sink i =
      if (s.inst i).curHl.toNat < (s.inst i).woff.toNat then
        s.sink i ++ [flushedBytes s i (s.inst i).curHl.toNat (s.inst i).woff.toNat]
      else s.sink i := by
  have hsink : (absorbStepped h af (finishStartOut (notePrevious (counted s i)) s.draws st)).sink =
      flushedBytes s i (s.inst i).curHl.toNat (s.inst i).woff.toNat := flushBytes_notePrevious hw
  rw [absorbed_sink_of_length (by rw [hsink, flushedBytes_length]), hsink]

/-- Settles O30: `start_eq_failed` in the two branches that run a Start. -/
theorem absorbStartFails : Obligations.AbsorbStartFails := by
  refine fun s i hr hpusi hbad => ⟨fun hstarted => ?start, fun hstarted hw => ?finishStart⟩
  case start =>
    exact exec_asmAbsorb_noSink hr.whole.enabled (absorb_start hr hpusi hstarted (start_eq_failed hbad)) rfl rfl
  case finishStart =>
    refine ⟨_, exec_asmAbsorb_finishStart hr hpusi hstarted (start_eq_failed hbad), absorbed_frame .., rfl, rfl, ?_,
      finishStart_sink _ _ _ hw⟩
    rw [absorbed_inst_self]
    rfl

/-- Settles O31: the flush and the notes are the same for both ends of the Start; the rest is `start_eq` or
`start_eq_failed`. -/
theorem absorbFinishesThenStarts : Obligations.AbsorbFinishesThenStarts := by
  intro s i hr hpusi hstarted hw
  have hprevDl : (notePrevious (counted s i)).prevDl.toInt =
      ((s.inst i).woff.toNat : Int) - ((s.inst i).curHl.toNat : Int) := notePrevious_prevDl (a := counted s i) hw
  by_cases hok : (peshDecode s.pkt (absorbOffset s.pkt) (absorbSize s.pkt)).status = .ok
  · refine ⟨_, exec_asmAbsorb_finishStart hr hpusi hstarted (start_eq (absorbSize_lt _) hok), absorbed_frame ..,
      finishStart_sink _ _ _ hw, rfl, rfl, rfl, ?_⟩
    have hwoff : (BitVec.ofNat 32 (absorbSize s.pkt)).toNat = absorbSize s.pkt :=
      Nat.mod_eq_of_lt ((absorbSize_lt _).trans (by decide))
    simp only [absorbed_inst_self]
    exact ⟨rfl, hprevDl, rfl, rfl, rfl, fun _ => ⟨rfl, rfl, rfl, rfl, rfl, rfl, hwoff, rfl, rfl⟩,
      fun hbad => absurd hok hbad⟩
  · refine ⟨_, exec_asmAbsorb_finishStart hr hpusi hstarted (start_eq_failed hok), absorbed_frame ..,
      finishStart_sink _ _ _ hw, rfl, rfl, (peshDecode_eq_zero hok).symm, ?_⟩
    simp only [absorbed_inst_self]
    exact ⟨rfl, hprevDl, rfl, rfl, rfl, fun h => absurd h hok,
      fun _ => ⟨rfl, rfl, rfl, rfl, rfl, rfl, rfl, rfl, rfl, rfl⟩⟩

/-! ### Continue (R215) -/

/-- The completion test, in R215's arithmetic. -/
theorem isComplete_iff {a : Assembler} : isComplete a = true ↔ a.curPl ≠ 0 ∧ a.woff.toNat = a.cap.toNat := by
  simp [isComplete, BitVec.toNat_inj]

/-- ASM_ABSORB in Continue, for the registers `b` its append leaves. -/
theorem exec_asmAbsorb_continue {s : State} {i : InstId} {b : Assembler} (hr : ReachesStateMachine s i)
    (hpusi : hdrPusi (headerWord s.pkt) = false) (hstarted : (s.inst i).started = true)
    (hb : append s.pkt (absorbOffset s.pkt) (absorbSize s.pkt) (counted s i) = some b) :
    exec (.asmAbsorb i) s = .next (s.absorbed i (absorbStepped (tshDecode s.pkt 188)
      (absorbAf s.pkt (headerWord s.pkt)) (if isComplete b then finishedOut b s.draws else continuedOut b))) := by
  refine exec_asmAbsorb hr.whole.enabled (absorb_reached hr ?_)
  rw [hpusi, stateMachine_continue (a := counted s i) hstarted, stepContinue_eq, hb]
  rfl

/-- The registers Continue's append leaves below the limit (R217). -/
def continuedRegs (s : State) (i : InstId) : Assembler :=
  let a := s.inst i
  let woff := a.woff.toNat + absorbSize s.pkt
  { counted s i with
    woff := BitVec.ofNat 32 woff
    overrun := a.overrun || decide (a.cap.toNat < woff)
    buf := if woff ≤ a.cap.toNat then
        a.buf.writeRun a.woff.toNat (s.pkt.bytes (absorbOffset s.pkt) (absorbSize s.pkt))
      else a.buf }

theorem append_counted {s : State} {i : InstId} (h : (s.inst i).woff.toNat + absorbSize s.pkt < 2 ^ 31) :
    append s.pkt (absorbOffset s.pkt) (absorbSize s.pkt) (counted s i) = some (continuedRegs s i) :=
  append_eq (a := counted s i) h

theorem continuedRegs_woff {s : State} {i : InstId} (h : (s.inst i).woff.toNat + absorbSize s.pkt < 2 ^ 31) :
    (continuedRegs s i).woff.toNat = (s.inst i).woff.toNat + absorbSize s.pkt :=
  Nat.mod_eq_of_lt (h.trans (by decide))

/-- Settles O32: `append_eq` gives the registers, and the completion test decides between the two ends. -/
theorem absorbContinuesPacket : Obligations.AbsorbContinuesPacket := by
  intro s i hr hpusi hstarted hroom
  have hexec := exec_asmAbsorb_continue hr hpusi hstarted (append_counted hroom)
  have hwoff := continuedRegs_woff hroom
  have hcomplete : isComplete (continuedRegs s i) = true ↔
      (s.inst i).curPl ≠ 0 ∧ (s.inst i).woff.toNat + absorbSize s.pkt = (s.inst i).cap.toNat := by
    rw [isComplete_iff, hwoff]
    rfl
  by_cases hfull : (s.inst i).curPl ≠ 0 ∧ (s.inst i).woff.toNat + absorbSize s.pkt = (s.inst i).cap.toNat
  · rw [if_pos (hcomplete.2 hfull)] at hexec
    refine ⟨_, hexec, absorbed_frame .., rfl, rfl, rfl, fun _ => ⟨absorbed_inst_self .., rfl, ?sink⟩,
      fun hpart => absurd hfull hpart⟩
    case sink =>
      rw [absorbed_sink_of_length (flushBytes_length ..), hwoff]
      simp only [absorbStepped, finishedOut, flushBytes, hwoff]
      rfl
  · rw [if_neg (mt hcomplete.1 hfull)] at hexec
    refine ⟨_, hexec, absorbed_frame .., rfl, rfl, rfl, fun hdone => absurd hdone hfull,
      fun _ => ⟨absorbed_inst_self .., rfl, ?_⟩⟩
    simp [absorbed_sink, absorbStepped, continuedOut]

/-! ### What a flush sends, and when (R218, R219) -/

/-- Settles O35: without an overrun every cell below `WOFF` is written and below `CAP`, so no read is a draw. -/
theorem flushIsExactWithoutOverrun : Obligations.FlushIsExactWithoutOverrun := by
  intro ps a draw hwf hno
  refine ⟨flushBytes_length .., fun k hk => ?_⟩
  have hfits := hwf.noOverrunFits hno
  obtain ⟨b, hb⟩ := Option.isSome_iff_exists.1 (hwf.noOverrunFull hno (a.curHl.toNat + k) (by omega))
  have hread : a.bufRead (a.curHl.toNat + k) (draw + k) = b := bufRead_written (by omega) hb
  exact ⟨b, hb, by simp [flushBytes, hk, hread]⟩

/-- A buffer that an append writes to keeps every cell outside the payload's run (R217). -/
theorem append_read?_outside {p : Packet} {off size : Nat} {a b : Assembler} (h : append p off size a = some b)
    {k : Nat} (hk : ¬ (a.woff.toNat ≤ k ∧ k < a.woff.toNat + size)) : b.buf.read? k = a.buf.read? k := by
  obtain ⟨-, -, ⟨-, e⟩ | ⟨-, e⟩⟩ := append_cases h <;> rw [e]
  exact (read?_writeRun_bytes ..).trans (if_neg hk)

/-- A branch of the state machine that starts nothing stores in the payload's run only. -/
theorem stateMachine_read?_outside {ps : Params} {p : Packet} {off size d : Nat} {a : Assembler} {o : StepOut}
    (h : stateMachine ps p false off size d a = some o) {k : Nat}
    (hk : ¬ (a.woff.toNat ≤ k ∧ k < a.woff.toNat + size)) : o.asm.buf.read? k = a.buf.read? k := by
  obtain ⟨-, -, rfl⟩ | ⟨-, -, b, hb, ⟨-, rfl⟩ | ⟨-, rfl⟩⟩ | ⟨hpusi, -⟩ | ⟨hpusi, -⟩ := stateMachine_cases h
  · rfl
  · exact append_read?_outside hb hk
  · exact append_read?_outside hb hk
  · cases hpusi
  · cases hpusi

/-- Settles O38: the absorb step writes no packet byte and no other instance, and its append the payload's run. -/
theorem absorbStoresOnlyItsPayload : Obligations.AbsorbStoresOnlyItsPayload := by
  intro s t i h
  obtain ⟨info, rfl⟩ | ⟨-, o, ho, rfl⟩ := exec_asmAbsorb_next h
  · exact ⟨fun _ => rfl, fun _ _ => rfl, fun _ _ _ => rfl⟩
  refine ⟨fun k => by rw [absorbed_pkt], fun j hj => by rw [absorbed_inst, if_neg (Ne.symm hj)],
    fun hpusi k hk => ?_⟩
  rw [absorbed_inst_self]
  obtain hearly | ⟨so, hso, rfl⟩ := absorb_some_cases ho
  · rw [hearly.buf]
  · rw [hpusi] at hso
    exact stateMachine_read?_outside hso hk

theorem eq_byte_of_read?_cellsFrom {p : Packet} {off size k : Nat} {b : Byte}
    (h : Memory.read? (cellsFrom 0 (p.bytes off size)) k = some b) : b = p.byte (off + k) := by
  rw [read?_cellsFrom, if_pos (Nat.zero_le k), Nat.sub_zero, bytes_getElem?] at h
  split at h
  · exact (Option.some.inj h).symm
  · cases h

/-- What Start stores is the payload from its first byte on (R212). -/
theorem start_buffer {ps : Params} {p : Packet} {off size : Nat} {a : Assembler} {o : StartOut} (hs : size < 2 ^ 31)
    (h : start ps p off size a = some o) :
    o.asm.started = false ∨
      o.asm.woff.toNat = size ∧ ∀ k b, o.asm.buf.read? k = some b → b = p.byte (off + k) := by
  by_cases hok : (peshDecode p off size).status = .ok
  · rw [start_eq hs hok] at h
    cases h
    refine .inr ⟨Nat.mod_eq_of_lt (hs.trans (by decide)), fun k b hb => ?_⟩
    split at hb
    · exact eq_byte_of_read?_cellsFrom hb
    · cases hb
  · rw [start_eq_failed hok] at h
    cases h
    exact .inl rfl

/-- A flush comes from a packet in progress, and ends it or replaces its buffer (R219). -/
theorem stateMachine_flushed {ps : Params} {p : Packet} {pusi : Bool} {off size d : Nat} {a : Assembler} {o : StepOut}
    (hs : size < 2 ^ 31) (h : stateMachine ps p pusi off size d a = some o) (hf : o.flushed = true) :
    a.started = true ∧ (o.asm.started = false ∨
      o.asm.woff.toNat = size ∧ ∀ k b, o.asm.buf.read? k = some b → b = p.byte (off + k)) := by
  obtain ⟨-, -, rfl⟩ | ⟨-, hstarted, b, -, ⟨-, rfl⟩ | ⟨-, rfl⟩⟩ | ⟨-, -, st, -, rfl⟩ | ⟨-, hstarted, st, hst, rfl⟩ :=
    stateMachine_cases h
  · cases hf
  · exact ⟨hstarted, .inl rfl⟩
  · cases hf
  · cases hf
  · exact ⟨hstarted, start_buffer hs hst⟩

/-- Settles O39: only a branch of the state machine flushes, and a step without a flush sends nothing. -/
theorem flushHappensOncePerPacket : Obligations.FlushHappensOncePerPacket := by
  intro s t i h
  obtain ⟨info, rfl⟩ | ⟨-, o, ho, rfl⟩ := exec_asmAbsorb_next h
  · exact ⟨fun hf => absurd hf Bool.false_ne_true, fun _ _ => rfl⟩
  constructor
  · intro hf
    rw [absorbed_inst_self]
    obtain hearly | ⟨so, hso, rfl⟩ := absorb_some_cases ho
    · exact absurd (hearly.flushed.symm.trans hf) (by decide)
    · exact (stateMachine_flushed (absorbSize_lt _) hso hf :)
  · intro hf j
    have hsink : o.sink = [] := absorb_noFlush ho hf
    rw [absorbed_sink, if_neg fun hx => hx.2 hsink]

end Sys2Proof.Machine
end

section
/-! PKT_PROCESS at the dispatch: the matching instances' absorb steps, and the lowest one's report
(44_packet_process.md R250 to R256). -/

namespace Sys2Proof.Machine

/-- The lowest matching instance is the first that is offered the packet (R252, R254). -/
theorem matching_head {s : State} {pid : Pid} {j k : InstId} {rest : List InstId} (h : s.matching pid = k :: rest)
    (hj : j ∈ s.matching pid) (hlow : ∀ i ∈ s.matching pid, j ≤ i) : k = j := by
  have hasc := matching_ascending s pid
  have hk : k ∈ s.matching pid := by simp [h]
  rw [h] at hj hasc
  obtain rfl | hrest := List.mem_cons.1 hj
  · rfl
  · exact absurd (List.rel_of_pairwise_cons hasc hrest) (not_lt_of_ge (hlow k hk))

theorem matching_eq_singleton {s : State} {j : InstId} (hj : Matches s j) (hone : ∀ i, Matches s i → i = j) :
    s.matching (hdrPid (headerWord s.pkt)) = [j] := by
  have hall : ∀ i ∈ s.matching (hdrPid (headerWord s.pkt)), i = j := fun i hi => hone i (mem_matching_header.1 hi)
  have hasc := matching_ascending s (hdrPid (headerWord s.pkt))
  have hmem := mem_matching_header.2 hj
  cases hm : s.matching (hdrPid (headerWord s.pkt)) with
  | nil => simp [hm] at hmem
  | cons k rest =>
    rw [hm] at hall hasc
    have hk : k = j := hall k (by simp)
    have hrest : rest = [] := List.eq_nil_iff_forall_not_mem.2 fun i hi =>
      absurd (List.rel_of_pairwise_cons hasc hi) (by rw [hk, hall i (by simp [hi])]; exact lt_irrefl j)
    rw [hk, hrest]

/-- What PKT_PROCESS leaves at the dispatch when it answers: no instance matches, or all have absorbed the packet and
the lowest reports (R250, R254). -/
theorem exec_pktProcess_next {s t : State} (hd : ReachesDispatch s) (h : exec .pktProcess s = .next t) :
    (s.matching (hdrPid (headerWord s.pkt)) = [] ∧
      t = s.packetDropped (tshDecode s.pkt s.pktLen.toNat) .unexpectedPid) ∨
    ∃ j rest o u, s.matching (hdrPid (headerWord s.pkt)) = j :: rest ∧ s.absorb j = some o ∧
      s.absorbEach (s.matching (hdrPid (headerWord s.pkt))) = some u ∧
      t = (u.setGroups o).setResult o.code o.ntc o.flushed (some j) := by
  obtain ⟨hnil, e⟩ | ⟨j, rest, hcons, ⟨-, e⟩ | ⟨o, u, ho, hu, e⟩⟩ := execPktProcess_dispatch_cases hd
  all_goals replace h := e.symm.trans h
  · exact .inl ⟨hnil, (Host.Outcome.next.inj h).symm⟩
  · cases h
  · exact .inr ⟨j, rest, o, u, hcons, ho, hcons ▸ hu, (Host.Outcome.next.inj h).symm⟩

/-- The instances and sinks after the dispatch are those that the absorb steps leave (R252). -/
theorem exec_pktProcess_absorbEach {s t : State} (hd : ReachesDispatch s) (h : exec .pktProcess s = .next t) :
    ∃ u, s.absorbEach (s.matching (hdrPid (headerWord s.pkt))) = some u ∧ t.insts = u.insts ∧ t.sinks = u.sinks := by
  obtain ⟨hnil, rfl⟩ | ⟨j, rest, o, u, -, -, hu, rfl⟩ := exec_pktProcess_next hd h
  · exact ⟨s, by rw [hnil]; rfl, rfl, rfl⟩
  · exact ⟨u, hu, rfl, rfl⟩

/-- Settles O41: `absorbEach_steps` for the matching instances, `absorbEach_frame` for the others. -/
theorem pktProcessDispatches : Obligations.PktProcessDispatches := by
  intro s t hd h
  obtain ⟨u, hu, hinsts, hsinks⟩ := exec_pktProcess_absorbEach hd h
  obtain ⟨d, o, hsteps, horder⟩ := absorbEach_steps (matching_ascending s _) hu
  obtain ⟨-, -, -, -, -, -, hothers⟩ := absorbEach_frame hu
  simp only [mem_matching_header] at hsteps horder hothers
  refine ⟨d, o, fun i hi => ?_, fun i hi => ?_, fun i j hi hj => horder i hi j hj⟩
  · obtain ⟨-, habsorb, hinst, hsink⟩ := hsteps i hi
    rw [inst_ext hinsts, sink_ext hsinks]
    exact ⟨habsorb, hinst, hsink⟩
  · rw [inst_ext hinsts, sink_ext hsinks]
    exact hothers i hi

/-- With a lowest match PKT_PROCESS reports its absorb step, from the state it found (R254). -/
theorem exec_pktProcess_lowest {s t : State} {j : InstId} (hd : ReachesDispatch s) (hj : Matches s j)
    (hlow : ∀ i, Matches s i → j ≤ i) (h : exec .pktProcess s = .next t) :
    ∃ o, s.absorb j = some o ∧ t.result = ⟨o.code, o.ntc, o.flushed, some j⟩ ∧ t.hdr = o.hdr ∧ t.af = o.af ∧
      t.pesh = o.pesh := by
  have hmem := mem_matching_header.2 hj
  obtain ⟨hnil, -⟩ | ⟨k, rest, o, u, hcons, ho, -, rfl⟩ := exec_pktProcess_next hd h
  · simp [hnil] at hmem
  · obtain rfl := matching_head hcons hmem fun i hi => hlow i (mem_matching_header.1 hi)
    exact ⟨o, ho, rfl, rfl, rfl, rfl⟩

/-- Settles O42: the lowest match is the first to absorb, so its step starts from the state the command found. -/
theorem pktProcessReportsLowestMatch : Obligations.PktProcessReportsLowestMatch :=
  fun _ _ _ hd hj hlow h => exec_pktProcess_lowest hd hj hlow h

/-- Settles O45: with one match the absorb steps are that instance's alone. -/
theorem pktProcessWithOneMatchIsAbsorb : Obligations.PktProcessWithOneMatchIsAbsorb := by
  intro s j hd hj hone
  have hen : AbsorbEnabled s j := ⟨hd.pktLen, hj.inst, hj.active⟩
  have hmatching := matching_eq_singleton hj hone
  obtain ⟨hnil, -⟩ | ⟨k, rest, hcons, hcases⟩ := execPktProcess_dispatch_cases hd
  · simp [hmatching] at hnil
  obtain ⟨rfl, rfl⟩ : j = k ∧ [] = rest := by simpa [hmatching] using hcons
  obtain ⟨hnone, e⟩ | ⟨o, t, ho, ht, e⟩ := hcases
  · have hrefuses : s.absorb j = none := by
      cases ho : s.absorb j with
      | none => rfl
      | some o => simp [State.absorbEach, ho] at hnone
    exact e.trans (exec_asmAbsorb_refused hen hrefuses).symm
  · have hcommit : s.commit j o = t := by simpa [State.absorbEach, ho] using ht
    rw [← hcommit] at e
    exact e.trans (exec_asmAbsorb hen ho).symm

/-- The result codes of PKT_PROCESS that passes the packet check (R250). -/
theorem exec_pktProcess_code_mem {s t : State} (hfits : s.pktLen.toNat ≤ 188) (h : exec .pktProcess s = .next t) :
    t.result.code ∈ absorbCodes ++ [.invalidSync] := by
  obtain ⟨hlong, -⟩ | ⟨-, e⟩ | ⟨-, -, -, e⟩ | ⟨-, -, -, -, e⟩ | ⟨-, -, -, j, rest, -, ⟨-, e⟩ | ⟨o, u, ho, -, e⟩⟩ :=
    execPktProcess_cases s
  · omega
  all_goals replace h := e.symm.trans h; cases h
  · simp [absorbCodes]
  · simp
  · simp [absorbCodes]
  · exact List.mem_append_left _ (absorb_code_mem ho)

theorem packetDropped_frame (s : State) (h : HdrGroup) (c : ResultCode) : CommandFrame s (s.packetDropped h c) :=
  ⟨rfl, rfl, rfl, rfl, rfl, rfl⟩

theorem raiseIllegal_frame (s : State) (info : Option InstId) : CommandFrame s (s.raiseIllegal info) :=
  ⟨rfl, rfl, rfl, rfl, rfl, rfl⟩

/-- Writing the groups and `RESULT` of an absorb step is in every command's frame. -/
theorem CommandFrame.reported {s t : State} (h : CommandFrame s t) (o : AbsorbOut) (i : Option InstId) :
    CommandFrame s ((t.setGroups o).setResult o.code o.ntc o.flushed i) :=
  ⟨h.params, h.pkt, h.pktLen, h.refused, h.pending, h.readData⟩

theorem exec_pktProcess_frame {s t : State} (h : exec .pktProcess s = .next t) : CommandFrame s t := by
  obtain ⟨-, e⟩ | ⟨-, e⟩ | ⟨-, -, -, e⟩ | ⟨-, -, -, -, e⟩ | ⟨-, -, -, j, rest, -, ⟨-, e⟩ | ⟨o, u, -, hu, e⟩⟩ :=
    execPktProcess_cases s
  all_goals replace h := e.symm.trans h; cases h
  · exact raiseIllegal_frame ..
  · exact packetDropped_frame ..
  · exact packetDropped_frame ..
  · exact packetDropped_frame ..
  · exact (absorbEach_frame hu).1.reported o (some j)

/-- With room for a payload in every instance no absorb step refuses, so the command answers (R223, R256). -/
theorem exec_pktProcess_completes {s : State} (hroom : ∀ i, WoffRoom (s.inst i)) :
    ∃ t, exec .pktProcess s = .next t := by
  obtain ⟨-, e⟩ | ⟨-, e⟩ | ⟨-, -, -, e⟩ | ⟨-, -, -, -, e⟩ |
    ⟨-, -, -, j, rest, hcons, ⟨hnone, -⟩ | ⟨o, u, -, -, e⟩⟩ := execPktProcess_cases s
  case inr.inr.inr.inr.inl =>
    obtain ⟨i, -, hrefuses⟩ := (absorbEach_none_iff (hcons ▸ matching_ascending s _)).1 hnone
    obtain ⟨o, ho⟩ := absorb_isSome_of_room s.pktLen.toNat s.draws (ps := s.params) (p := s.pkt) (hroom i)
    simp [ho] at hrefuses
  all_goals exact ⟨_, e⟩

/-- Settles O44: without a refusal the command answers, in every command's frame and with one of its codes. -/
theorem pktProcessCompletes : Obligations.PktProcessCompletes := by
  intro s hfits hroom
  obtain ⟨t, h⟩ := exec_pktProcess_completes hroom
  exact ⟨t, h, exec_pktProcess_frame h, exec_pktProcess_code_mem hfits h⟩

end Sys2Proof.Machine
end

section
/-! What every command leaves alone, and which result groups it writes (10_state.md R23 to R30, R43 to R45). -/

namespace Sys2Proof.Machine

/-! ### The frame of a command -/

/-- A decode command is illegal, or writes result groups and `RESULT` only (R121, R149, R178). -/
theorem exec_decode_next {c : Instr} {s t : State}
    (hc : c = .tshDecode ∨ c = .afDecode ∨ ∃ ofs, c = .peshDecode ofs) (h : exec c s = .next t) :
    ∃ (g : HdrGroup) (a : AfGroup) (q : PeshGroup) (r : Result),
      t = { s with hdr := g, af := a, pesh := q, result := r } := by
  obtain rfl | rfl | ⟨ofs, rfl⟩ := hc
  · obtain ⟨-, e⟩ | ⟨-, e⟩ := execTshDecode_cases s <;> cases e.symm.trans h <;> exact ⟨_, _, _, _, rfl⟩
  · obtain ⟨-, e⟩ | ⟨-, e⟩ := execAfDecode_cases s <;> cases e.symm.trans h <;> exact ⟨_, _, _, _, rfl⟩
  · obtain ⟨-, e⟩ | ⟨-, e⟩ := execPeshDecode_cases ofs s <;> cases e.symm.trans h <;> exact ⟨_, _, _, _, rfl⟩

theorem raiseIllegal_instanceFrame (i : InstId) (s : State) (info : Option InstId) :
    InstanceFrame i s (s.raiseIllegal info) :=
  ⟨raiseIllegal_frame s info, fun _ _ => rfl, fun _ _ => rfl⟩

theorem setInst_instanceFrame (i : InstId) (s : State) (a : Assembler) (c : ResultCode) (n f : Bool)
    (info : Option InstId) : InstanceFrame i s ((s.setInst i a).setResult c n f info) :=
  ⟨⟨rfl, rfl, rfl, rfl, rfl, rfl⟩, fun _ hj => inst_setInst_ne s (Ne.symm hj) a, fun _ _ => rfl⟩

theorem exec_asmInit_instanceFrame {s t : State} {i : InstId} {pid : Pid} (h : exec (.asmInit i pid) s = .next t) :
    InstanceFrame i s t := by
  obtain ⟨-, e⟩ | ⟨-, e⟩ := execAsmInit_cases i pid s <;> cases e.symm.trans h
  · exact raiseIllegal_instanceFrame ..
  · exact setInst_instanceFrame ..

theorem exec_asmRelease_instanceFrame {s t : State} {i : InstId} (h : exec (.asmRelease i) s = .next t) :
    InstanceFrame i s t := by
  obtain ⟨-, e⟩ | ⟨-, -, e⟩ := execAsmRelease_cases i s <;> cases e.symm.trans h
  · exact raiseIllegal_instanceFrame ..
  · exact setInst_instanceFrame ..

theorem exec_asmAbsorb_instanceFrame {s t : State} {i : InstId} (h : exec (.asmAbsorb i) s = .next t) :
    InstanceFrame i s t := by
  obtain ⟨info, rfl⟩ | ⟨-, o, -, rfl⟩ := exec_asmAbsorb_next h
  · exact raiseIllegal_instanceFrame ..
  · exact absorbed_frame ..

theorem exec_frame {c : Instr} {s t : State} (h : exec c s = .next t) : CommandFrame s t := by
  have decoded (hc : c = .tshDecode ∨ c = .afDecode ∨ ∃ ofs, c = .peshDecode ofs) : CommandFrame s t := by
    obtain ⟨g, a, q, r, rfl⟩ := exec_decode_next hc h
    exact ⟨rfl, rfl, rfl, rfl, rfl, rfl⟩
  cases c with
  | tshDecode => exact decoded (.inl rfl)
  | afDecode => exact decoded (.inr (.inl rfl))
  | peshDecode ofs => exact decoded (.inr (.inr ⟨ofs, rfl⟩))
  | asmInit i pid => exact (exec_asmInit_instanceFrame h).command
  | asmAbsorb i => exact (exec_asmAbsorb_instanceFrame h).command
  | asmRelease i => exact (exec_asmRelease_instanceFrame h).command
  | pktProcess => exact exec_pktProcess_frame h

/-- Settles O47: every command keeps the frame, and a decode command writes groups and `RESULT` only. -/
theorem commandsLeaveHostStateAlone : Obligations.CommandsLeaveHostStateAlone := by
  refine fun c s t h => ⟨exec_frame h, fun hc => ?_⟩
  obtain ⟨g, a, q, r, rfl⟩ := exec_decode_next hc h
  exact ⟨rfl, rfl, rfl⟩

/-! ### The result groups (R30) -/

/-- A command that passes R274's checks does not end with `ILLEGAL_COMMAND`. -/
theorem exec_illegal_or_legal {c : Instr} {s t : State} (h : exec c s = .next t) :
    (∃ info, t = s.raiseIllegal info) ∨ t.result.code ≠ .illegalCommand := by
  have raised {info : Option InstId} (e : exec c s = .next (s.raiseIllegal info)) : ∃ info, t = s.raiseIllegal info :=
    ⟨info, (Host.Outcome.next.inj (e.symm.trans h)).symm⟩
  cases c with
  | tshDecode =>
    obtain ⟨-, e⟩ | ⟨hfits, -⟩ := execTshDecode_cases s
    · exact .inl (raised e)
    · exact .inr (execTshDecode_code_ne_illegal hfits h)
  | afDecode =>
    obtain ⟨-, e⟩ | ⟨hfits, -⟩ := execAfDecode_cases s
    · exact .inl (raised e)
    · exact .inr (execAfDecode_code_ne_illegal hfits h)
  | peshDecode ofs =>
    obtain ⟨-, e⟩ | ⟨hfits, -⟩ := execPeshDecode_cases ofs s
    · exact .inl (raised e)
    · exact .inr (execPeshDecode_code_ne_illegal hfits h)
  | asmInit i pid =>
    obtain ⟨-, e⟩ | ⟨hi, -⟩ := execAsmInit_cases i pid s
    · exact .inl (raised e)
    · exact .inr (execAsmInit_code_ne_illegal hi h)
  | asmAbsorb i =>
    obtain ⟨info, e⟩ | ⟨hen, -⟩ := exec_asmAbsorb_next h
    · exact .inl ⟨info, e⟩
    · exact .inr (execAsmAbsorb_code_ne_illegal hen h)
  | asmRelease i =>
    obtain ⟨-, e⟩ | ⟨hi, hactive, -⟩ := execAsmRelease_cases i s
    · exact .inl (raised e)
    · exact .inr (execAsmRelease_code_ne_illegal hi hactive h)
  | pktProcess =>
    obtain hlong | hfits := Nat.lt_or_ge 188 s.pktLen.toNat
    · exact .inl (raised (execPktProcess_tooLong hlong))
    · exact .inr (execPktProcess_code_ne_illegal hfits h)

section

variable {s t : State} (hlegal : t.result.code ≠ .illegalCommand)
include hlegal

theorem exec_tshDecode_writes (h : exec .tshDecode s = .next t) :
    t.hdr = tshDecode s.pkt s.pktLen.toNat ∧ t.af = s.af ∧ t.pesh = s.pesh ∧
      t.result = ⟨t.hdr.status, false, false, none⟩ := by
  obtain ⟨-, e⟩ | ⟨-, e⟩ := execTshDecode_cases s <;> cases e.symm.trans h
  · exact absurd rfl hlegal
  · exact ⟨rfl, rfl, rfl, rfl⟩

theorem exec_afDecode_writes (h : exec .afDecode s = .next t) :
    t.hdr = s.hdr ∧ t.af = afDecode s.pkt s.pktLen.toNat ∧ t.pesh = s.pesh ∧
      t.result = ⟨t.af.status, false, false, none⟩ := by
  obtain ⟨-, e⟩ | ⟨-, e⟩ := execAfDecode_cases s <;> cases e.symm.trans h
  · exact absurd rfl hlegal
  · exact ⟨rfl, rfl, rfl, rfl⟩

theorem exec_peshDecode_writes {ofs : Byte} (h : exec (.peshDecode ofs) s = .next t) :
    t.hdr = s.hdr ∧ t.af = s.af ∧ t.pesh = peshDecode s.pkt ofs.toNat (s.pktLen.toNat - ofs.toNat) ∧
      t.result = ⟨t.pesh.status, false, false, none⟩ := by
  obtain ⟨-, e⟩ | ⟨-, e⟩ := execPeshDecode_cases ofs s <;> cases e.symm.trans h
  · exact absurd rfl hlegal
  · exact ⟨rfl, rfl, rfl, rfl⟩

theorem exec_asmInit_writes {i : InstId} {pid : Pid} (h : exec (.asmInit i pid) s = .next t) :
    t.hdr = s.hdr ∧ t.af = s.af ∧ t.pesh = s.pesh ∧ t.result = ⟨.ok, false, false, some i⟩ := by
  obtain ⟨-, e⟩ | ⟨-, e⟩ := execAsmInit_cases i pid s <;> cases e.symm.trans h
  · exact absurd rfl hlegal
  · exact ⟨rfl, rfl, rfl, rfl⟩

theorem exec_asmRelease_writes {i : InstId} (h : exec (.asmRelease i) s = .next t) :
    t.hdr = s.hdr ∧ t.af = s.af ∧ t.pesh = s.pesh ∧ t.result = ⟨.ok, false, false, some i⟩ := by
  obtain ⟨-, e⟩ | ⟨-, -, e⟩ := execAsmRelease_cases i s <;> cases e.symm.trans h
  · exact absurd rfl hlegal
  · exact ⟨rfl, rfl, rfl, rfl⟩

theorem exec_asmAbsorb_writes {i : InstId} (h : exec (.asmAbsorb i) s = .next t) :
    AbsorbGroups s t i ∧ t.result.inst = some i := by
  obtain ⟨info, rfl⟩ | ⟨hen, o, ho, rfl⟩ := exec_asmAbsorb_next h
  · exact absurd rfl hlegal
  · exact ⟨(absorb_groups hen ho rfl rfl rfl).1, rfl⟩

end

/-- A PKT_PROCESS whose packet no instance absorbs is illegal or drops it, with AF and PESH not run (R250). -/
theorem exec_pktProcess_dropped {s t : State} (hnone : ¬ ReachesDispatch s ∨ ∀ i, ¬ Matches s i)
    (h : exec .pktProcess s = .next t) :
    t = s.raiseIllegal none ∨ ∃ c, t = s.packetDropped (tshDecode s.pkt s.pktLen.toNat) c := by
  obtain ⟨-, e⟩ | ⟨hshort, -⟩ | ⟨-, -, -, e⟩ | ⟨-, -, -, -, e⟩ | ⟨hfull, hfits, hsync, j, rest, hcons, -⟩ :=
    execPktProcess_cases s
  · exact .inl (Host.Outcome.next.inj (e.symm.trans h)).symm
  · exact .inr ⟨_, (Host.Outcome.next.inj ((execPktProcess_short hshort).symm.trans h)).symm⟩
  · exact .inr ⟨_, (Host.Outcome.next.inj (e.symm.trans h)).symm⟩
  · exact .inr ⟨_, (Host.Outcome.next.inj (e.symm.trans h)).symm⟩
  · have hj : Matches s j := mem_matching_header.1 (by simp [hcons])
    obtain hd | hm := hnone
    · exact absurd (reachesDispatch_of_syncOk hfits hfull hsync) hd
    · exact absurd hj (hm j)

/-- The lowest match's absorb step writes the groups (R254). -/
theorem exec_pktProcess_writes {s t : State} {j : InstId} (hd : ReachesDispatch s) (hj : Matches s j)
    (hlow : ∀ i, Matches s i → j ≤ i) (h : exec .pktProcess s = .next t) :
    AbsorbGroups s t j ∧ t.result.inst = some j := by
  obtain ⟨o, ho, hresult, hhdr, haf, hpesh⟩ := exec_pktProcess_lowest hd hj hlow h
  exact ⟨(absorb_groups ⟨hd.pktLen, hj.inst, hj.active⟩ ho hhdr haf hpesh).1, by rw [hresult]⟩

/-- Settles O46: an illegal command writes `RESULT` only; each other command's groups are its own lemma's. -/
theorem commandsWriteTheirGroupsOnly : Obligations.CommandsWriteTheirGroupsOnly := by
  intro c s t h
  refine ⟨fun hillegal => ?illegal, fun hlegal => ⟨?tsh, ?af, ?pesh, ?lifecycle, ?absorb, ?process⟩⟩
  case illegal =>
    obtain ⟨info, rfl⟩ | hlegal := exec_illegal_or_legal h
    · rfl
    · exact absurd hillegal hlegal
  case tsh => rintro rfl; exact exec_tshDecode_writes hlegal h
  case af => rintro rfl; exact exec_afDecode_writes hlegal h
  case pesh => rintro ofs rfl; exact exec_peshDecode_writes hlegal h
  case lifecycle =>
    rintro i (rfl | ⟨pid, rfl⟩)
    · exact exec_asmRelease_writes hlegal h
    · exact exec_asmInit_writes hlegal h
  case absorb => rintro i rfl; exact exec_asmAbsorb_writes hlegal h
  case process =>
    rintro rfl
    refine ⟨fun hnone => ?_, fun j hd hj hlow => exec_pktProcess_writes hd hj hlow h⟩
    obtain rfl | ⟨code, rfl⟩ := exec_pktProcess_dropped hnone h
    · exact absurd rfl hlegal
    · exact ⟨rfl, rfl, rfl, rfl⟩

end Sys2Proof.Machine
end

section
/-! A command on one instance depends on that instance's registers only (43_pes_assembler.md R220). -/

namespace Sys2Proof.Machine

/-- Two states agree on all that a command on instance `i` reads. -/
structure SameInput (i : InstId) (s s' : State) : Prop where
  params : s'.params = s.params
  pkt : s'.pkt = s.pkt
  pktLen : s'.pktLen = s.pktLen
  draws : s'.draws = s.draws
  inst : s'.inst i = s.inst i

/-- From `s` to `t` and from `s'` to `t'` the same has happened to instance `i`, its sink and `RESULT`. -/
def SameEffect (i : InstId) (s t s' t' : State) : Prop :=
  t'.inst i = t.inst i ∧ t'.result = t.result ∧
    ∃ w : List (List Byte), t.sink i = s.sink i ++ w ∧ t'.sink i = s'.sink i ++ w

theorem raiseIllegal_sameEffect {i : InstId} {s s' : State} (h : SameInput i s s') (info : Option InstId) :
    SameEffect i s (s.raiseIllegal info) s' (s'.raiseIllegal info) :=
  ⟨h.inst, rfl, [], (List.append_nil _).symm, (List.append_nil _).symm⟩

theorem setInst_sameEffect (i : InstId) (s s' : State) (a : Assembler) (c : ResultCode) (n f : Bool)
    (info : Option InstId) :
    SameEffect i s ((s.setInst i a).setResult c n f info) s' ((s'.setInst i a).setResult c n f info) :=
  ⟨(inst_setInst_self s' i a).trans (inst_setInst_self s i a).symm, rfl, [], (List.append_nil _).symm,
    (List.append_nil _).symm⟩

theorem absorbed_sameEffect (i : InstId) (s s' : State) (o : AbsorbOut) :
    SameEffect i s (s.absorbed i o) s' (s'.absorbed i o) := by
  refine ⟨by rw [absorbed_inst_self, absorbed_inst_self], rfl, if o.sink = [] then [] else [o.sink], ?_, ?_⟩ <;>
    cases hsink : o.sink <;> simp [absorbed_sink, hsink]

theorem exec_asmInit_sameEffect {i : InstId} {pid : Pid} {s s' t : State} (hin : SameInput i s s')
    (h : exec (.asmInit i pid) s = .next t) : ∃ t', exec (.asmInit i pid) s' = .next t' ∧ SameEffect i s t s' t' := by
  obtain ⟨habsent, e⟩ | ⟨hi, e⟩ := execAsmInit_cases i pid s <;> cases e.symm.trans h
  · exact ⟨_, execAsmInit_noInstance pid (by rwa [hin.params]), raiseIllegal_sameEffect hin _⟩
  · exact ⟨_, execAsmInit_created pid (by rwa [hin.params]), setInst_sameEffect ..⟩

theorem exec_asmRelease_sameEffect {i : InstId} {s s' t : State} (hin : SameInput i s s')
    (h : exec (.asmRelease i) s = .next t) : ∃ t', exec (.asmRelease i) s' = .next t' ∧ SameEffect i s t s' t' := by
  obtain ⟨hillegal, e⟩ | ⟨hi, hactive, e⟩ := execAsmRelease_cases i s <;> cases e.symm.trans h
  · exact ⟨_, execAsmRelease_illegal (by rwa [hin.params, hin.inst]), raiseIllegal_sameEffect hin _⟩
  · exact ⟨_, execAsmRelease_released (by rwa [hin.params]) (by rwa [hin.inst]), setInst_sameEffect ..⟩

theorem exec_asmAbsorb_sameEffect {i : InstId} {s s' t : State} (hin : SameInput i s s')
    (h : exec (.asmAbsorb i) s = .next t) : ∃ t', exec (.asmAbsorb i) s' = .next t' ∧ SameEffect i s t s' t' := by
  obtain ⟨hlong, e⟩ | ⟨hfits, hillegal, e⟩ | ⟨-, -, e⟩ | ⟨hen, o, ho, e⟩ := execAsmAbsorb_cases i s <;>
    cases e.symm.trans h
  · exact ⟨_, execAsmAbsorb_tooLong (by rwa [hin.pktLen]), raiseIllegal_sameEffect hin _⟩
  · exact ⟨_, execAsmAbsorb_illegal (by rwa [hin.pktLen]) (by rwa [hin.params, hin.inst]),
      raiseIllegal_sameEffect hin _⟩
  · have hen' : AbsorbEnabled s' i :=
      ⟨by rw [hin.pktLen]; exact hen.pktLen, by rw [hin.params]; exact hen.inst, by rw [hin.inst]; exact hen.active⟩
    have ho' : s'.absorb i = some o := by rw [absorb_congr hin.params hin.pkt hin.pktLen hin.draws hin.inst, ho]
    exact ⟨_, exec_asmAbsorb hen' ho', absorbed_sameEffect ..⟩

/-- Settles O48: the frame and the same effect, for each of the three commands on an instance. -/
theorem instancesAreIndependent : Obligations.InstancesAreIndependent := by
  intro s t i c hc h
  obtain rfl | rfl | ⟨pid, rfl⟩ := hc
  · exact ⟨exec_asmAbsorb_instanceFrame h, fun s' hp hk hl hd hi => exec_asmAbsorb_sameEffect ⟨hp, hk, hl, hd, hi⟩ h⟩
  · exact ⟨exec_asmRelease_instanceFrame h, fun s' hp hk hl hd hi =>
      exec_asmRelease_sameEffect ⟨hp, hk, hl, hd, hi⟩ h⟩
  · exact ⟨exec_asmInit_instanceFrame h, fun s' hp hk hl hd hi => exec_asmInit_sameEffect ⟨hp, hk, hl, hd, hi⟩ h⟩

end Sys2Proof.Machine
end

section
/-! The absorb step reads no sync byte, TEI, TP or TSC (40_ts_header.md R122, R125). -/

namespace Sys2Proof.Machine

/-! ### What an absorb step reads of two packets that agree on the acted-on bits -/

section

variable {p q : Packet} (h : SameActedOn p q)
include h

theorem SameActedOn.field_eq {off : Nat} (hoff : 4 ≤ off) (n w : Nat) : q.field off n w = p.field off n w := by
  have hbe : q.be off n = p.be off n := be_congr fun k _ => (h.bytes (off + k) (by omega)).symm
  rw [Packet.field, hbe, Packet.field]

theorem SameActedOn.afc_eq : q.afc = p.afc := by
  rw [← hdrAfc_field, ← hdrAfc_field, h.afc]

theorem SameActedOn.afSpliceAt_eq : afSpliceAt q = afSpliceAt p := by
  rw [afSpliceAt, ← h.bytes 5 (by decide), afSpliceAt]

theorem SameActedOn.afPrivateAt_eq : afPrivateAt q = afPrivateAt p := by
  rw [afPrivateAt, h.afSpliceAt_eq, ← h.bytes 5 (by decide), afPrivateAt]

theorem SameActedOn.afExtensionAt_eq : afExtensionAt q = afExtensionAt p := by
  have hpos : 4 ≤ afPrivateAt p := by simp only [afPrivateAt, afSpliceAt]; omega
  rw [afExtensionAt, h.afPrivateAt_eq, ← h.bytes 5 (by decide), ← h.bytes _ hpos, afExtensionAt]

theorem SameActedOn.afClaimed_eq : afClaimed q = afClaimed p := by
  have hprivate : 4 ≤ afPrivateAt p := by simp only [afPrivateAt, afSpliceAt]; omega
  have hextension : 4 ≤ afExtensionAt p := hprivate.trans (Nat.le_add_right ..)
  simp only [afClaimed, h.afPrivateAt_eq, h.afExtensionAt_eq, ← h.bytes 5 (by decide), ← h.bytes _ hprivate,
    ← h.bytes _ hextension]

theorem SameActedOn.afReported_eq (len : Byte) : afReported q len = afReported p len := by
  have hsplice : 4 ≤ afSpliceAt p := by simp only [afSpliceAt]; omega
  have hprivate : 4 ≤ afPrivateAt p := hsplice.trans (Nat.le_add_right ..)
  have hextension : 4 ≤ afExtensionAt p := hprivate.trans (Nat.le_add_right ..)
  have hopcr : 4 ≤ afOpcrAt p := by simp only [afOpcrAt]; omega
  have hopcrAt : afOpcrAt q = afOpcrAt p := by rw [afOpcrAt, ← h.bytes 5 (by decide), afOpcrAt]
  simp only [afReported, hopcrAt, h.afSpliceAt_eq, h.afPrivateAt_eq, h.afExtensionAt_eq, h.afClaimed_eq,
    h.field_eq hopcr, h.field_eq (show 4 ≤ 6 by decide), ← h.bytes 5 (by decide), ← h.bytes _ hsplice,
    ← h.bytes _ hprivate, ← h.bytes _ hextension]

theorem SameActedOn.afDecode_eq (n : Nat) : afDecode q n = afDecode p n := by
  have hbody (len : Byte) : afBody q len = afBody p len := by
    rw [afBody_eq, h.afClaimed_eq, h.afReported_eq, afBody_eq]
  rw [afDecode, h.afc_eq, ← h.bytes 4 (by decide), hbody, afDecode]

theorem SameActedOn.absorbAf_eq : absorbAf q (headerWord q) = absorbAf p (headerWord p) := by
  rw [absorbAf, ← h.afc, h.afDecode_eq, absorbAf]

theorem SameActedOn.afAccepted_iff : AfAccepted q ↔ AfAccepted p := by
  rw [AfAccepted, ← h.afc, h.absorbAf_eq, AfAccepted]

theorem SameActedOn.absorbOffset_eq : absorbOffset q = absorbOffset p := by
  rw [absorbOffset, ← h.afc, h.absorbAf_eq, absorbOffset]

theorem SameActedOn.absorbSize_eq : absorbSize q = absorbSize p := by
  rw [absorbSize, ← h.afc, h.absorbOffset_eq, absorbSize]

theorem SameActedOn.append_eq {off : Nat} (hoff : 4 ≤ off) (size : Nat) (a : Assembler) :
    append q off size a = append p off size a := by
  have hbytes : q.bytes off size = p.bytes off size := bytes_congr fun k _ => (h.bytes (off + k) (by omega)).symm
  rw [append, hbytes, append]

theorem SameActedOn.start_eq (ps : Params) {off : Nat} (hoff : 4 ≤ off) (size : Nat) (a : Assembler) :
    start ps q off size a = start ps p off size a := by
  have hpesh : peshDecode q off size = peshDecode p off size :=
    peshDecode_congr fun k _ => (h.bytes (off + k) (by omega)).symm
  simp only [start, hpesh, h.append_eq hoff]

theorem SameActedOn.stateMachine_eq (ps : Params) (pusi : Bool) {off : Nat} (hoff : 4 ≤ off) (size d : Nat)
    (a : Assembler) : stateMachine ps q pusi off size d a = stateMachine ps p pusi off size d a := by
  simp only [stateMachine, stepStart, stepFinishStart, stepContinue, h.start_eq ps hoff, h.append_eq hoff]

end

/-! ### The absorb step -/

/-- An absorb step's answer with another HDR group. -/
def AbsorbOut.withHdr (o : AbsorbOut) (g : HdrGroup) : AbsorbOut := { o with hdr := g }

/-- The absorb steps of the two packets differ in the HDR group only. -/
theorem SameActedOn.absorb_eq {p q : Packet} (h : SameActedOn p q) (ps : Params) (n d : Nat) (a : Assembler) :
    absorb ps q n d a = (absorb ps p n d a).map fun o => o.withHdr (tshDecode q n) := by
  obtain ⟨h4, e⟩ | ⟨h4, hpid, e⟩ | ⟨h4, hpart, hpid, e⟩ | ⟨hfull, hpid, hbad, e⟩ | ⟨hfull, hpid, haf, hcc, e⟩ |
    ⟨hfull, hpid, haf, hcc, e⟩ := absorb_cases ps p n d a <;> rw [e]
  · rw [absorb_short h4, tshDecode_short h4]
    rfl
  · rw [absorb_otherPid h4 (by rwa [← h.pid])]
    rfl
  · rw [absorb_partial h4 (by rwa [← h.pid]) hpart]
    rfl
  · rw [absorb_badAf hfull (by rwa [← h.pid]) (mt h.afAccepted_iff.1 hbad), h.absorbAf_eq]
    rfl
  · rw [absorb_lost hfull (by rwa [← h.pid]) (h.afAccepted_iff.2 haf) (by rwa [← h.cc]), h.absorbAf_eq, ← h.cc]
    rfl
  · have hoff : 4 ≤ absorbOffset p := payloadOffset_ge ..
    rw [absorb_stepped hfull (by rwa [← h.pid]) (h.afAccepted_iff.2 haf) (by rwa [← h.cc]), h.absorbOffset_eq,
      h.absorbSize_eq, h.absorbAf_eq, ← h.cc, ← h.pusi, h.stateMachine_eq _ _ hoff, Option.map_map]
    rfl

theorem SameActedOn.absorb_withPkt {s : State} {q : Packet} (h : SameActedOn s.pkt q) (i : InstId) :
    State.absorb { s with pkt := q } i = (s.absorb i).map fun o => o.withHdr (tshDecode q s.pktLen.toNat) :=
  h.absorb_eq s.params s.pktLen.toNat s.draws (s.inst i)

theorem commit_withPkt (s : State) (q : Packet) (i : InstId) (o : AbsorbOut) (g : HdrGroup) :
    State.commit { s with pkt := q } i (o.withHdr g) = { s.commit i o with pkt := q } := by
  simp only [State.commit, State.sinkWrite, AbsorbOut.withHdr]
  cases o.sink <;> rfl

theorem SameActedOn.absorbEach_withPkt {s : State} {q : Packet} (h : SameActedOn s.pkt q) (L : List InstId) :
    State.absorbEach { s with pkt := q } L = (s.absorbEach L).map fun t => { t with pkt := q } := by
  induction L generalizing s with
  | nil => rfl
  | cons i is ih =>
    simp only [State.absorbEach, h.absorb_withPkt i]
    cases s.absorb i with
    | none => rfl
    | some o =>
      simp only [Option.map_some, commit_withPkt]
      exact ih (by rwa [commit_pkt])

/-! ### The commands -/

/-- The two packets leave the same report, but for the HDR group. -/
theorem sameButHeader_reported (t : State) (q : Packet) (o : AbsorbOut) (g : HdrGroup) (i : Option InstId) :
    SameButHeader ((t.setGroups o).setResult o.code o.ntc o.flushed i)
      ((State.setGroups { t with pkt := q } (o.withHdr g)).setResult o.code o.ntc o.flushed i) :=
  ⟨rfl, rfl, rfl, rfl, rfl, rfl, rfl, rfl⟩

theorem sameButHeader_raiseIllegal (s : State) (q : Packet) (info : Option InstId) :
    SameButHeader (s.raiseIllegal info) (State.raiseIllegal { s with pkt := q } info) :=
  ⟨rfl, rfl, rfl, rfl, rfl, rfl, rfl, rfl⟩

theorem sameButHeader_packetDropped (s : State) (q : Packet) (g g' : HdrGroup) (c : ResultCode) :
    SameButHeader (s.packetDropped g c) (State.packetDropped { s with pkt := q } g' c) :=
  ⟨rfl, rfl, rfl, rfl, rfl, rfl, rfl, rfl⟩

theorem SameActedOn.exec_asmAbsorb {s t : State} {q : Packet} (h : SameActedOn s.pkt q) {i : InstId}
    (ht : exec (.asmAbsorb i) s = .next t) :
    ∃ t', exec (.asmAbsorb i) { s with pkt := q } = .next t' ∧ SameButHeader t t' := by
  obtain ⟨hlong, e⟩ | ⟨hfits, hillegal, e⟩ | ⟨-, -, e⟩ | ⟨hen, o, ho, e⟩ := execAsmAbsorb_cases i s <;>
    cases e.symm.trans ht
  · exact ⟨_, execAsmAbsorb_tooLong hlong, sameButHeader_raiseIllegal ..⟩
  · exact ⟨_, execAsmAbsorb_illegal hfits hillegal, sameButHeader_raiseIllegal ..⟩
  · have hen' : AbsorbEnabled { s with pkt := q } i := ⟨hen.pktLen, hen.inst, hen.active⟩
    have ho' := h.absorb_withPkt i
    rw [ho] at ho'
    refine ⟨_, Machine.exec_asmAbsorb hen' ho', ?_⟩
    rw [commit_withPkt]
    exact sameButHeader_reported ..

/-- At the dispatch with a match, the matching instances' absorb steps give the command's state (R250). -/
theorem execPktProcess_matched {s u : State} {j : InstId} {rest : List InstId} {o : AbsorbOut}
    (hd : ReachesDispatch s) (hm : s.matching (hdrPid (headerWord s.pkt)) = j :: rest) (ho : s.absorb j = some o)
    (hu : s.absorbEach (j :: rest) = some u) :
    execPktProcess s = .next ((u.setGroups o).setResult o.code o.ntc o.flushed (some j)) := by
  obtain ⟨hnil, -⟩ | ⟨k, rest', hcons, ⟨hnone, -⟩ | ⟨o', u', ho', hu', e⟩⟩ := execPktProcess_dispatch_cases hd
  · simp [hm] at hnil
  · simp [← hcons, hm, hu] at hnone
  · obtain ⟨rfl, rfl⟩ : j = k ∧ rest = rest' := by simpa [hm] using hcons
    obtain rfl := Option.some.inj (ho.symm.trans ho')
    obtain rfl := Option.some.inj (hu.symm.trans hu')
    exact e

theorem SameActedOn.exec_pktProcess {s t : State} {q : Packet} (h : SameActedOn s.pkt q)
    (hsync : q.byte 0 = s.pkt.byte 0) (ht : exec .pktProcess s = .next t) :
    ∃ t', exec .pktProcess { s with pkt := q } = .next t' ∧ SameButHeader t t' := by
  have hsyncOk : syncOkOf (headerWord q) = syncOkOf (headerWord s.pkt) := by
    rw [syncOkOf_headerWord, hsync, syncOkOf_headerWord]
  have hmatching : State.matching { s with pkt := q } (hdrPid (headerWord q)) =
      s.matching (hdrPid (headerWord s.pkt)) := by rw [← h.pid]; rfl
  obtain ⟨hlong, e⟩ | ⟨hshort, e⟩ | ⟨hfull, hfits, hbad, e⟩ | ⟨hfull, hfits, hok, hnil, e⟩ |
    ⟨hfull, hfits, hok, j, rest, hcons, ⟨-, e⟩ | ⟨o, u, ho, hu, e⟩⟩ := execPktProcess_cases s <;>
    cases e.symm.trans ht
  · exact ⟨_, execPktProcess_tooLong hlong, sameButHeader_raiseIllegal ..⟩
  · exact ⟨_, execPktProcess_short hshort, sameButHeader_packetDropped ..⟩
  · exact ⟨_, execPktProcess_badSync hfits hfull (hsyncOk.trans hbad), sameButHeader_packetDropped ..⟩
  · have hd : ReachesDispatch { s with pkt := q } := reachesDispatch_of_syncOk hfits hfull (hsyncOk.trans hok)
    exact ⟨_, execPktProcess_untracked hd (matching_header_eq_nil_iff.1 (hmatching.trans hnil)),
      sameButHeader_packetDropped ..⟩
  · have hd : ReachesDispatch { s with pkt := q } := reachesDispatch_of_syncOk hfits hfull (hsyncOk.trans hok)
    have ho' := h.absorb_withPkt j
    have hu' := h.absorbEach_withPkt (j :: rest)
    rw [ho] at ho'
    rw [hu] at hu'
    exact ⟨_, execPktProcess_matched hd (hmatching.trans hcons) ho' hu', sameButHeader_reported ..⟩

/-- Settles O49: the two packets' absorb steps differ in the HDR group only, and so do the commands made of them. -/
theorem unusedHeaderBitsAreNotActedOn : Obligations.UnusedHeaderBitsAreNotActedOn :=
  fun _ _ h => ⟨fun _ _ ht => h.exec_asmAbsorb ht, fun hsync _ ht => h.exec_pktProcess hsync ht⟩

end Sys2Proof.Machine
end

section
/-! Sinks over steps (10_state.md R43, 20_memory.md R66), and the mark of a refused run (10_state.md R44). -/

namespace Sys2Proof.Machine

/-- Each sink is as before or has one more write, which is not empty. -/
def SinksGrow (s t : State) : Prop :=
  ∀ i, t.sink i = s.sink i ∨ ∃ w, w ≠ [] ∧ t.sink i = s.sink i ++ [w]

theorem sinksGrow_of_eq {s t : State} (h : t.sinks = s.sinks) : SinksGrow s t :=
  fun i => .inl (sink_ext h i)

theorem absorbed_sinksGrow (s : State) (i : InstId) (o : AbsorbOut) : SinksGrow s (s.absorbed i o) := by
  intro j
  rw [absorbed_sink]
  split
  · next hw => exact .inr ⟨o.sink, hw.2, rfl⟩
  · exact .inl rfl

/-- Each matching instance's sink gets its own step's write, and no other sink changes (R252). -/
theorem absorbEach_sinksGrow {s t : State} {L : List InstId} (hL : L.Pairwise (· < ·))
    (h : s.absorbEach L = some t) : SinksGrow s t := by
  obtain ⟨d, o, hsteps, -⟩ := absorbEach_steps hL h
  obtain ⟨-, -, -, -, -, -, hothers⟩ := absorbEach_frame h
  intro i
  by_cases hi : i ∈ L
  · obtain ⟨-, -, -, hsink⟩ := hsteps i hi
    by_cases hw : (o i).sink = []
    · exact .inl (by rw [hsink, if_pos hw])
    · exact .inr ⟨(o i).sink, hw, by rw [hsink, if_neg hw]⟩
  · exact .inl (hothers i hi).2

theorem exec_pktProcess_sinksGrow {s t : State} (h : exec .pktProcess s = .next t) : SinksGrow s t := by
  by_cases hd : ReachesDispatch s
  · obtain ⟨u, hu, -, hsinks⟩ := exec_pktProcess_absorbEach hd h
    intro i
    rw [sink_ext hsinks]
    exact absorbEach_sinksGrow (matching_ascending s _) hu i
  · obtain rfl | ⟨c, rfl⟩ := exec_pktProcess_dropped (.inl hd) h
    · exact sinksGrow_of_eq rfl
    · exact sinksGrow_of_eq rfl

theorem exec_sinksGrow {c : Instr} {s t : State} (h : exec c s = .next t) : SinksGrow s t := by
  have decoded (hc : c = .tshDecode ∨ c = .afDecode ∨ ∃ ofs, c = .peshDecode ofs) : SinksGrow s t := by
    obtain ⟨g, a, q, r, rfl⟩ := exec_decode_next hc h
    exact sinksGrow_of_eq rfl
  cases c with
  | tshDecode => exact decoded (.inl rfl)
  | afDecode => exact decoded (.inr (.inl rfl))
  | peshDecode ofs => exact decoded (.inr (.inr ⟨ofs, rfl⟩))
  | asmInit i pid =>
    obtain ⟨-, e⟩ | ⟨-, e⟩ := execAsmInit_cases i pid s <;> cases e.symm.trans h <;> exact sinksGrow_of_eq rfl
  | asmAbsorb i =>
    obtain ⟨info, rfl⟩ | ⟨-, o, -, rfl⟩ := exec_asmAbsorb_next h
    · exact sinksGrow_of_eq rfl
    · exact absorbed_sinksGrow s i o
  | asmRelease i =>
    obtain ⟨-, e⟩ | ⟨-, -, e⟩ := execAsmRelease_cases i s <;> cases e.symm.trans h <;> exact sinksGrow_of_eq rfl
  | pktProcess => exact exec_pktProcess_sinksGrow h

theorem hostStore_frame (s : State) (width : Width) (addr : Nat) (data : Word) :
    (s.hostStore width addr data).sinks = s.sinks ∧ (s.hostStore width addr data).refused = s.refused := by
  obtain e | ⟨-, -, e⟩ | ⟨-, k, -, -, e⟩ := hostStore_cases s width addr data <;> rw [e] <;> exact ⟨rfl, rfl⟩

/-- An access runs a command, or changes neither the sinks nor the mark (R72, R300). -/
theorem perform_next {x : HostAccess} {s t : State} (h : perform x s = .next t) :
    (∃ c, exec c s = .next t) ∨ t.sinks = s.sinks ∧ t.refused = s.refused := by
  obtain ⟨w, -, e⟩ | ⟨width, addr, data, -, -, e⟩ | ⟨width, addr, -, e⟩ | ⟨-, e⟩ := perform_cases x s
  all_goals replace h := e.symm.trans h
  · obtain ⟨_, -, ei⟩ | ⟨c, -, ei⟩ := issue_cases w s
    · cases ei.symm.trans h
      exact .inr ⟨rfl, rfl⟩
    · exact .inl ⟨c, ei.symm.trans h⟩
  · cases h
    exact .inr (hostStore_frame ..)
  · cases h
    exact .inr ⟨rfl, rfl⟩
  · cases h
    exact .inr ⟨rfl, rfl⟩

/-- A step runs a command on the state with an access taken off the queue, or changes neither the sinks nor the
mark. -/
theorem step_next {s t : State} (h : step s = .next t) :
    (∃ c rest, exec c { s with pending := rest } = .next t) ∨ t.sinks = s.sinks ∧ t.refused = s.refused := by
  obtain ⟨-, e⟩ | ⟨-, -, e⟩ | ⟨-, x, rest, -, e⟩ := step_cases s
  all_goals replace h := e.symm.trans h
  · cases h
  · cases h
    exact .inr ⟨rfl, rfl⟩
  · obtain ⟨c, hc⟩ | hframe := perform_next h
    · exact .inl ⟨c, rest, hc⟩
    · exact .inr hframe

/-- Settles O50: only a command writes a sink. -/
theorem sinksOnlyGrowByWholeWrites : Obligations.SinksOnlyGrowByWholeWrites := by
  intro s t h
  obtain ⟨c, rest, hc⟩ | ⟨hsinks, -⟩ := step_next h
  · exact (exec_sinksGrow hc :)
  · exact sinksGrow_of_eq hsinks

/-! ### The mark -/

theorem step_next_refused {s t : State} (h : step s = .next t) : t.refused = s.refused := by
  obtain ⟨c, rest, hc⟩ | ⟨-, hrefused⟩ := step_next h
  · exact (exec_frame hc).refused
  · exact hrefused

/-- A command is refused for `WOFF` only (R223, R256). -/
theorem exec_refused {c : Instr} {s : State} {r : Refusal} (h : exec c s = .refused r) : r = .woffOverflow := by
  cases c with
  | tshDecode => obtain ⟨-, e⟩ | ⟨-, e⟩ := execTshDecode_cases s <;> cases e.symm.trans h
  | afDecode => obtain ⟨-, e⟩ | ⟨-, e⟩ := execAfDecode_cases s <;> cases e.symm.trans h
  | peshDecode ofs => obtain ⟨-, e⟩ | ⟨-, e⟩ := execPeshDecode_cases ofs s <;> cases e.symm.trans h
  | asmInit i pid => obtain ⟨-, e⟩ | ⟨-, e⟩ := execAsmInit_cases i pid s <;> cases e.symm.trans h
  | asmAbsorb i => exact ((absorbRefusesExactlyAtLimit s i r).1 h).1
  | asmRelease i => obtain ⟨-, e⟩ | ⟨-, -, e⟩ := execAsmRelease_cases i s <;> cases e.symm.trans h
  | pktProcess => exact ((pktProcessRefusesWithAnyMatch s r).1 h).1

theorem perform_refused {x : HostAccess} {s : State} {r : Refusal} (h : perform x s = .refused r) :
    r = .woffOverflow := by
  obtain ⟨w, -, e⟩ | ⟨width, addr, data, -, -, e⟩ | ⟨width, addr, -, e⟩ | ⟨-, e⟩ := perform_cases x s
  all_goals replace h := e.symm.trans h
  · obtain ⟨_, -, ei⟩ | ⟨c, -, ei⟩ := issue_cases w s
    · cases ei.symm.trans h
    · exact exec_refused (ei.symm.trans h)
  all_goals cases h

theorem step_refused {s : State} {r : Refusal} (hs : s.refused = false) (h : step s = .refused r) :
    r = .woffOverflow := by
  obtain ⟨hmarked, -⟩ | ⟨-, -, e⟩ | ⟨-, x, rest, -, e⟩ := step_cases s
  · simp [hs] at hmarked
  · cases e.symm.trans h
  · exact perform_refused (e.symm.trans h)

/-- A step seen with the mark sets it exactly when the step is refused (R44). -/
theorem markedStep_refused_iff {s : State} (hs : s.refused = false) :
    (markedStep s).refused = true ↔ step s = .refused .woffOverflow := by
  unfold markedStep
  cases h : step s with
  | next t => simp [step_next_refused h, hs]
  | fault f => cases f
  | refused r => simp [step_refused hs h, State.markRefused]

theorem markedStep_refused {s : State} (hs : s.refused = true) : (markedStep s).refused = true := by
  simp [markedStep, step, hs, State.markRefused]

theorem markedRun_refused (n : Nat) {s : State} (hs : s.refused = true) : (markedRun n s).refused = true := by
  induction n generalizing s with
  | zero => exact hs
  | succ n ih => exact ih (markedStep_refused hs)

/-- Settles O53: a refusal of an unmarked state is for `WOFF`, and a marked state is refused again. -/
theorem refusedMarkIsSticky : Obligations.RefusedMarkIsSticky :=
  ⟨fun _ => markedStep_refused_iff, fun n _ => markedRun_refused n, hostReset_refused⟩

end Sys2Proof.Machine
end

section
/-! Host accesses (20_memory.md R63, R67, R71, R72): reads, packet bytes, what is ignored, and reset's own side. -/

namespace Sys2Proof.Machine

/-- Settles O55: reset takes 188 draw numbers from the count on, and no cell of the fresh packet is written. -/
theorem resetRedrawsThePacket : Obligations.ResetRedrawsThePacket := fun _ _ hr hp =>
  ⟨_, step_of_pending_reset hr hp, fun _ _ => rfl, rfl, rfl, rfl⟩

/-- No register shows the queue or the value last read. -/
theorem hostRead_withHostFields (s : State) (q : List HostAccess) (d : Word) (width : Width) (addr : Nat) :
    State.hostRead { s with pending := q, readData := d } width addr = s.hostRead width addr := by
  have hword (r : HostReg) : r.word { s with pending := q, readData := d } = r.word s := by cases r <;> rfl
  cases width with
  | word => simp only [State.hostRead, hword]
  | byte => rfl
  | half => rfl

/-- Settles O56: the read leaves the queue and the value read, which no register shows. -/
theorem hostReadsHaveNoEffect : Obligations.HostReadsHaveNoEffect := by
  intro s width addr rest hr hp
  have hstep : step s = .next { s with pending := rest, readData := s.hostRead width addr } := by
    rw [step_of_pending hr hp, perform, hostRead_withHostFields s rest s.readData]
  exact ⟨_, hstep, rfl, fun w a => hostRead_withHostFields s rest _ w a⟩

theorem hostRead_unmapped {addr : Nat} (h : ∀ r ∈ hostRegs, r.addr ≠ addr) (s : State) :
    s.hostRead .word addr = 0 := by
  rw [State.hostRead, hostRegAt_eq_none h]

/-! ### Which writes are ignored (R63, R72) -/

theorem perform_write_of_not_cmd {width : Width} {addr : Nat} (h : ¬ (width = .word ∧ addr = cmdAddr)) (data : Word)
    (s : State) : perform (.write width addr data) s = .next (s.hostStore width addr data) := by
  rw [perform, if_neg h]

/-- Of the word registers only `CMD` and `PKT_LEN` take a write. -/
theorem perform_wordWrite_ignored {addr : Nat} (hcmd : addr ≠ cmdAddr) (hlen : addr ≠ pktLenAddr) (data : Word)
    (s : State) : perform (.write .word addr data) s = .next s := by
  rw [perform_write_of_not_cmd (fun h => hcmd h.2)]
  exact congrArg _ (if_neg hlen)

theorem isPktAddr_iff {addr : Nat} : isPktAddr addr = true ↔ 0x100 ≤ addr ∧ addr < 0x100 + 188 := by
  simp only [isPktAddr, Bool.and_eq_true, decide_eq_true_eq]

theorem isPktAddr_eq_false {addr : Nat} (h : ¬ (0x100 ≤ addr ∧ addr < 0x100 + 188)) : isPktAddr addr = false :=
  Bool.eq_false_iff.2 (mt isPktAddr_iff.1 h)

/-- The low byte of the data, as the number R63 takes. -/
theorem lowByte_eq (data : Word) : data.extractLsb' 0 8 = BitVec.ofNat 8 data.toNat := by
  apply BitVec.eq_of_toNat_eq
  rw [BitVec.extractLsb'_toNat, Nat.shiftRight_zero, BitVec.toNat_ofNat]

theorem perform_byteWrite_ignored {addr : Nat} (h : isPktAddr addr = false) (data : Word) (s : State) :
    perform (.write .byte addr data) s = .next s := by
  rw [perform_write_of_not_cmd (by simp), State.hostStore, h]
  rfl

/-- Settles O57: registers, unmapped word addresses, bytes outside the packet, the half width, then the two writes
that do something; `Fault` has no value. -/
theorem hostAccessRules : Obligations.HostAccessRules := by
  intro s data
  refine ⟨fun r hr hne => ?register, fun addr hcmd hfree => ⟨?unmapped, ?ignored⟩, fun addr hout => ⟨?byteRead, ?byte⟩,
    fun _ => ⟨rfl, rfl⟩, ?pktLen, rfl, fun _ f => nomatch f⟩
  case register =>
    exact perform_wordWrite_ignored (hostRegs_above_cmd r hr) (fun h => hne (addr_injective h)) data s
  case unmapped => exact hostRead_unmapped hfree s
  case ignored => exact perform_wordWrite_ignored hcmd (Ne.symm (hfree .pktLen (mem_hostRegs _))) data s
  case byteRead =>
    rw [State.hostRead, isPktAddr_eq_false hout]
    rfl
  case byte => exact perform_byteWrite_ignored (isPktAddr_eq_false hout) data s
  case pktLen =>
    rw [← lowByte_eq]
    rfl

/-! ### Packet bytes (R63, R71) -/

theorem perform_packetWrite {k : Nat} (hk : k < 188) (data : Word) (s : State) :
    perform (.write .byte (0x100 + k) data) s = .next (s.writePkt k (BitVec.ofNat 8 data.toNat)) := by
  have haddr : isPktAddr (0x100 + k) = true := isPktAddr_iff.2 ⟨by omega, by omega⟩
  rw [perform_write_of_not_cmd (by simp), State.hostStore]
  simp only [haddr, if_true, lowByte_eq, pktBase, Nat.add_sub_cancel_left]

theorem hostRead_packetByte {k : Nat} (hk : k < 188) (s : State) :
    s.hostRead .byte (0x100 + k) = (0 : BitVec 24) ++ s.pkt.byte k := by
  have haddr : isPktAddr (0x100 + k) = true := isPktAddr_iff.2 ⟨by omega, by omega⟩
  simp only [State.hostRead, haddr, if_true, pktBase, Nat.add_sub_cancel_left]

theorem zero_toNat (n : Nat) : (0 : BitVec n).toNat = 0 := BitVec.toNat_zero

theorem writePkt_byte (s : State) (k j : Nat) (b : Byte) :
    (s.writePkt k b).pkt.byte j = if j = k then b else s.pkt.byte j := by
  simp only [State.writePkt, Packet.byte, read?_write]
  by_cases h : j = k
  · simp [h]
  · simp [h, Ne.symm h]

/-- Settles O58: the write stores the low byte at `k`, and the read returns what `k` then holds. -/
theorem packetBytesReadBack : Obligations.PacketBytesReadBack := by
  intro s k data hk
  refine ⟨_, perform_packetWrite hk data s, rfl, rfl, fun j => writePkt_byte s k j _, ?readBack,
    fun hwf => write_wf hwf k _⟩
  case readBack =>
    rw [hostRead_packetByte hk, writePkt_byte, if_pos rfl]
    apply BitVec.eq_of_toNat_eq
    rw [append_toNat, BitVec.toNat_ofNat, BitVec.toNat_ofNat]
    have hlt := data.isLt
    rw [zero_toNat]
    omega

/-! ### The register map as numbers (R71) -/

theorem resultCode_bits_toNat (c : ResultCode) : c.bits.toNat = codeNumber c := by
  cases c <;> rfl

theorem instBits_none_toNat : (instBits none).toNat = 0x1F := rfl

theorem instBits_some_toNat (i : InstId) : (instBits (some i)).toNat = i.val :=
  Nat.mod_eq_of_lt (i.isLt.trans (by decide))

/-- The top bits of a register, read on their own. -/
theorem extractLsb'_high_toNat {n lo len : Nat} (x : BitVec n) (h : n ≤ lo + len) :
    (x.extractLsb' lo len).toNat = x.toNat / 2 ^ lo := by
  rw [BitVec.extractLsb'_toNat, Nat.shiftRight_eq_div_pow]
  refine Nat.mod_eq_of_lt (Nat.div_lt_of_lt_mul ?_)
  rw [← Nat.pow_add]
  exact x.isLt.trans_le (Nat.pow_le_pow_right (by decide) h)

theorem extractLsb'_low_toNat {n : Nat} (x : BitVec n) (len : Nat) :
    (x.extractLsb' 0 len).toNat = x.toNat % 2 ^ len := by
  rw [BitVec.extractLsb'_toNat, Nat.shiftRight_zero]

theorem baseHiWord_toNat (base : BitVec 33) (ext : BitVec 9) :
    (baseHiWord base ext).toNat = base.toNat / 2 ^ 32 + 2 ^ 16 * ext.toNat := by
  simp only [baseHiWord, append_toNat, extractLsb'_high_toNat base (show 33 ≤ 32 + 1 by decide), zero_toNat]
  omega

theorem highWord_toNat {n m k : Nat} (x : BitVec n) (h : n ≤ 32 + m) :
    ((0 : BitVec k) ++ x.extractLsb' 32 m).toNat = x.toNat / 2 ^ 32 := by
  rw [append_toNat, extractLsb'_high_toNat x h, zero_toNat, Nat.zero_mul, Nat.zero_add]

theorem hostRead_toNat (s : State) (r : HostReg) : (s.hostRead .word r.addr).toNat = (r.word s).toNat :=
  congrArg BitVec.toNat (hostRead_addr s r)

theorem cfgWord_toNat {p : Params} (h : p.legal) :
    (cfgWord p).toNat =
      p.nAsm + (if p.ccFirst = .any then 2 ^ 8 else 0) + (if p.ccAdvanceOnLoss then 2 ^ 9 else 0) := by
  have hn := h.2.1
  have hmod : p.nAsm % 2 ^ 5 = p.nAsm := Nat.mod_eq_of_lt (by omega)
  simp only [cfgWord, append_toNat, BitVec.toNat_ofNat, BitVec.toNat_ofBool, zero_toNat, hmod, beq_eq_decide]
  cases p.ccFirst <;> cases p.ccAdvanceOnLoss <;> simp <;> omega

theorem showsControlAndHeader (s : State) : ShowsControlAndHeader s := by
  refine ⟨?cmd, (hostRead_toNat s .result).trans ?result, (hostRead_toNat s .pktLen).trans ?pktLen,
    fun hp => (hostRead_toNat s .cfg).trans (cfgWord_toNat hp), hostRead_toNat s .cfgCapu, hostRead_toNat s .hdrWord,
    (hostRead_toNat s .hdrStat).trans ?hdrStat⟩
  case cmd => exact congrArg BitVec.toNat (hostRead_unmapped hostRegs_above_cmd s)
  case result =>
    simp only [HostReg.word, Result.word, append_toNat, resultCode_bits_toNat, BitVec.toNat_ofBool, zero_toNat]
    cases s.result.inst with
    | none => simp only [instBits_none_toNat]; omega
    | some i => simp only [instBits_some_toNat]; omega
  case pktLen =>
    simp only [HostReg.word, append_toNat, zero_toNat]
    omega
  case hdrStat =>
    simp only [HostReg.word, append_toNat, resultCode_bits_toNat, BitVec.toNat_ofBool, zero_toNat]
    omega

theorem showsAfGroup (s : State) : ShowsAfGroup s := by
  refine ⟨(hostRead_toNat s .afStat).trans ?stat, (hostRead_toNat s .afInfo).trans ?info,
    (hostRead_toNat s .afLens).trans ?lens, (hostRead_toNat s .pcrBaseLo).trans (extractLsb'_low_toNat ..),
    (hostRead_toNat s .pcrBaseHi).trans (baseHiWord_toNat ..),
    (hostRead_toNat s .pcrTimeLo).trans (extractLsb'_low_toNat ..), (hostRead_toNat s .pcrTimeHi).trans ?pcrTimeHi,
    (hostRead_toNat s .opcrBaseLo).trans (extractLsb'_low_toNat ..),
    (hostRead_toNat s .opcrBaseHi).trans (baseHiWord_toNat ..),
    (hostRead_toNat s .opcrTimeLo).trans (extractLsb'_low_toNat ..),
    (hostRead_toNat s .opcrTimeHi).trans ?opcrTimeHi⟩
  case stat =>
    simp only [HostReg.word, append_toNat, resultCode_bits_toNat, zero_toNat]
    omega
  case info | lens =>
    simp only [HostReg.word, append_toNat, zero_toNat]
    omega
  case pcrTimeHi | opcrTimeHi => exact highWord_toNat _ (by decide)

theorem showsPeshGroup (s : State) : ShowsPeshGroup s := by
  refine ⟨(hostRead_toNat s .peshStat).trans ?stat, (hostRead_toNat s .peshId).trans ?id,
    (hostRead_toNat s .peshLen).trans ?len, (hostRead_toNat s .peshFlags).trans ?flags,
    (hostRead_toNat s .ptsLo).trans (extractLsb'_low_toNat ..), (hostRead_toNat s .ptsHi).trans ?ptsHi,
    (hostRead_toNat s .dtsLo).trans (extractLsb'_low_toNat ..), (hostRead_toNat s .dtsHi).trans ?dtsHi⟩
  case stat =>
    simp only [HostReg.word, append_toNat, resultCode_bits_toNat, BitVec.toNat_ofBool, zero_toNat]
    omega
  case id | len | flags =>
    simp only [HostReg.word, append_toNat, zero_toNat]
    omega
  case ptsHi | dtsHi => exact highWord_toNat _ (by decide)

/-- `LAST_CC` as R36 reads its five bits. -/
theorem lastCcBits_toInt (c : Option (BitVec 4)) :
    (lastCcBits c).toInt = c.elim (-1) fun l => (l.toNat : Int) := by
  cases c with
  | none => rfl
  | some l =>
    revert l
    decide

/-- A register of an instance block as a number. -/
theorem hostRead_inst_toNat {s : State} {i : InstId} (h : i.val < s.params.nAsm) (r : InstReg) :
    (s.hostRead .word (0x400 + 0x40 * i.val + r.offset)).toNat = (r.word (s.inst i)).toNat :=
  congrArg BitVec.toNat (hostRead_inst h r)

theorem showsInstance {s : State} {i : InstId} (h : i.val < s.params.nAsm) : ShowsInstance s i := by
  refine ⟨(hostRead_inst_toNat h .ctrl).trans ?ctrl, (hostRead_inst_toNat h .lastCc).trans_lt ?small, ?signed,
    hostRead_inst h .cap, hostRead_inst h .woff, (hostRead_inst_toNat h .hl).trans ?hl,
    (hostRead_inst_toNat h .phl).trans ?phl, congrArg BitVec.toInt (hostRead_inst h .pdl),
    (hostRead_inst_toNat h .lres).trans ?lres⟩
  case ctrl | hl | phl =>
    simp only [InstReg.word, append_toNat, BitVec.toNat_ofBool, zero_toNat]
    omega
  case small =>
    simp only [InstReg.word, append_toNat, zero_toNat]
    omega
  case signed =>
    have hbits : ((InstReg.lastCc.word (s.inst i)).extractLsb' 0 5) = lastCcBits (s.inst i).lastCc :=
      BitVec.extractLsb'_append_eq_right
    refine ((congrArg (fun w : Word => (w.extractLsb' 0 5).toInt) (hostRead_inst h .lastCc)).trans
      (congrArg BitVec.toInt hbits)).trans ((lastCcBits_toInt _).trans ?_)
    cases (s.inst i).lastCc <;> rfl
  case lres =>
    simp only [InstReg.word, LastResult.bits, append_toNat, resultCode_bits_toNat, BitVec.toNat_ofBool, zero_toNat]
    omega

/-- The addresses of an instance's block are its own registers' (R71). -/
theorem hostReg_of_blockAddr {r : HostReg} {i : InstId} {off : Nat} (hoff : off < 0x40)
    (h : r.addr = 0x400 + 0x40 * i.val + off) : ∃ r', r = .inst i r' := by
  cases r with
  | inst j r' =>
    have hr' : r'.offset < 0x40 := by cases r' <;> decide
    have hij : j = i := by
      simp only [HostReg.addr] at h
      exact Fin.ext (by omega)
    exact ⟨r', by rw [hij]⟩
  | _ =>
    simp only [HostReg.addr, pktLenAddr] at h
    omega

/-- No register of an instance at or above `N_ASM` exists, so its whole block reads 0 (R71). -/
theorem hostRead_absent {s : State} {i : InstId} {off : Nat} (hi : s.params.nAsm ≤ i.val) (hoff : off < 0x40) :
    s.hostRead .word (0x400 + 0x40 * i.val + off) = 0 := by
  rw [State.hostRead]
  cases hreg : hostRegAt (0x400 + 0x40 * i.val + off) with
  | none => rfl
  | some r =>
    obtain ⟨r', rfl⟩ := hostReg_of_blockAddr hoff (hostRegAt_eq_some hreg)
    have hno : s.hasInst i = false := decide_eq_false (Nat.not_lt_of_le hi)
    simp only [HostReg.word, hno, Bool.false_eq_true, if_false]

/-- Settles O59: each register is found at its address, and its word is the number of its fields. -/
theorem registerMapIsReadable : Obligations.RegisterMapIsReadable :=
  ⟨fun _ _ => addr_injective, fun s => ⟨hostRead_addr s, showsControlAndHeader s, showsAfGroup s, showsPeshGroup s,
    fun _ => showsInstance, fun _ _ => hostRead_absent⟩⟩

end Sys2Proof.Machine
end
